-- ==== Sys2Proof/Word.lean ====
section
/-! DEFINITION. The word types of the block: a byte (u8) and a 32-bit header word (u32), as rule R11
names them. -/

namespace Sys2Proof

/-- `u8` of rule R11: one byte, one channel of a pixel. -/
abbrev Byte := BitVec 8

/-- `u32` of rule R11: the width and the height of a description. -/
abbrev Word32 := BitVec 32

end Sys2Proof
end

