-- ==== Sys2Proof/Config.lean ====
section
/-! DEFINITION. The format constants of rule R8 and the three model parameters of rule R9. -/

namespace Sys2Proof

/-- `PIXELS_MAX` of rule R8: the pixel-count ceiling. -/
abbrev pixelsMax : Nat := 400000000

/-- `HEADER_BYTES` of rule R8. -/
abbrev headerBytes : Nat := 14

/-- `MIN_STREAM_BYTES` of rule R8: header and end marker. -/
abbrev minStreamBytes : Nat := 22

/-- `MAX_RUN` of rule R8: pixels one RUN op covers at most. -/
abbrev maxRun : Nat := 62

/-- `MAGIC` of rules R8 and R72: the ASCII bytes `qoif`. -/
def magic : List Byte := [0x71, 0x6F, 0x69, 0x66]

/-- `END_MARKER` of rules R8 and R73. -/
def endMarker : List Byte := [0, 0, 0, 0, 0, 0, 0, 1]

/-- `TRUNCATION_POLICY` of rule R9 (D6): what the decoder does when it runs out of op bytes. -/
inductive TruncationPolicy
  /-- Raise MalformedStream (the default). -/
  | fail
  /-- Read operands from the marker region; repeat `px` when no op is left. -/
  | reference
  deriving DecidableEq, Repr

/-- The three model parameters of rule R9. A model takes each as an argument; this one holds them in
`State.cfg`, so a statement about every state is a statement about every setting (log 2). -/
structure Config where
  /-- `TRUNCATION_POLICY`. -/
  truncation : TruncationPolicy
  /-- `STRICT_END`. -/
  strictEnd : Bool
  /-- `CURSOR_BITS`. -/
  cursorBits : Nat
  deriving DecidableEq, Repr

/-- The defaults of rule R9. -/
def Config.standard : Config := { truncation := .fail, strictEnd := true, cursorBits := 32 }

/-- The values rule R9 admits: `CURSOR_BITS` is "a natural number ≥ 32". -/
def Config.wf (c : Config) : Bool := 32 ≤ c.cursorBits

end Sys2Proof
end

