-- ==== Sys2Proof/Syntax.lean ====
section
/-! DEFINITION. The instructions of the block: the six ops of spec/opcode_table.json (rules R4, R74),
with the operands of the spec's own syntax (rule R86). -/

namespace Sys2Proof

/-- One op of the stream. Deltas are signed and a run is a length, as rule R86 writes them; the ranges
are checked in WellFormed.lean. -/
inductive Instr
  /-- INDEX i (rule R75): the cache slot, 0..63. -/
  | index (slot : Fin 64)
  /-- DIFF dr, dg, db (rule R76): each in [−2, 1]. -/
  | diff (dr dg db : Int)
  /-- LUMA dg, dr_g, db_g (rule R77): dg in [−32, 31], the cross-deltas in [−8, 7]. -/
  | luma (dg drg dbg : Int)
  /-- RUN n (rule R78): n is the run length, 1..62, not the field. -/
  | run (n : Nat)
  /-- RGB r, g, b (rule R79). -/
  | rgb (r g b : Byte)
  /-- RGBA r, g, b, a (rule R80). -/
  | rgba (r g b a : Byte)
  deriving DecidableEq, Repr

end Sys2Proof
end

