-- ==== Sys2Proof/WellFormed.lean ====
section
/-! DEFINITION. When an op's operands are in the ranges its format can hold (rules R75 to R80, R82). -/

namespace Sys2Proof

/-- `v ∈ [lo, hi]`, as rules R76, R77 and R82 write their ranges. -/
def inRange (lo hi v : Int) : Bool := decide (lo ≤ v) && decide (v ≤ hi)

/-- The operand ranges of rule R82. An INDEX slot and a literal byte are in range by their types. -/
def Instr.wf : Instr → Bool
  | .index _ => true
  | .diff dr dg db => inRange (-2) 1 dr && inRange (-2) 1 dg && inRange (-2) 1 db
  | .luma dg drg dbg => inRange (-32) 31 dg && inRange (-8) 7 drg && inRange (-8) 7 dbg
  | .run n => decide (1 ≤ n) && decide (n ≤ maxRun)
  | .rgb _ _ _ => true
  | .rgba _ _ _ _ => true

end Sys2Proof
end

