-- ==== Sys2Proof/Decode.lean ====
section
/-! DEFINITION. Decoding an op from its bytes (rules R74 to R81), and the encoder of rule R82, each written
from the spec's formats. -/

namespace Sys2Proof

/-- `b[hi:lo]` of rule R10: the unsigned field of bits hi down to lo. -/
def bits (b : Byte) (hi lo : Nat) : Nat := b.toNat / 2 ^ lo % 2 ^ (hi - lo + 1)

/-- Why a list of bytes gives no op. No byte VALUE is rejected (rule R83): only bytes that are missing. -/
inductive DecodeError
  /-- There is no first byte. -/
  | noByte
  /-- The list ends before the op's operand bytes. -/
  | missingOperands
  deriving DecidableEq, Repr

/-- `oplen(b1)` of rule R74: the first byte alone gives the op's length. -/
def opLen (b1 : Byte) : Nat :=
  if b1 = 0xFE then 4
  else if b1 = 0xFF then 5
  else if bits b1 7 6 = 2 then 2
  else 1

/-- The slot of an INDEX op, `zext_6(b1[5:0])` (rule R81). -/
def slotField (b1 : Byte) : Fin 64 := Fin.ofNat 64 (bits b1 5 0)

/-- The op at the front of a list of bytes and the bytes after it. The two full-byte tags are tested first,
then the top two bits (rules R74, R166); operands as rule R81 assembles them. -/
def decode : List Byte → Except DecodeError (Instr × List Byte)
  | [] => .error .noByte
  | b1 :: rest =>
    if b1 = 0xFE then
      match rest with
      | r :: g :: b :: tail => .ok (.rgb r g b, tail)
      | _ => .error .missingOperands
    else if b1 = 0xFF then
      match rest with
      | r :: g :: b :: a :: tail => .ok (.rgba r g b a, tail)
      | _ => .error .missingOperands
    else if bits b1 7 6 = 0 then
      .ok (.index (slotField b1), rest)
    else if bits b1 7 6 = 1 then
      .ok (.diff ((bits b1 5 4 : Int) - 2) ((bits b1 3 2 : Int) - 2) ((bits b1 1 0 : Int) - 2), rest)
    else if bits b1 7 6 = 2 then
      match rest with
      | b2 :: tail =>
        .ok (.luma ((bits b1 5 0 : Int) - 32) ((bits b2 7 4 : Int) - 8) ((bits b2 3 0 : Int) - 8), tail)
      | _ => .error .missingOperands
    else
      .ok (.run (bits b1 5 0 + 1), rest)

/-- The bytes of an op (rule R82). Meant for a well-formed op; `emit` of rules R127 to R134 writes these. -/
def encode : Instr → List Byte
  | .index i => [0x00 ||| BitVec.ofNat 8 i.val]
  | .diff dr dg db =>
    [0x40 ||| (BitVec.ofInt 8 (dr + 2) <<< 4) ||| (BitVec.ofInt 8 (dg + 2) <<< 2) ||| BitVec.ofInt 8 (db + 2)]
  | .luma dg drg dbg =>
    [0x80 ||| BitVec.ofInt 8 (dg + 32), (BitVec.ofInt 8 (drg + 8) <<< 4) ||| BitVec.ofInt 8 (dbg + 8)]
  | .run n => [0xC0 ||| BitVec.ofNat 8 (n - 1)]
  | .rgb r g b => [0xFE, r, g, b]
  | .rgba r g b a => [0xFF, r, g, b, a]

/-- The length in bytes of an op (rule R74). -/
def Instr.length : Instr → Nat
  | .index _ => 1
  | .diff _ _ _ => 1
  | .luma _ _ _ => 2
  | .run _ => 1
  | .rgb _ _ _ => 4
  | .rgba _ _ _ _ => 5

/-- The longest op, RGBA (rule R74). -/
abbrev maxOpBytes : Nat := 5

/-- The `maxOpBytes` bytes of a table word: byte k is bits 8k+7 .. 8k of `w`, the first byte least
significant, and every bit from `nbits` on is 0 (the numbering of spec/opcode_table.json). -/
def tableBytes (nbits w : Nat) : List Byte :=
  (List.range maxOpBytes).map fun k => BitVec.ofNat 8 (w % 2 ^ nbits / 2 ^ (8 * k))

/-- The op the decoder reads from a word numbered as spec/opcode_table.json numbers it. -/
def decodeTableWord (nbits w : Nat) : Option Instr :=
  match decode (tableBytes nbits w) with
  | .ok (i, _) => some i
  | .error _ => none

end Sys2Proof
end

