-- ==== Sys2Proof/Machine/State.lean ====
section
/-! DEFINITION. The state of the block as plain data: everything the spec gives it (rules R20 to R39, R50,
R235), the reasons a step can stop, and the state after reset (rule R250). -/

namespace Sys2Proof.Machine

/-- A pixel `(r, g, b, a)` of four u8 channels (rules R12, R23). Equality is equality of the four channels,
which is what the derived equality says; no 32-bit overlay exists (rule R55). -/
structure Pixel where
  /-- Red. -/
  r : Byte
  /-- Green. -/
  g : Byte
  /-- Blue. -/
  b : Byte
  /-- Alpha. -/
  a : Byte
  deriving DecidableEq, Repr

/-- The start value `(0, 0, 0, 255)` of `prev` and `px` (rules R24, R25, R38). -/
def Pixel.start : Pixel := { r := 0, g := 0, b := 0, a := 255 }

/-- The start value `(0, 0, 0, 0)` of every cache slot (rule R28). -/
def Pixel.zero : Pixel := { r := 0, g := 0, b := 0, a := 0 }

/-- The description registers `DESC` (rule R21). -/
structure Desc where
  /-- Pixels per row. -/
  width : Word32
  /-- Rows. -/
  height : Word32
  /-- Bytes per pixel in the pixel buffer: 3 or 4 when legal. -/
  channels : Byte
  /-- The color-space tag: carried, never interpreted (rule R22). -/
  colorspace : Byte
  deriving DecidableEq, Repr

/-- The color cache: 64 pixel registers (rule R28). -/
abbrev Cache := Vector Pixel 64

/-- The start value of a cache: every slot `(0, 0, 0, 0)` (rule R28). -/
def Cache.start : Cache := Vector.replicate 64 Pixel.zero

/-- A byte memory: the bytes that are not 0, by rising address (`Memory.wf` in Ops.lean). An unlisted address
reads as 0 (DESIGN CHOICE, log 8); the length of a space says which addresses exist. -/
abbrev Memory := List Host.Cell

/-- An input space `IN[0..len−1]` (rule R50). -/
structure Space where
  /-- `L_in`: the addresses below it exist. -/
  len : Nat
  /-- Its bytes. -/
  cells : Memory
  deriving DecidableEq, Repr

/-- The outcome of a command, `RESULT.status` (rules R33, R221); its code is in Flags.lean. -/
inductive Status
  /-- `OK`. -/
  | ok
  /-- `INVALID_DESCRIPTION`, raised by ENCODE only (rule R220). -/
  | invalidDescription
  /-- `MALFORMED_STREAM`, raised by DECODE only (rule R220). -/
  | malformedStream
  deriving DecidableEq, Repr

/-- The result register `RESULT` (rule R33). -/
structure Result where
  /-- `RESULT.status`. -/
  status : Status
  /-- `RESULT.out_len`, the byte length of the output. -/
  outLen : Nat
  /-- `RESULT.desc`; `none` is the spec's "not valid": it is valid only after a DECODE with status OK. -/
  desc : Option Desc
  deriving DecidableEq, Repr

/-- The block's two commands with their operands other than `IN` (rules R88, R120, R160). -/
inductive Command
  /-- ENCODE(IN, desc). -/
  | encode (d : Desc)
  /-- DECODE(IN). -/
  | decode
  deriving DecidableEq, Repr

/-- What the host supplies for one command (rule R253): the command, its input space and how many bytes its
output space can hold. -/
structure Request where
  /-- The command. -/
  cmd : Command
  /-- `IN`. -/
  inp : Space
  /-- The capacity of `OUT` in bytes. -/
  outCap : Nat
  deriving DecidableEq, Repr

/-- Idle, or busy with one command (rule R235). -/
inductive Phase
  /-- No command is in progress. -/
  | idle
  /-- An ENCODE is in progress; the next step is its pixel step `pos`. -/
  | encoding
  /-- A DECODE is in progress; the next step is its pixel step `pos`. -/
  | decoding
  deriving DecidableEq, Repr

/-- Why a step stops with a fault. The spec's own failures are no faults: they end a command with a result
(rule R224) and the block goes on. -/
inductive Fault
  /-- A rule would read a byte outside `IN`, or the decoder an op byte where rules R51 and R178 say that it reads
  none. Raised by the header read, the encoder's pixel read and the decoder's fetch; rule R51 says that no rule does, so
  only a state that no run reaches raises it. Safe. -/
  | readOutsideInput
  /-- The bytes fetched for an op are fewer than the op needs. Raised by the decoder's fetch; it reads
  `oplen(b1)` bytes, so no state raises it. Safe. -/
  | opBytesMissing
  deriving DecidableEq, Repr

/-- Why a step, or a read by the host, is refused. -/
inductive Refusal
  /-- An op that has no meaning yet: answered by `exec` alone. Safe. -/
  | notModelled (mnemonic : String)
  /-- A DECODE input longer than `2^CURSOR_BITS − 1` bytes, "refused, not decoded" (rule R160). Raised when
  such a command begins. Safe. -/
  | inputTooLong
  /-- The host's `OUT` is smaller than rule R253 requires: such a launch has no meaning (D13). Raised when
  such a command begins. Safe. -/
  | outputTooSmall
  /-- The host reads `RESULT` before the first command has completed (rule R33). Raised by the host's reads.
  Safe. -/
  | resultUnavailable
  /-- The host reads `RESULT.desc` when it is not valid (rule R33). Raised by the host's reads. Safe. -/
  | descUnavailable
  /-- The host reads `OUT` outside a completed result's bytes, or after a failure (rules R60, R224). Raised
  by the host's reads. Safe. -/
  | outputUnavailable
  /-- The host reads `RESULT` or `OUT` while a command runs (rules R60, R62). Raised by the host's reads.
  Safe. -/
  | commandRunning
  deriving DecidableEq, Repr

/-- The whole state of the block (rule R20), its spaces (rule R50), its parameters (rule R9) and the commands
the host has issued. -/
structure State where
  /-- The parameters of rule R9; no step writes them (log 2). -/
  cfg : Config
  /-- Idle or busy (rule R235). -/
  phase : Phase
  /-- The commands the host has issued and the block has not begun, oldest first. The MODEL's own field
  (DESIGN CHOICE, log 3). -/
  requests : List Request
  /-- `IN` of the command in progress, or of the last one that began its pixel steps (rule R50). -/
  inp : Space
  /-- `OUT` of the command in progress, or of the last one that began its pixel steps (rule R50). -/
  out : Memory
  /-- The capacity of `OUT` (rule R253). -/
  outCap : Nat
  /-- `DESC` (rule R21). -/
  desc : Desc
  /-- `prev`, the encoder's previous pixel (rule R24). -/
  prev : Pixel
  /-- `px`, the decoder's current pixel (rule R25). -/
  px : Pixel
  /-- `run`, 6 bits (rules R26, R27). -/
  run : BitVec 6
  /-- The encoder's cache (rule R28). -/
  encCache : Cache
  /-- The decoder's cache (rule R28). -/
  decCache : Cache
  /-- `pos`, the pixel position (rule R30). -/
  pos : Nat
  /-- `rd`, the decoder's input cursor (rule R31). -/
  rd : Nat
  /-- `wr`, the output cursor (rule R32). -/
  wr : Nat
  /-- `RESULT`; `none` is the spec's "holds no value" before the first command completes (rule R33). -/
  result : Option Result
  deriving DecidableEq, Repr

/-- The description registers while no description was ever loaded: DESIGN CHOICE, log 4. -/
def Desc.unset : Desc := { width := 0, height := 0, channels := 0, colorspace := 0 }

/-- The block right after reset (rules R250, R38): idle, `RESULT` without a value, every per-command element at
its start value, the parameters at their defaults (rule R9). -/
def State.reset : State where
  cfg := Config.standard
  phase := .idle
  requests := []
  inp := { len := 0, cells := [] }
  out := []
  outCap := 0
  desc := Desc.unset
  prev := Pixel.start
  px := Pixel.start
  run := 0
  encCache := Cache.start
  decCache := Cache.start
  pos := 0
  rd := 14
  wr := 0
  result := none

end Sys2Proof.Machine
end

