-- ==== Sys2Proof/Machine/Flags.lean ====
section
/-! DEFINITION. The block has no condition flag (rule R34). Its only status is `RESULT.status`, whose 2-bit
codes stand here (rules R33, R221). -/

namespace Sys2Proof.Machine

/-- The code of a status in `RESULT.status`, 2 bits (rules R33, R221); the value 3 is never written. -/
def Status.code : Status → BitVec 2
  | .ok => 0
  | .invalidDescription => 1
  | .malformedStream => 2

end Sys2Proof.Machine
end

