-- ==== Sys2Proof/Machine/Hash.lean ====
section
/-! DEFINITION. The unit `color_cache_hash` (rules R200 to R203): one combinational function. -/

namespace Sys2Proof.Machine

/-- The weighted sum of rule R200, exact (rule R201). -/
def hashSum (p : Pixel) : Nat := p.r.toNat * 3 + p.g.toNat * 5 + p.b.toNat * 7 + p.a.toNat * 11

/-- `hash(p)`, the cache slot of a pixel (rule R200). -/
def hash (p : Pixel) : Fin 64 := Fin.ofNat 64 (hashSum p)

end Sys2Proof.Machine
end

