-- ==== Sys2Proof/Machine/Ops.lean ====
section
/-! DEFINITION. The shared operations: memory, the named updates of the state, the caches, ending a command
(with a result, or by a failure: the trap-entry analogue of rule R224), and what the host can do. -/

namespace Sys2Proof.Machine

/-! ### Memory -/

/-- The canonical form of a memory: addresses strictly rising, no byte equal to what an unlisted address
reads as (0). -/
def Memory.wf : Memory → Bool
  | [] => true
  | (k, b) :: rest => (b != 0) && rest.all (fun c => decide (k < c.1)) && Memory.wf rest

/-- The byte at an address; an unlisted address reads as 0 (log 8). -/
def Memory.read : Memory → Nat → Byte
  | [], _ => 0
  | (k, b) :: rest, a => if k = a then b else Memory.read rest a

/-- Store one byte, keeping the canonical form: storing 0 removes the entry. -/
def Memory.write : Memory → Nat → Byte → Memory
  | [], a, v => if v = 0 then [] else [(a, v)]
  | (k, b) :: rest, a, v =>
    if a < k then (if v = 0 then (k, b) :: rest else (a, v) :: (k, b) :: rest)
    else if a = k then (if v = 0 then rest else (a, v) :: rest)
    else (k, b) :: Memory.write rest a v

/-- `MemWrite(addr, n, v)` of rule R13: the bytes of `v` at `addr`, `addr + 1`, … -/
def Memory.writeBytes : Memory → Nat → List Byte → Memory
  | m, _, [] => m
  | m, a, v :: vs => Memory.writeBytes (m.write a v) (a + 1) vs

/-- The `n` bytes from `addr` on, in that order. -/
def Memory.readBytes (m : Memory) (addr n : Nat) : List Byte :=
  (List.range n).map fun k => m.read (addr + k)

/-- `MemRead(addr, n)` of rule R13. `none` when a byte of it does not exist: `addr + n ≤ L_in` fails, which
rule R51 says no rule lets happen. -/
def Space.memRead (sp : Space) (addr n : Nat) : Option (List Byte) :=
  if addr + n ≤ sp.len then some (sp.cells.readBytes addr n) else none

/-- The input space whose bytes are the list's. -/
def Space.ofBytes (bs : List Byte) : Space := { len := bs.length, cells := Memory.writeBytes [] 0 bs }

/-- The bytes of an input space, in address order. -/
def Space.toBytes (sp : Space) : List Byte := sp.cells.readBytes 0 sp.len

/-- A space in canonical form, listing no address that does not exist. -/
def Space.wf (sp : Space) : Bool := sp.cells.wf && sp.cells.all (fun c => decide (c.1 < sp.len))

/-! ### The color cache (rules R28, R29) -/

/-- `cache[i]`. -/
def cacheGet (cache : Cache) (i : Fin 64) : Pixel := cache[i.val]

/-- `cache[i] <- p`: an unconditional overwrite of one slot (rule R29). -/
def cacheSet (cache : Cache) (i : Fin 64) (p : Pixel) : Cache := cache.set i.val p

/-! ### Named updates of the state -/

/-- `px <- p` (rule R25). -/
def State.setPx (s : State) (p : Pixel) : State := { s with px := p }

/-- `prev <- p` (rule R24). -/
def State.setPrev (s : State) (p : Pixel) : State := { s with prev := p }

/-- `run <- n` (rules R26, R27). -/
def State.setRun (s : State) (n : BitVec 6) : State := { s with run := n }

/-- `rd <- rd + n` (rules R13, R31). -/
def State.advanceRd (s : State) (n : Nat) : State := { s with rd := s.rd + n }

/-- `pos <- pos + 1` (rules R13, R30). -/
def State.advancePos (s : State) : State := { s with pos := s.pos + 1 }

/-- The decoder's cache write `cache[hash(px)] <- px` (rule R173). -/
def State.storePx (s : State) : State := { s with decCache := cacheSet s.decCache (hash s.px) s.px }

/-- The encoder's cache write `cache[hash(p)] <- p` (rule R129). -/
def State.storeEnc (s : State) (p : Pixel) : State :=
  { s with encCache := cacheSet s.encCache (hash p) p }

/-- `emit(b1, …, bk)` of rule R13: write at the output cursor and move it. -/
def State.emit (s : State) (bs : List Byte) : State :=
  { s with out := s.out.writeBytes s.wr bs, wr := s.wr + bs.length }

/-! ### Ending a command -/

/-- A command ends with a result and the block is idle (rules R136, R177, R224, R226). The per-command state
keeps what it held; nothing reads it while the block is idle (log 7). -/
def State.finish (s : State) (r : Result) : State := { s with phase := .idle, result := some r }

/-- `raise` (rule R224): the command ends at once; its failure's code, `out_len` 0, no description. -/
def State.raise (s : State) (st : Status) : State :=
  s.finish { status := st, outLen := 0, desc := none }

/-! ### What the host can do (rules R33, R60, R250, R253) -/

/-- The host issues a command; the block begins it once it is idle and every earlier one has ended (log 3). -/
def State.launch (s : State) (r : Request) : State := { s with requests := s.requests ++ [r] }

/-- The host reads `RESULT` (rules R33, R60): refused before the first result and while a command runs. -/
def hostReadResult (s : State) : Host.Outcome Result Fault Refusal :=
  match s.phase, s.result with
  | .idle, some r => .next r
  | .idle, none => .refused .resultUnavailable
  | _, _ => .refused .commandRunning

/-- The host reads `RESULT.desc` (rule R33): valid only after a DECODE with status OK. -/
def hostReadDesc (s : State) : Host.Outcome Desc Fault Refusal :=
  match hostReadResult s with
  | .next r =>
    match r.desc with
    | some d => .next d
    | none => .refused .descUnavailable
  | .fault f => .fault f
  | .refused e => .refused e

/-- The host reads byte `a` of `OUT` (rules R60, R224): only `OUT[0..out_len−1]` of a command that completed
with status OK. -/
def hostReadOut (s : State) (a : Nat) : Host.Outcome Byte Fault Refusal :=
  match hostReadResult s with
  | .next r => if r.status = .ok ∧ a < r.outLen then .next (s.out.read a) else .refused .outputUnavailable
  | .fault f => .fault f
  | .refused e => .refused e

/-- A hardware reset (rules R250, R251; D14), an input of the host that may land between any two steps: the
command in progress is abandoned with no result, `RESULT` holds no value, and the block is idle. The
parameters and the host's own commands and buffers are not the block's registers and stay (log 18). -/
def State.hardwareReset (s : State) : State :=
  { State.reset with cfg := s.cfg, requests := s.requests, inp := s.inp, out := s.out, outCap := s.outCap }

end Sys2Proof.Machine
end

