-- ==== Sys2Proof/Machine/Operands.lean ====
section
/-! DEFINITION. Reading and writing pixels, the arithmetic on channels, and the frame every op shares
(rules R11, R52, R125, R130, R166, R173, R175). -/

namespace Sys2Proof.Machine

/-- `wrap8(v) = v mod 256` (rule R11). -/
def wrap8 (v : Int) : Byte := BitVec.ofInt 8 v

/-- `sext_8(v)`: the byte read as two's complement (rule R11). -/
def sext8 (v : Byte) : Int := if v.toNat < 128 then (v.toNat : Int) else (v.toNat : Int) - 256

/-- `s8diff(a, b) = sext_8(wrap8(a − b))` (rule R11): the encoder's signed wraparound difference. -/
def s8diff (a b : Byte) : Int := sext8 (wrap8 ((a.toNat : Int) - (b.toNat : Int)))

/-- A channel plus a delta, modulo 256 (rules R170, R171). -/
def addWrap (c : Byte) (d : Int) : Byte := wrap8 ((c.toNat : Int) + d)

/-- A pixel whose color channels move by deltas and whose alpha is kept (rules R170, R171). -/
def Pixel.addDeltas (p : Pixel) (dr dg db : Int) : Pixel :=
  { r := addWrap p.r dr, g := addWrap p.g dg, b := addWrap p.b db, a := p.a }

/-- `N = width × height` (rule R15). -/
def Desc.pixels (d : Desc) : Nat := d.width.toNat * d.height.toNat

/-- `DESC.channels` as a byte count (rule R52). -/
def Desc.stride (d : Desc) : Nat := d.channels.toNat

/-- The bytes of a pixel in the pixel buffer: R, G, B and, when channels = 4, A (rules R52, R175). -/
def pixelBytes (d : Desc) (p : Pixel) : List Byte :=
  if d.channels = 4 then [p.r, p.g, p.b, p.a] else [p.r, p.g, p.b]

/-- `read_pixel(pos)` (rule R125): the encoder's pixel, with alpha 255 when channels = 3. -/
def readPixel (s : State) : Option Pixel :=
  match s.inp.memRead (s.pos * s.desc.stride) 3 with
  | some [r, g, b] =>
    if s.desc.channels = 4 then
      match s.inp.memRead (s.pos * s.desc.stride + 3) 1 with
      | some [a] => some { r := r, g := g, b := b, a := a }
      | _ => none
    else some { r := r, g := g, b := b, a := 255 }
  | _ => none

/-- `end = L − 8`, the first byte of the marker region (rule R163). -/
def streamEnd (s : State) : Nat := s.inp.len - 8

/-- The truncation test of rule R166: under FAIL, an op of `n` bytes that reaches into the marker region. -/
def truncated (s : State) (n : Nat) : Bool :=
  decide (s.cfg.truncation = .fail) && decide (streamEnd s < s.rd + n)

/-- An op of more than one byte (rules R166, R167, R168, R171, R173): MalformedStream if it is truncated; else its
effect on `px`, then `rd <- rd + n` and the cache write. In a step the fetch has made the same test before it read the
operand bytes; here it is the exception each of these rules lists for its op (log 19). -/
def operandOp (n : Nat) (p : Pixel) (s : State) : Host.Outcome State Fault Refusal :=
  if truncated s n then .next (s.raise .malformedStream)
  else .next ((s.setPx p).advanceRd n).storePx

end Sys2Proof.Machine
end

