-- ==== Sys2Proof/Machine/Header.lean ====
section
/-! DEFINITION. The header codec both units share (rules R100 to R109), and the framing of a stream (rules
R53, R70, R86). -/

namespace Sys2Proof.Machine

/-- `be32` of rule R13: the big-endian reading of four bytes. -/
def be32 (x0 x1 x2 x3 : Byte) : Word32 :=
  BitVec.ofNat 32 (x0.toNat * 2 ^ 24 + x1.toNat * 2 ^ 16 + x2.toNat * 2 ^ 8 + x3.toNat)

/-- `be32bytes` of rule R13, the inverse of `be32`. -/
def be32bytes (v : Word32) : List Byte :=
  [BitVec.ofNat 8 (v.toNat / 2 ^ 24), BitVec.ofNat 8 (v.toNat / 2 ^ 16),
   BitVec.ofNat 8 (v.toNat / 2 ^ 8), BitVec.ofNat 8 v.toNat]

/-- `channels ∈ {3, 4}` (rule R105). -/
def legalChannels (ch : Byte) : Bool := decide (ch = 3) || decide (ch = 4)

/-- `colorspace ∈ {0, 1}` (rule R105). -/
def legalColorspace (cs : Byte) : Bool := decide (cs = 0) || decide (cs = 1)

/-- The ceiling test `height < 400_000_000 div width`, integer floor division (rule R106, D4). -/
def belowCeiling (w h : Word32) : Bool := decide (h.toNat < pixelsMax / w.toNat)

/-- `valid_desc` of rule R107, the predicate both units use. -/
def validDesc (d : Desc) : Bool :=
  decide (d.width ≠ 0) && decide (d.height ≠ 0) && legalChannels d.channels && legalColorspace d.colorspace
    && belowCeiling d.width d.height

/-- `serialize(desc)` (rule R100): the 14 header bytes. -/
def serialize (d : Desc) : List Byte :=
  magic ++ be32bytes d.width ++ be32bytes d.height ++ [d.channels, d.colorspace]

/-- Why `parse` fails, in the order of its checks (rules R102 to R107). In DECODE all are MalformedStream. -/
inductive FormatError
  /-- Rule R102. -/
  | tooShort
  /-- Rule R103. -/
  | badMagic
  /-- Rule R104. -/
  | zeroDimension
  /-- Rule R105. -/
  | badTag
  /-- Rule R106. -/
  | overCeiling
  deriving DecidableEq, Repr

/-- The checks of rule R107 on the four fields, in its order. -/
def checkDesc (d : Desc) : Except FormatError Desc :=
  if d.width = 0 ∨ d.height = 0 then .error .zeroDimension
  else if !legalChannels d.channels || !legalColorspace d.colorspace then .error .badTag
  else if !belowCeiling d.width d.height then .error .overCeiling
  else .ok d

/-- `parse(B)` (rules R101 to R108): only the first 14 bytes are looked at. -/
def parse (bs : List Byte) : Except FormatError Desc :=
  match bs with
  | m0 :: m1 :: m2 :: m3 :: w0 :: w1 :: w2 :: w3 :: h0 :: h1 :: h2 :: h3 :: ch :: cs :: _ =>
    if [m0, m1, m2, m3] ≠ magic then .error .badMagic
    else checkDesc { width := be32 w0 w1 w2 w3, height := be32 h0 h1 h2 h3, channels := ch, colorspace := cs }
  | _ => .error .tooShort

/-- The framing of rules R53 and R70: the header, the ops, the end marker, with nothing between them. -/
def stream (d : Desc) (ops : List Instr) : List Byte := serialize d ++ ops.flatMap encode ++ endMarker

/-- A run of any length as the ops that say it (rule R87): RUN 62 as often as it fits, then the rest. -/
def runOps (n : Nat) : List Instr :=
  List.replicate (n / maxRun) (.run maxRun) ++ if n % maxRun = 0 then [] else [.run (n % maxRun)]

end Sys2Proof.Machine
end

