-- ==== Sys2Proof/Machine/Decoder.lean ====
section
/-! DEFINITION. The unit `lossless_image_decoder`: the DECODE command and all of its pixel step but the ops
themselves (rules R160 to R166, R174 to R178). -/

namespace Sys2Proof.Machine

/-- Where the pixel of a decoder step comes from (rule R164). -/
inductive PixelSource
  /-- A run goes on (rule R165). -/
  | runs
  /-- An op was fetched (rule R166). -/
  | op (i : Instr)
  /-- The op at `rd` reaches into the marker region under FAIL: none of its operand bytes is read (rules R51,
  R166). -/
  | truncated
  /-- No op is left before the marker region (rule R174). -/
  | exhausted
  deriving DecidableEq, Repr

/-- The first address that no op byte is read at: `end` under FAIL, `end + 4` under REFERENCE (rules R51, R166,
R178). -/
def opLimit (s : State) : Nat :=
  match s.cfg.truncation with
  | .fail => streamEnd s
  | .reference => streamEnd s + 4

/-- `MemRead(rd, n)` of op bytes. `none` when a byte of it lies outside IN or at `opLimit` or above, which rules R51
and R178 say never happens. -/
def readOpBytes (s : State) (n : Nat) : Option (List Byte) :=
  if s.rd + n ≤ opLimit s then s.inp.memRead s.rd n else none

/-- An op from its bytes, of which there are `oplen(b1)` (rule R166). -/
def decodeOp (bs : List Byte) : Host.Outcome PixelSource Fault Refusal :=
  match decode bs with
  | .ok (i, _) => .next (.op i)
  | .error _ => .fault .opBytesMissing

/-- The fetch of rule R166: the tag at `rd`; then the truncation test, by the op's length alone; only then the op's
own bytes. -/
def fetchOp (s : State) : Host.Outcome PixelSource Fault Refusal :=
  match readOpBytes s 1 with
  | some [b1] =>
    if truncated s (opLen b1) then .next .truncated
    else
      match readOpBytes s (opLen b1) with
      | some bs => decodeOp bs
      | none => .fault .readOutsideInput
  | _ => .fault .readOutsideInput

/-- The choice at the start of a pixel step (rule R164). -/
def pixelSource (s : State) : Host.Outcome PixelSource Fault Refusal :=
  if s.run ≠ 0 then .next .runs
  else if s.rd < streamEnd s then fetchOp s
  else .next .exhausted

/-- Run continuation (rule R165): `run <- run − 1`; nothing else. -/
def continueRun (s : State) : State := s.setRun (s.run - 1)

/-- Exhausted input (rule R174): MalformedStream under FAIL; under REFERENCE the step repeats `px`. -/
def exhausted (s : State) : State :=
  if s.cfg.truncation = .fail then s.raise .malformedStream else s

/-- The output write of rule R175: the pixel's bytes at `pos × channels`; the cursor is the next position's
address (rule R32). -/
def writePixel (s : State) : State :=
  { s with
    out := s.out.writeBytes (s.pos * s.desc.stride) (pixelBytes s.desc s.px)
    wr := s.pos * s.desc.stride + s.desc.stride }

/-- The three conditions of the end check (rule R176). -/
def endsCleanly (s : State) : Bool :=
  decide (s.rd = streamEnd s) && decide (s.run = 0) && decide (s.inp.memRead (streamEnd s) 8 = some endMarker)

/-- After step N−1 (rules R176, R177): the end check if STRICT_END, then RESULT. -/
def finishDecode (s : State) : State :=
  if s.cfg.strictEnd && !endsCleanly s then s.raise .malformedStream
  else s.finish { status := .ok, outLen := s.desc.pixels * s.desc.stride, desc := some s.desc }

/-- The end of every decoder step that has not failed (rules R164, R175): write the pixel, then the next position
or the end of the command. -/
def completePixel (s : State) : State :=
  let s1 := writePixel s
  if s1.pos + 1 < s1.desc.pixels then s1.advancePos else finishDecode s1

/-- Complete the step unless it failed: a raise has made the block idle and skips the rest (rule R224). -/
def completeUnlessRaised (s : State) : State := if s.phase = .decoding then completePixel s else s

/-- `completeUnlessRaised` after an op. -/
def afterOp : Host.Outcome State Fault Refusal → Host.Outcome State Fault Refusal
  | .next t => .next (completeUnlessRaised t)
  | .fault f => .fault f
  | .refused e => .refused e

/-- The start of DECODE once the header is parsed (rules R162, R163): the start values of rule R38. -/
def beginDecode (d : Desc) (r : Request) (s : State) : State :=
  { s with
    phase := .decoding, inp := r.inp, out := [], outCap := r.outCap, desc := d, px := Pixel.start, run := 0,
    decCache := Cache.start, pos := 0, rd := headerBytes, wr := 0 }

/-- DECODE begins (rules R160 to R163): the admitted length, the minimum length, the header, then (a host's duty,
D13) the room for the output. -/
def startDecode (r : Request) (s : State) : Host.Outcome State Fault Refusal :=
  if 2 ^ s.cfg.cursorBits - 1 < r.inp.len then .refused .inputTooLong
  else if r.inp.len < minStreamBytes then .next (s.raise .malformedStream)
  else
    match r.inp.memRead 0 headerBytes with
    | some bs =>
      match parse bs with
      | .ok d =>
        if r.outCap < d.pixels * d.stride then .refused .outputTooSmall else .next (beginDecode d r s)
      | .error _ => .next (s.raise .malformedStream)
    | none => .fault .readOutsideInput

/-- A DECODE in progress on a stream of one image of two pixels whose first op's bytes are given, at its first
pixel step: the header of the description (2, 1, 4, 0), the bytes, the end marker; `rd` at the first op, no
run, position 0. Every other element is left as it was. -/
def loadOp (s : State) (bs : List Byte) : State :=
  let d : Desc := { width := 2, height := 1, channels := 4, colorspace := 0 }
  { s with
    phase := .decoding, inp := Space.ofBytes (serialize d ++ bs ++ endMarker), outCap := d.pixels * d.stride,
    desc := d, run := 0, pos := 0, rd := headerBytes }

end Sys2Proof.Machine
end

