-- ==== Sys2Proof/Machine/Delta.lean ====
section
/-! DEFINITION. The delta ops: DIFF (rule R170) and LUMA (rule R171). -/

namespace Sys2Proof.Machine

/-- DIFF (rule R170): the three deltas modulo 256, alpha kept; `rd <- rd + 1`; then the cache write (rule
R173). One byte always fits, so no failure. -/
def execDiff (dr dg db : Int) (s : State) : Host.Outcome State Fault Refusal :=
  .next ((s.setPx (s.px.addDeltas dr dg db)).advanceRd 1).storePx

/-- LUMA (rule R171): the green delta, and red and blue deltas `dg − 8 + field`, which are `dg + dr_g` and
`dg + db_g` (rules R77, R81); `rd <- rd + 2`; then the cache write. MalformedStream if truncated (rule R166). -/
def execLuma (dg drg dbg : Int) (s : State) : Host.Outcome State Fault Refusal :=
  operandOp 2 (s.px.addDeltas (dg + drg) dg (dg + dbg)) s

end Sys2Proof.Machine
end

