-- ==== Sys2Proof/Machine/Index.lean ====
section
/-! DEFINITION. The cache-reference op: INDEX (rule R169). -/

namespace Sys2Proof.Machine

/-- INDEX (rule R169): `px <- cache[i]`, `rd <- rd + 1`. No cache write (rule R173). One byte always fits, so
no failure. -/
def execIndex (i : Fin 64) (s : State) : Host.Outcome State Fault Refusal :=
  .next ((s.setPx (cacheGet s.decCache i)).advanceRd 1)

end Sys2Proof.Machine
end

