-- ==== Sys2Proof/Machine/Literal.lean ====
section
/-! DEFINITION. The literal ops: RGB (rule R167) and RGBA (rule R168). -/

namespace Sys2Proof.Machine

/-- RGB (rule R167): r, g, b replaced, alpha kept; `rd <- rd + 4`; then the cache write. MalformedStream if
truncated (rule R166). -/
def execRgb (r g b : Byte) (s : State) : Host.Outcome State Fault Refusal :=
  operandOp 4 { r := r, g := g, b := b, a := s.px.a } s

/-- RGBA (rule R168): all four channels replaced, whatever `DESC.channels` is; `rd <- rd + 5`; then the cache
write. MalformedStream if truncated (rule R166). -/
def execRgba (r g b a : Byte) (s : State) : Host.Outcome State Fault Refusal :=
  operandOp 5 { r := r, g := g, b := b, a := a } s

end Sys2Proof.Machine
end

