-- ==== Sys2Proof/Machine/Run.lean ====
section
/-! DEFINITION. The run op: RUN (rule R172). -/

namespace Sys2Proof.Machine

/-- RUN of length n (rule R172): `run <-` the op's field, `n − 1` (rule R78); `px` unchanged; `rd <- rd + 1`;
then the cache write (rule R173). One byte always fits, so no failure. -/
def execRun (n : Nat) (s : State) : Host.Outcome State Fault Refusal :=
  .next ((s.setRun (BitVec.ofNat 6 (n - 1))).advanceRd 1).storePx

end Sys2Proof.Machine
end

