-- ==== Sys2Proof/Machine/Encoder.lean ====
section
/-! DEFINITION. The unit `lossless_image_encoder`: the ENCODE command, its pixel step and the op selection
(rules R120 to R138). -/

namespace Sys2Proof.Machine

/-- DIFF if its condition holds, else LUMA if its condition holds, else RGB (rules R131 to R133), for the deltas
`dr`, `dg`, `db` of rule R130. The cross-deltas are exact differences. -/
def chooseByDeltas (dr dg db : Int) (px : Pixel) : Instr :=
  if (Instr.diff dr dg db).wf then .diff dr dg db
  else if (Instr.luma dg (dr - dg) (db - dg)).wf then .luma dg (dr - dg) (db - dg)
  else .rgb px.r px.g px.b

/-- The literal encoding of a pixel that misses the cache (rules R130 to R134): by the signed wraparound deltas from
`prev` when alpha is unchanged, else RGBA. -/
def chooseOp (px prev : Pixel) : Instr :=
  if px.a = prev.a then
    chooseByDeltas (s8diff px.r prev.r) (s8diff px.g prev.g) (s8diff px.b prev.b) px
  else .rgba px.r px.g px.b px.a

/-- Emit one op's bytes at the output cursor (rules R82, R127 to R134). -/
def State.emitOp (s : State) (i : Instr) : State := s.emit (encode i)

/-- `emit_RUN(run); run <- 0` (rules R126 to R128). -/
def flushRun (s : State) : State := (s.emitOp (.run s.run.toNat)).setRun 0

/-- The pixel equals `prev` (rule R126): the run grows, and is flushed at 62 or at the last pixel. The cache is
not touched. -/
def extendRun (s : State) : State :=
  let s1 := s.setRun (s.run + 1)
  if s1.run.toNat = maxRun ∨ s1.pos + 1 = s1.desc.pixels then flushRun s1 else s1

/-- A pending run is flushed before a pixel that differs from `prev` (rule R128). -/
def flushPending (s : State) : State := if s.run = 0 then s else flushRun s

/-- The pixel differs from `prev` (rules R128 to R134): flush the pending run; INDEX on a hit, with the cache left
alone; on a miss store the pixel and emit its literal encoding. -/
def encodeNew (px : Pixel) (s : State) : State :=
  let s1 := flushPending s
  if cacheGet s1.encCache (hash px) = px then s1.emitOp (.index (hash px))
  else (s1.storeEnc px).emitOp (chooseOp px s1.prev)

/-- The effect of one pixel on the encoder (rule R124), with `prev <- px` at its end (rule R135). -/
def encodeOne (px : Pixel) (s : State) : State :=
  (if px = s.prev then extendRun s else encodeNew px s).setPrev px

/-- After step N−1 (rule R136): the end marker, then RESULT. RESULT.desc is valid only after a DECODE (rule
R33). -/
def finishEncode (s : State) : State :=
  let s1 := s.emit endMarker
  s1.finish { status := .ok, outLen := s1.wr, desc := none }

/-- The next pixel position, or the end of the command after the last one (rules R124, R136). -/
def encodeAdvance (s : State) : State :=
  if s.pos + 1 < s.desc.pixels then s.advancePos else finishEncode s

/-- One pixel step of ENCODE (rule R124). -/
def encodePixel (s : State) : Host.Outcome State Fault Refusal :=
  match readPixel s with
  | some px => .next (encodeAdvance (encodeOne px s))
  | none => .fault .readOutsideInput

/-- The largest output of an ENCODE (rules R137, R253). -/
def encodeBound (d : Desc) : Nat := 22 + d.pixels * (d.stride + 1)

/-- The start of ENCODE after validation (rule R123): the start values of rule R38, then the header. -/
def beginEncode (d : Desc) (r : Request) (s : State) : State :=
  State.emit
    { s with
      phase := .encoding, inp := r.inp, out := [], outCap := r.outCap, desc := d, prev := Pixel.start, run := 0,
      encCache := Cache.start, pos := 0, wr := 0 }
    (serialize d)

/-- ENCODE begins (rules R120 to R123): the description, then the buffer's length, then (a host's duty, D13) the
room for the output. -/
def startEncode (d : Desc) (r : Request) (s : State) : Host.Outcome State Fault Refusal :=
  if !validDesc d then .next (s.raise .invalidDescription)
  else if r.inp.len ≠ d.pixels * d.stride then .next (s.raise .invalidDescription)
  else if r.outCap < encodeBound d then .refused .outputTooSmall
  else .next (beginEncode d r s)

end Sys2Proof.Machine
end

