-- ==== Sys2Proof/Machine/Step.lean ====
section
/-! DEFINITION. One step of the block: the start of a command, or one pixel step of the command in progress
(rules R15, R124, R164, R235). -/

namespace Sys2Proof.Machine

/-- The block begins the host's oldest command, or stays idle when there is none (rules R226, R235). -/
def startNext (s : State) : Host.Outcome State Fault Refusal :=
  match s.requests with
  | [] => .next s
  | r :: rest =>
    match r.cmd with
    | .encode d => startEncode d r { s with requests := rest }
    | .decode => startDecode r { s with requests := rest }

/-- One pixel step of DECODE (rule R164): a run, an op, or exhausted input, then the output write; a truncated op ends
the command before it executes (rule R166). -/
def decodePixel (s : State) : Host.Outcome State Fault Refusal :=
  match pixelSource s with
  | .next .runs => .next (completeUnlessRaised (continueRun s))
  | .next (.op i) => afterOp (exec i s)
  | .next .truncated => .next (s.raise .malformedStream)
  | .next .exhausted => .next (completeUnlessRaised (exhausted s))
  | .fault f => .fault f
  | .refused e => .refused e

/-- One step of the block. -/
def step (s : State) : Host.Outcome State Fault Refusal :=
  match s.phase with
  | .idle => startNext s
  | .encoding => encodePixel s
  | .decoding => decodePixel s

/-- The state with a table word's op where the next step fetches it: a DECODE in progress whose first op's bytes
are the word's (log 17). -/
def State.withFetchWord (s : State) (nbits w : Nat) : State := loadOp s (tableBytes nbits w)

end Sys2Proof.Machine
end

