-- ==== Sys2Proof/Safety.lean ====
section
/-! DEFINITION. What a safe state and a safe run of the block are, in the terms the statements use: the
invariant `Inv`, the frame of an op, runs of several steps, and the host's view of a finished command. -/

namespace Sys2Proof.Machine

/-- `k` steps of the block, stopping at the first fault or refusal. -/
def runFor (k : Nat) (s : State) : Host.Outcome State Fault Refusal := Host.Core.run Sys2Proof.core k s

/-- The block is idle and the host has issued exactly one command. -/
def Asked (s : State) (r : Request) : Prop := s.phase = .idle ∧ s.requests = [r]

/-- What an op leaves alone, whatever it is: everything but `px`, `run`, `rd` and the decoder's cache. Every byte
of IN and of OUT reads as before. -/
structure OpFrame (s t : State) : Prop where
  cfg : t.cfg = s.cfg
  phase : t.phase = s.phase
  requests : t.requests = s.requests
  inp : t.inp = s.inp
  inpBytes : ∀ a, t.inp.cells.read a = s.inp.cells.read a
  outBytes : ∀ a, t.out.read a = s.out.read a
  outCap : t.outCap = s.outCap
  desc : t.desc = s.desc
  prev : t.prev = s.prev
  encCache : t.encCache = s.encCache
  pos : t.pos = s.pos
  wr : t.wr = s.wr
  result : t.result = s.result

/-- The decoder's cache after an op that writes it: the slot of the new `px` holds it, every other slot holds
what it held (rules R29, R173). -/
def StoredPx (s t : State) : Prop :=
  cacheGet t.decCache (hash t.px) = t.px ∧
    ∀ i, i ≠ hash t.px → cacheGet t.decCache i = cacheGet s.decCache i

/-- A channel after a delta: the integer sum modulo 256 (rules R170, R171). -/
def MovedBy (old new : Byte) (d : Int) : Prop := (new.toNat : Int) = ((old.toNat : Int) + d) % 256

/-- The op fits before the marker region, or REFERENCE is in force (rule R166). -/
def Fits (s : State) (n : Nat) : Prop := s.cfg.truncation = .reference ∨ s.rd + n ≤ streamEnd s

/-- A command has failed with a status (rule R224): idle, the code, no output, no description. -/
def Failed (t : State) (st : Status) : Prop :=
  t.phase = .idle ∧ t.result = some { status := st, outLen := 0, desc := none }

/-- The next step of the decoder fetches op `i`: no run is pending, op bytes are left, and the bytes at `rd` decode
to it (rule R166). -/
def Fetches (s : State) (i : Instr) : Prop :=
  s.phase = .decoding ∧ s.run = 0 ∧ s.rd < streamEnd s ∧
    ∃ rest, decode (s.inp.cells.readBytes s.rd (s.inp.len - s.rd)) = .ok (i, rest)

/-- The next step of the decoder raises no failure of rules R166 and R174: a run goes on, or REFERENCE is in force,
or the op at `rd` ends before the marker region. -/
def ReadsOn (s : State) : Prop :=
  s.run ≠ 0 ∨ s.cfg.truncation = .reference ∨ s.rd + opLen (s.inp.cells.read s.rd) ≤ streamEnd s

/-- The bytes written at the output cursor between two states, and no other byte (rule R13, `emit`). -/
def Emitted (s t : State) (bs : List Byte) : Prop :=
  t.wr = s.wr + bs.length ∧ t.out.readBytes s.wr bs.length = bs ∧
    ∀ a, a < s.wr ∨ s.wr + bs.length ≤ a → t.out.read a = s.out.read a

/-- How a pixel step of the encoder ends, and the bytes it ends with: the next position, or after the last pixel the
end marker and the result (rules R124, R136). -/
def EncodeEnds (s t : State) (tail : List Byte) : Prop :=
  if s.pos + 1 < s.desc.pixels then
    tail = [] ∧ t.phase = .encoding ∧ t.pos = s.pos + 1 ∧ t.result = s.result
  else
    tail = [0, 0, 0, 0, 0, 0, 0, 1] ∧ t.phase = .idle ∧ t.pos = s.pos ∧
      t.result = some { status := .ok, outLen := t.wr, desc := none }

/-- The RUN op a pending run is flushed with, if one is pending (rules R78, R128). -/
def pendingRun (s : State) : List Byte :=
  if s.run = 0 then [] else [BitVec.ofNat 8 (0xC0 + (s.run.toNat - 1))]

/-- What a pixel step of the encoder leaves alone: the parameters, the input, the description, the host's commands
and the decoder's registers. -/
structure EncodeFrame (s t : State) : Prop where
  cfg : t.cfg = s.cfg
  requests : t.requests = s.requests
  inp : t.inp = s.inp
  outCap : t.outCap = s.outCap
  desc : t.desc = s.desc
  px : t.px = s.px
  decCache : t.decCache = s.decCache
  rd : t.rd = s.rd

/-- What a pixel step of the decoder leaves alone: the parameters, the input, the description, the host's commands
and the encoder's registers. -/
structure DecodeFrame (s t : State) : Prop where
  cfg : t.cfg = s.cfg
  requests : t.requests = s.requests
  inp : t.inp = s.inp
  outCap : t.outCap = s.outCap
  desc : t.desc = s.desc
  prev : t.prev = s.prev
  encCache : t.encCache = s.encCache

/-- The state with another color-space tag in `DESC` (rule R22). -/
def State.withColorspace (s : State) (cs : Byte) : State :=
  { s with desc := { s.desc with colorspace := cs } }

/-- A cache slot holds its start value or a pixel that hashes to it (rule R169, corner cases). -/
def CacheWf (c : Cache) : Prop := ∀ i : Fin 64, cacheGet c i = Pixel.zero ∨ hash (cacheGet c i) = i

/-- What holds between the pixel steps of an ENCODE. -/
structure EncInv (s : State) : Prop where
  /-- A description outside the legal set is never held (rule R21). -/
  desc : validDesc s.desc = true
  /-- The buffer is exactly as long as the description says (rule R122). -/
  len : s.inp.len = s.desc.pixels * s.desc.stride
  /-- `pos` is in 0..N−1 (rule R30). -/
  pos : s.pos < s.desc.pixels
  /-- `run` is never 62 at the end of a pixel step (rule R26). -/
  run : s.run.toNat ≤ 61
  /-- The pending run lies behind the position. -/
  pending : s.run.toNat ≤ s.pos
  /-- With three channels alpha is 255 for every pixel (rule R125). -/
  alpha : s.desc.channels = 3 → s.prev.a = 255
  /-- The header is written (rule R123). -/
  header : 14 ≤ s.wr
  /-- The output bound of rule R137, at every step: the pixels before the pending run are covered. -/
  bound : s.wr ≤ 14 + (s.pos - s.run.toNat) * (s.desc.stride + 1)
  /-- The host's room for the output (rule R253). -/
  room : encodeBound s.desc ≤ s.outCap
  /-- Nothing is written at or after the output cursor (rule R32). -/
  out : ∀ c ∈ s.out, c.1 < s.wr

/-- What holds between the pixel steps of a DECODE. -/
structure DecInv (s : State) : Prop where
  /-- A description outside the legal set is never held (rule R21). -/
  desc : validDesc s.desc = true
  /-- The minimum length (rule R161). -/
  minLen : 22 ≤ s.inp.len
  /-- The admitted length (rule R160). -/
  maxLen : s.inp.len ≤ 2 ^ s.cfg.cursorBits - 1
  /-- `pos` is in 0..N−1 (rule R30). -/
  pos : s.pos < s.desc.pixels
  /-- `run` is in 0..61 (rule R27). -/
  run : s.run.toNat ≤ 61
  /-- `rd` starts after the header and never decreases (rule R31). -/
  rdLow : 14 ≤ s.rd
  /-- An op may reach at most four bytes into the marker region (rule R166). -/
  rdHigh : s.rd ≤ streamEnd s + 4
  /-- Under FAIL no op reaches into the marker region (rule R166). -/
  rdFail : s.cfg.truncation = .fail → s.rd ≤ streamEnd s
  /-- `wr = pos × channels` at the start of each pixel step (rule R32). -/
  wr : s.wr = s.pos * s.desc.stride
  /-- The host's room for the output (rule R253). -/
  room : s.desc.pixels * s.desc.stride ≤ s.outCap
  /-- Nothing is written at or after the output cursor (rule R175). -/
  out : ∀ c ∈ s.out, c.1 < s.wr

/-- What holds of a result (rules R33, R224): a failure has no output and no description; a description is a legal
one and its output has N × channels bytes; every length fits 32 bits (rule R32). -/
structure ResultInv (r : Result) : Prop where
  failed : r.status ≠ .ok → r.outLen = 0 ∧ r.desc = none
  desc : ∀ d, r.desc = some d → validDesc d = true ∧ r.outLen = d.pixels * d.stride
  fits : r.outLen < 2 ^ 31

/-- The invariant of the block: what holds after reset and after every step. -/
structure Inv (s : State) : Prop where
  /-- The parameters are ones rule R9 admits. -/
  cfg : s.cfg.wf = true
  /-- IN is in canonical form. -/
  inp : s.inp.wf = true
  /-- OUT is in canonical form. -/
  out : s.out.wf = true
  /-- So is the IN of every command the host has issued. -/
  requests : ∀ r ∈ s.requests, r.inp.wf = true
  /-- The encoder's cache. -/
  encCache : CacheWf s.encCache
  /-- The decoder's cache. -/
  decCache : CacheWf s.decCache
  /-- Between the pixel steps of an ENCODE. -/
  encoding : s.phase = .encoding → EncInv s
  /-- Between the pixel steps of a DECODE. -/
  decoding : s.phase = .decoding → DecInv s
  /-- The result of the last command. -/
  result : ∀ r, s.result = some r → ResultInv r
  /-- After a command with status OK, OUT holds nothing outside its output and the output fits its room. -/
  output : s.phase = .idle → ∀ r, s.result = some r → r.status = .ok →
    (∀ c ∈ s.out, c.1 < r.outLen) ∧ r.outLen ≤ s.outCap

end Sys2Proof.Machine
end

