-- ==== Sys2Proof/Certificates/Slice0/Obligations.lean ====
section
/-! DEFINITION. The statements about the block, for the provers. -/

open Sys2Proof Sys2Proof.Machine

/-! ### Encoding -/

/-- Decoding the bytes of a well-formed op, whatever follows them, gives the op back and what follows (rules R74 to
R82). -/
def Obligations.DecodeOfEncodeIsIdentity : Prop :=
  ∀ (i : Instr) (rest : List Byte), i.wf = true → decode (encode i ++ rest) = .ok (i, rest)

/-- Whatever decodes is the bytes of a well-formed op: no bit of an op's bytes is dropped (rules R74 to R83). -/
def Obligations.EncodeOfDecodeIsIdentity : Prop :=
  ∀ (bs : List Byte) (i : Instr) (rest : List Byte),
    decode bs = .ok (i, rest) → i.wf = true ∧ encode i ++ rest = bs

/-- Rule R74: the first byte alone selects the op and its length, by the rule's table. -/
def Obligations.FirstByteSelectsOpAndLength : Prop :=
  ∀ (b1 : Byte),
    opLen b1 = (if b1 = 0xFE then 4 else if b1 = 0xFF then 5
      else if 0x80 ≤ b1.toNat ∧ b1.toNat < 0xC0 then 2 else 1) ∧
    ∀ (rest : List Byte) (i : Instr) (tail : List Byte), decode (b1 :: rest) = .ok (i, tail) →
      i.length = opLen b1 ∧ tail = rest.drop (opLen b1 - 1) ∧
      (b1.toNat < 0x40 ↔ ∃ slot, i = .index slot) ∧
      (0x40 ≤ b1.toNat ∧ b1.toNat < 0x80 ↔ ∃ dr dg db, i = .diff dr dg db) ∧
      (0x80 ≤ b1.toNat ∧ b1.toNat < 0xC0 ↔ ∃ dg drg dbg, i = .luma dg drg dbg) ∧
      (0xC0 ≤ b1.toNat ∧ b1.toNat < 0xFE ↔ ∃ n, i = .run n) ∧
      (b1 = 0xFE ↔ ∃ r g b, i = .rgb r g b) ∧
      (b1 = 0xFF ↔ ∃ r g b a, i = .rgba r g b a)

/-- No first byte and no operand byte is rejected (rule R83): bytes decode exactly when there are as many as
`oplen` of the first one. -/
def Obligations.OnlyMissingBytesAreRejected : Prop :=
  ∀ (b1 : Byte) (rest : List Byte),
    (opLen b1 ≤ rest.length + 1 → ∃ i tail, decode (b1 :: rest) = .ok (i, tail)) ∧
    (rest.length + 1 < opLen b1 → decode (b1 :: rest) = .error .missingOperands)

/-- A few words written out from the formats of rules R75 to R80, and as the opcode table numbers them. -/
def Obligations.SampleWordsDecode : Prop :=
  decode [0x32] = .ok (.index 50, []) ∧
  decode [0x5A] = .ok (.diff (-1) 0 0, []) ∧
  decode [0xA5, 0xDF] = .ok (.luma 5 5 7, []) ∧
  decode [0xFD] = .ok (.run 62, []) ∧
  decode [0xFE, 0xC8, 0x64, 0x32] = .ok (.rgb 200 100 50, []) ∧
  decode [0xFF, 0x01, 0x02, 0x03, 0x04] = .ok (.rgba 1 2 3 4, []) ∧
  decodeTableWord 16 0xDFA5 = some (.luma 5 5 7) ∧
  decodeTableWord 40 0x04030201FF = some (.rgba 1 2 3 4)

/-! ### The ops: result, completion and frame of each -/

/-- Rule R169, INDEX: `px` becomes the slot the op names, `rd` moves by 1, the cache is not written, nothing else
changes; in every state. -/
def Obligations.IndexLoadsTheSlot : Prop :=
  ∀ (field : BitVec 6) (slot : Fin 64) (s : State), slot.val = field.toNat →
    decode [0b00#2 ++ field] = .ok (.index slot, []) ∧
    ∃ t, exec (.index slot) s = .next t ∧
      t.px = cacheGet s.decCache slot ∧ t.rd = s.rd + 1 ∧ t.run = s.run ∧ t.decCache = s.decCache ∧ OpFrame s t

/-- Rule R170, DIFF: the three biased fields move r, g, b modulo 256 and alpha is kept, `rd` moves by 1, the cache is
written, nothing else changes; in every state. That the sum wraps is the spec's own derivation (log 13), the places of
the fields its decision (log 12). -/
def Obligations.DiffAddsItsDeltas : Prop :=
  ∀ (r g b : BitVec 2) (s : State),
    decode [0b01#2 ++ r ++ g ++ b] =
      .ok (.diff ((r.toNat : Int) - 2) ((g.toNat : Int) - 2) ((b.toNat : Int) - 2), []) ∧
    ∃ t, exec (.diff ((r.toNat : Int) - 2) ((g.toNat : Int) - 2) ((b.toNat : Int) - 2)) s = .next t ∧
      MovedBy s.px.r t.px.r ((r.toNat : Int) - 2) ∧ MovedBy s.px.g t.px.g ((g.toNat : Int) - 2) ∧
      MovedBy s.px.b t.px.b ((b.toNat : Int) - 2) ∧ t.px.a = s.px.a ∧
      t.rd = s.rd + 1 ∧ t.run = s.run ∧ StoredPx s t ∧ OpFrame s t

/-- Rule R171, LUMA: the green delta moves g, and `dg − 8 + nibble` moves r and b, modulo 256; alpha is kept, `rd`
moves by 2, the cache is written, nothing else changes; in every state where the op is not truncated. Where it is, the
command fails. That the sum wraps is the spec's own derivation (log 13), the places of the fields its decision (log 12). -/
def Obligations.LumaAddsItsDeltas : Prop :=
  ∀ (g : BitVec 6) (x y : BitVec 4) (s : State),
    decode [0b10#2 ++ g, x ++ y] =
      .ok (.luma ((g.toNat : Int) - 32) ((x.toNat : Int) - 8) ((y.toNat : Int) - 8), []) ∧
    (Fits s 2 → ∃ t, exec (.luma ((g.toNat : Int) - 32) ((x.toNat : Int) - 8) ((y.toNat : Int) - 8)) s = .next t ∧
      MovedBy s.px.r t.px.r ((g.toNat : Int) - 32 - 8 + x.toNat) ∧ MovedBy s.px.g t.px.g ((g.toNat : Int) - 32) ∧
      MovedBy s.px.b t.px.b ((g.toNat : Int) - 32 - 8 + y.toNat) ∧ t.px.a = s.px.a ∧
      t.rd = s.rd + 2 ∧ t.run = s.run ∧ StoredPx s t ∧ OpFrame s t) ∧
    (¬Fits s 2 → ∃ t, exec (.luma ((g.toNat : Int) - 32) ((x.toNat : Int) - 8) ((y.toNat : Int) - 8)) s = .next t ∧
      Failed t .malformedStream)

/-- Rule R172, RUN: `run` becomes the op's field, `px` is unchanged, `rd` moves by 1, the cache is written with `px`,
nothing else changes; in every state. -/
def Obligations.RunStartsARun : Prop :=
  ∀ (field : BitVec 6) (s : State), field.toNat ≤ 61 →
    decode [0b11#2 ++ field] = .ok (.run (field.toNat + 1), []) ∧
    ∃ t, exec (.run (field.toNat + 1)) s = .next t ∧
      t.run = field ∧ t.px = s.px ∧ t.rd = s.rd + 1 ∧ StoredPx s t ∧ OpFrame s t

/-- Rule R167, RGB: r, g, b are replaced and alpha is kept, `rd` moves by 4, the cache is written, nothing else
changes; in every state where the op is not truncated. Where it is, the command fails. -/
def Obligations.RgbReplacesTheColors : Prop :=
  ∀ (r g b : Byte) (s : State),
    decode [0xFE, r, g, b] = .ok (.rgb r g b, []) ∧
    (Fits s 4 → ∃ t, exec (.rgb r g b) s = .next t ∧
      t.px.r = r ∧ t.px.g = g ∧ t.px.b = b ∧ t.px.a = s.px.a ∧
      t.rd = s.rd + 4 ∧ t.run = s.run ∧ StoredPx s t ∧ OpFrame s t) ∧
    (¬Fits s 4 → ∃ t, exec (.rgb r g b) s = .next t ∧ Failed t .malformedStream)

/-- Rule R168, RGBA: all four channels are replaced, whatever `DESC.channels` is, `rd` moves by 5, the cache is
written, nothing else changes; in every state where the op is not truncated. Where it is, the command fails. -/
def Obligations.RgbaReplacesThePixel : Prop :=
  ∀ (r g b a : Byte) (s : State),
    decode [0xFF, r, g, b, a] = .ok (.rgba r g b a, []) ∧
    (Fits s 5 → ∃ t, exec (.rgba r g b a) s = .next t ∧
      t.px.r = r ∧ t.px.g = g ∧ t.px.b = b ∧ t.px.a = a ∧
      t.rd = s.rd + 5 ∧ t.run = s.run ∧ StoredPx s t ∧ OpFrame s t) ∧
    (¬Fits s 5 → ∃ t, exec (.rgba r g b a) s = .next t ∧ Failed t .malformedStream)

/-- Rule R166: under FAIL an op whose bytes reach into the marker region ends the command with MalformedStream
before it executes. That the idle block then still holds what px, run, the cursors, the caches and OUT held is the
model's choice (log 6 and log 7): rule R224 leaves OUT unspecified after a failure, and rule R225 discards the rest. -/
def Obligations.TruncatedOpFailsBeforeItExecutes : Prop :=
  ∀ (i : Instr) (s : State), 1 < i.length → s.cfg.truncation = .fail → streamEnd s < s.rd + i.length →
    ∃ t, exec i s = .next t ∧ Failed t .malformedStream ∧
      t.px = s.px ∧ t.run = s.run ∧ t.rd = s.rd ∧ t.decCache = s.decCache ∧ t.pos = s.pos ∧ t.wr = s.wr ∧
      t.desc = s.desc ∧ t.prev = s.prev ∧ t.encCache = s.encCache ∧ t.cfg = s.cfg ∧ t.requests = s.requests ∧
      t.inp = s.inp ∧ t.outCap = s.outCap ∧ ∀ a, t.out.read a = s.out.read a

/-! ### The decoder's pixel step -/

/-- A step of the decoder whose bytes at `rd` decode to an op is that op's meaning and then, unless the op failed,
the end of the pixel step (rules R164, R166). That the last pixel's step also ends the command is the model's choice
(log 1). -/
def Obligations.StepRunsTheFetchedOp : Prop :=
  ∀ (s : State) (i : Instr), Fetches s i →
    ∀ t, exec i s = .next t → step s = .next (if t.phase = .decoding then completePixel t else t)

/-- The state with a table word placed fetches exactly the op the decoder reads from that word (the model's own
loading convention, log 17). -/
def Obligations.PlacedWordIsFetchedNext : Prop :=
  ∀ (s : State) (nbits w : Nat) (i : Instr),
    decodeTableWord nbits w = some i → Fetches (s.withFetchWord nbits w) i

/-- Rules R51, R83, R178: the decoder never reads outside IN, never reads an op byte at `end` or above under FAIL or at
`end + 4` or above under REFERENCE, and never meets an illegal op (the model faults on each): every one of its pixel
steps, in any state, answers a next state. -/
def Obligations.DecoderStepAlwaysAnswers : Prop :=
  ∀ s : State, s.phase = .decoding → ∃ t, step s = .next t

/-- Rule R165: while `run > 0` a step decrements it; `px`, `rd` and the cache stay. No byte is read: with any other IN the
step outputs the same. -/
def Obligations.RunContinuationConsumesNothing : Prop :=
  ∀ s : State, s.phase = .decoding → s.run ≠ 0 →
    ∃ t, step s = .next t ∧ t.run.toNat + 1 = s.run.toNat ∧ t.px = s.px ∧ t.rd = s.rd ∧ t.decCache = s.decCache ∧
      DecodeFrame s t ∧
      ∀ other : Space, ∃ u, step { s with inp := other } = .next u ∧
        u.px = t.px ∧ u.run = t.run ∧ u.rd = t.rd ∧ u.decCache = t.decCache ∧ u.out = t.out ∧ u.pos = t.pos

/-- Rule R174: with `run = 0` and no op left, FAIL ends the command with MalformedStream, and REFERENCE outputs `px`, keeps
`px`, `rd` and the cache and goes on to the next position (or to the end check after the last one). No byte is read before
that: with other bytes in IN the step outputs the same. That px, rd, the cache, OUT and the frame also stay in the idle
block after the failure under FAIL is the model's choice (log 6 and log 7; rule R225 discards them). -/
def Obligations.ExhaustedInputFollowsThePolicy : Prop :=
  ∀ s : State, s.phase = .decoding → s.run = 0 → streamEnd s ≤ s.rd →
    ∃ t, step s = .next t ∧ t.px = s.px ∧ t.rd = s.rd ∧ t.decCache = s.decCache ∧ DecodeFrame s t ∧
      (s.cfg.truncation = .fail → Failed t .malformedStream) ∧
      (s.cfg.truncation = .reference → s.out.wf = true → s.desc.channels = 3 ∨ s.desc.channels = 4 →
        (s.pos + 1 < s.desc.pixels → t.phase = .decoding ∧ t.pos = s.pos + 1) ∧
        t.out.readBytes (s.pos * s.desc.stride) 3 = [s.px.r, s.px.g, s.px.b] ∧
        (s.desc.channels = 4 → t.out.read (s.pos * s.desc.stride + 3) = s.px.a)) ∧
      ∀ other : Memory, ∃ u, step { s with inp := { s.inp with cells := other } } = .next u ∧
        u.px = t.px ∧ u.run = t.run ∧ u.rd = t.rd ∧ u.decCache = t.decCache ∧ u.out = t.out ∧ u.pos = t.pos

/-- Rule R173: after every op but INDEX the slot of the new `px` holds it and no other slot changes; after INDEX, in
a run continuation and in an exhausted step no slot changes. -/
def Obligations.CacheIsWrittenAfterEveryOpButIndex : Prop :=
  ∀ s t : State, s.phase = .decoding → step s = .next t →
    (s.run ≠ 0 → t.decCache = s.decCache) ∧
    (s.run = 0 → streamEnd s ≤ s.rd → t.decCache = s.decCache) ∧
    ∀ i, Fetches s i →
      ((∃ slot, i = .index slot) → t.decCache = s.decCache) ∧
      ((∀ slot, i ≠ .index slot) → Fits s i.length → StoredPx s t)

/-- Rule R175: every decoder step that has not failed writes the channels of `px` at `pos × channels`, alpha only
when channels = 4, and changes no other byte of OUT. -/
def Obligations.DecoderWritesThePixel : Prop :=
  ∀ s t : State, s.phase = .decoding → s.out.wf = true → s.desc.channels = 3 ∨ s.desc.channels = 4 →
    step s = .next t → (t.phase = .decoding ∨ ∃ r, t.result = some r ∧ r.status = .ok) →
    t.out.read (s.pos * s.desc.stride) = t.px.r ∧
    t.out.read (s.pos * s.desc.stride + 1) = t.px.g ∧
    t.out.read (s.pos * s.desc.stride + 2) = t.px.b ∧
    (s.desc.channels = 4 → t.out.read (s.pos * s.desc.stride + 3) = t.px.a) ∧
    (∀ a, a < s.pos * s.desc.stride ∨ s.pos * s.desc.stride + s.desc.stride ≤ a → t.out.read a = s.out.read a)

/-- Rules R176, R177: after the last pixel, STRICT_END decides between success and MalformedStream by the rule's three
conditions; without it the command succeeds. Success delivers the description, N × channels and OUT. -/
def Obligations.EndCheckDecidesTheResult : Prop :=
  ∀ s t : State, s.phase = .decoding → 22 ≤ s.inp.len → s.pos + 1 = s.desc.pixels → ReadsOn s → step s = .next t →
    t.phase = .idle ∧
    (s.cfg.strictEnd = true →
      ¬(t.rd = s.inp.len - 8 ∧ t.run = 0 ∧
        s.inp.cells.readBytes (s.inp.len - 8) 8 = [0, 0, 0, 0, 0, 0, 0, 1]) →
      Failed t .malformedStream) ∧
    (s.cfg.strictEnd = false ∨
        (t.rd = s.inp.len - 8 ∧ t.run = 0 ∧
          s.inp.cells.readBytes (s.inp.len - 8) 8 = [0, 0, 0, 0, 0, 0, 0, 1]) →
      t.result = some { status := .ok, outLen := s.desc.pixels * s.desc.stride, desc := some s.desc } ∧
      hostReadDesc t = .next s.desc ∧
      ∀ a, a < s.desc.pixels * s.desc.stride → hostReadOut t a = .next (t.out.read a))

/-! ### The start of DECODE and the header codec -/

/-- Rules R160 to R162: a DECODE input that is too long is refused, one shorter than 22 bytes or with a header that
`parse` rejects ends in MalformedStream. -/
def Obligations.DecodeRejectsBadInput : Prop :=
  ∀ (s : State) (r : Request) (rest : List Request), s.phase = .idle → s.requests = r :: rest → r.cmd = .decode →
    (2 ^ s.cfg.cursorBits - 1 < r.inp.len → step s = .refused .inputTooLong) ∧
    (r.inp.len ≤ 2 ^ s.cfg.cursorBits - 1 →
      r.inp.len < 22 ∨ (∃ e, parse (r.inp.cells.readBytes 0 14) = .error e) →
      ∃ t, step s = .next t ∧ Failed t .malformedStream ∧ t.requests = rest)

/-- Rule R163: a DECODE whose header parses starts with the start values, `rd` at 14 and the parsed description, given
the host's room for the output (rule R253). -/
def Obligations.DecodeStartsFresh : Prop :=
  ∀ (s : State) (r : Request) (rest : List Request) (d : Desc), s.phase = .idle → s.requests = r :: rest →
    r.cmd = .decode → 22 ≤ r.inp.len → r.inp.len ≤ 2 ^ s.cfg.cursorBits - 1 →
    parse (r.inp.cells.readBytes 0 14) = .ok d → d.pixels * d.stride ≤ r.outCap →
    ∃ t, step s = .next t ∧ t.phase = .decoding ∧ t.desc = d ∧ t.inp = r.inp ∧
      t.px = { r := 0, g := 0, b := 0, a := 255 } ∧ t.run = 0 ∧
      (∀ i, cacheGet t.decCache i = { r := 0, g := 0, b := 0, a := 0 }) ∧ t.rd = 14 ∧ t.pos = 0 ∧ t.wr = 0 ∧
      streamEnd t = r.inp.len - 8 ∧ t.requests = rest ∧ t.cfg = s.cfg ∧ t.prev = s.prev ∧ t.encCache = s.encCache ∧
      t.result = s.result

/-- Rules R102 to R107: `parse` accepts exactly the byte lists with 14 bytes, the magic, and big-endian fields that
satisfy the listed conditions, and answers those fields. -/
def Obligations.ParseAcceptsExactlyValidHeaders : Prop :=
  ∀ (bs : List Byte) (d : Desc), parse bs = .ok d ↔
    14 ≤ bs.length ∧ bs.take 4 = [0x71, 0x6F, 0x69, 0x66] ∧
    d.width.toNat = (bs.getD 4 0).toNat * 2 ^ 24 + (bs.getD 5 0).toNat * 2 ^ 16 + (bs.getD 6 0).toNat * 2 ^ 8 +
      (bs.getD 7 0).toNat ∧
    d.height.toNat = (bs.getD 8 0).toNat * 2 ^ 24 + (bs.getD 9 0).toNat * 2 ^ 16 + (bs.getD 10 0).toNat * 2 ^ 8 +
      (bs.getD 11 0).toNat ∧
    d.channels = bs.getD 12 0 ∧ d.colorspace = bs.getD 13 0 ∧
    d.width ≠ 0 ∧ d.height ≠ 0 ∧ (d.channels = 3 ∨ d.channels = 4) ∧ (d.colorspace = 0 ∨ d.colorspace = 1) ∧
    d.height.toNat < 400000000 / d.width.toNat

/-- Rule R109: parsing a serialized valid description gives it back, and serializing a parsed one gives the 14 bytes
back. -/
def Obligations.HeaderCodecRoundTrip : Prop :=
  (∀ d : Desc, validDesc d = true → parse (serialize d) = .ok d) ∧
  (∀ (bs : List Byte) (d : Desc), parse bs = .ok d → serialize d = bs.take 14)

/-- The bounds rule R106 derives for every description that passes. -/
def Obligations.ValidDescriptionsAreBounded : Prop :=
  ∀ d : Desc, validDesc d = true →
    d.pixels < 400000000 ∧ 0 < d.pixels ∧ d.width.toNat ≤ 200000000 ∧ 22 + d.pixels * (d.stride + 1) < 2 ^ 31

/-! ### ENCODE -/

/-- Rules R121, R122, R222: ENCODE fails with InvalidDescription in each of the listed cases, before any byte is written;
otherwise, with the room rule R253 asks for, it begins. -/
def Obligations.EncodeRejectsExactlyTheListedCases : Prop :=
  ∀ (s : State) (r : Request) (rest : List Request) (d : Desc), s.phase = .idle → s.requests = r :: rest →
    r.cmd = .encode d →
    let listed := d.width = 0 ∨ d.height = 0 ∨ ¬(d.channels = 3 ∨ d.channels = 4) ∨
      ¬(d.colorspace = 0 ∨ d.colorspace = 1) ∨ 400000000 / d.width.toNat ≤ d.height.toNat ∨
      r.inp.len ≠ d.width.toNat * d.height.toNat * d.channels.toNat
    (listed → ∃ t, step s = .next t ∧ Failed t .invalidDescription ∧ t.requests = rest ∧ t.wr = s.wr ∧ t.out = s.out) ∧
    (¬listed → 22 + d.width.toNat * d.height.toNat * (d.channels.toNat + 1) ≤ r.outCap →
      ∃ t, step s = .next t ∧ t.phase = .encoding ∧ t.requests = rest)

/-- Rule R123: an ENCODE that passes validation starts with the start values and the 14 header bytes in OUT. That `prev`
starts at (0,0,0,255) is the spec's own derivation (R24, log 13). -/
def Obligations.EncodeStartsFresh : Prop :=
  ∀ (s : State) (r : Request) (rest : List Request) (d : Desc), s.phase = .idle → s.requests = r :: rest →
    r.cmd = .encode d → validDesc d = true → r.inp.len = d.pixels * d.stride → encodeBound d ≤ r.outCap →
    ∃ t, step s = .next t ∧ t.phase = .encoding ∧ t.desc = d ∧ t.inp = r.inp ∧
      (∀ i, cacheGet t.encCache i = { r := 0, g := 0, b := 0, a := 0 }) ∧
      t.prev = { r := 0, g := 0, b := 0, a := 255 } ∧ t.run = 0 ∧ t.pos = 0 ∧ t.wr = 14 ∧
      t.out.readBytes 0 14 =
        [0x71, 0x6F, 0x69, 0x66] ++ be32bytes d.width ++ be32bytes d.height ++ [d.channels, d.colorspace] ∧
      t.requests = rest ∧ t.cfg = s.cfg ∧ t.px = s.px ∧ t.decCache = s.decCache ∧ t.rd = s.rd ∧ t.result = s.result

/-- Rule R253 (D13): a command that passes its checks but whose OUT is smaller than the rule's bound has no meaning, and
is refused by name: the refusal is the model's choice (log 10). -/
def Obligations.LaunchWithoutRoomIsRefused : Prop :=
  (∀ (s : State) (r : Request) (rest : List Request) (d : Desc), s.phase = .idle → s.requests = r :: rest →
    r.cmd = .encode d → validDesc d = true → r.inp.len = d.pixels * d.stride →
    r.outCap < 22 + d.pixels * (d.stride + 1) → step s = .refused .outputTooSmall) ∧
  (∀ (s : State) (r : Request) (rest : List Request) (d : Desc), s.phase = .idle → s.requests = r :: rest →
    r.cmd = .decode → 22 ≤ r.inp.len → r.inp.len ≤ 2 ^ s.cfg.cursorBits - 1 →
    parse (r.inp.cells.readBytes 0 14) = .ok d → r.outCap < d.pixels * d.stride →
    step s = .refused .outputTooSmall)

/-- Rules R52, R125: the encoder's pixel is the bytes at `pos × channels` in the order R, G, B, A, with alpha 255 when
channels = 3. -/
def Obligations.EncoderReadsThePixel : Prop :=
  ∀ s : State, s.desc.channels = 3 ∨ s.desc.channels = 4 →
    s.pos * s.desc.stride + s.desc.stride ≤ s.inp.len →
    readPixel s = some
      { r := s.inp.cells.read (s.pos * s.desc.channels.toNat)
        g := s.inp.cells.read (s.pos * s.desc.channels.toNat + 1)
        b := s.inp.cells.read (s.pos * s.desc.channels.toNat + 2)
        a := if s.desc.channels = 4 then s.inp.cells.read (s.pos * s.desc.channels.toNat + 3) else 255 }

/-- Rules R126, R127: a pixel equal to `prev` grows the run; at 62 or at the last pixel the run is emitted as one RUN
op and cleared; the cache is not touched. -/
def Obligations.EqualPixelExtendsTheRun : Prop :=
  ∀ (s : State) (px : Pixel), s.phase = .encoding → readPixel s = some px → px = s.prev → s.run.toNat ≤ 61 →
    s.out.wf = true →
    ∃ t tail, step s = .next t ∧ t.encCache = s.encCache ∧ t.prev = px ∧ EncodeFrame s t ∧ EncodeEnds s t tail ∧
      (s.run.toNat + 1 = 62 ∨ s.pos + 1 = s.desc.pixels →
        t.run = 0 ∧ Emitted s t ([BitVec.ofNat 8 (0xC0 + s.run.toNat)] ++ tail)) ∧
      (¬(s.run.toNat + 1 = 62 ∨ s.pos + 1 = s.desc.pixels) →
        t.run.toNat = s.run.toNat + 1 ∧ Emitted s t tail)

/-- Rule R128: a pixel that differs from `prev` flushes the pending run; when its slot already holds it, INDEX with its
own hash is emitted and the cache is not written. -/
def Obligations.CacheHitEmitsIndex : Prop :=
  ∀ (s : State) (px : Pixel), s.phase = .encoding → readPixel s = some px → px ≠ s.prev →
    cacheGet s.encCache (hash px) = px → s.out.wf = true →
    ∃ t tail, step s = .next t ∧ t.encCache = s.encCache ∧ t.prev = px ∧ t.run = 0 ∧ EncodeFrame s t ∧
      EncodeEnds s t tail ∧ Emitted s t (pendingRun s ++ [BitVec.ofNat 8 (hash px).val] ++ tail)

/-- Rules R128, R129, R135: a pixel that differs from `prev` and misses the cache flushes the pending run, is stored in
its slot and in no other, and is emitted as its literal encoding. -/
def Obligations.CacheMissStoresAndEmits : Prop :=
  ∀ (s : State) (px : Pixel), s.phase = .encoding → readPixel s = some px → px ≠ s.prev →
    cacheGet s.encCache (hash px) ≠ px → s.out.wf = true →
    ∃ t tail, step s = .next t ∧ cacheGet t.encCache (hash px) = px ∧
      (∀ i, i ≠ hash px → cacheGet t.encCache i = cacheGet s.encCache i) ∧ t.prev = px ∧ t.run = 0 ∧
      EncodeFrame s t ∧ EncodeEnds s t tail ∧ Emitted s t (pendingRun s ++ encode (chooseOp px s.prev) ++ tail)

/-- Rules R129, R135: a pixel step of the encoder writes the cache only for a pixel that differs from `prev` and misses its
slot, and then that slot only; `prev` becomes the pixel on every path. -/
def Obligations.EncoderWritesItsCacheOnlyOnAMiss : Prop :=
  ∀ (s t : State) (px : Pixel), s.phase = .encoding → readPixel s = some px → step s = .next t →
    t.prev = px ∧
    (px ≠ s.prev → cacheGet s.encCache (hash px) ≠ px →
      cacheGet t.encCache (hash px) = px ∧ ∀ i, i ≠ hash px → cacheGet t.encCache i = cacheGet s.encCache i) ∧
    (px = s.prev ∨ cacheGet s.encCache (hash px) = px → t.encCache = s.encCache)

/-- Rules R130 to R134: which literal encoding is chosen, by the signed differences modulo 256. -/
def Obligations.LiteralChoiceFollowsTheDeltas : Prop :=
  ∀ px prev : Pixel,
    (px.a ≠ prev.a → chooseOp px prev = .rgba px.r px.g px.b px.a) ∧
    (px.a = prev.a → ∀ dr dg db : Int,
      -128 ≤ dr ∧ dr ≤ 127 → -128 ≤ dg ∧ dg ≤ 127 → -128 ≤ db ∧ db ≤ 127 →
      MovedBy prev.r px.r dr → MovedBy prev.g px.g dg → MovedBy prev.b px.b db →
      let small := (-2 ≤ dr ∧ dr ≤ 1) ∧ (-2 ≤ dg ∧ dg ≤ 1) ∧ (-2 ≤ db ∧ db ≤ 1)
      let luma := (-32 ≤ dg ∧ dg ≤ 31) ∧ (-8 ≤ dr - dg ∧ dr - dg ≤ 7) ∧ (-8 ≤ db - dg ∧ db - dg ≤ 7)
      (small → chooseOp px prev = .diff dr dg db) ∧
      (¬small → luma → chooseOp px prev = .luma dg (dr - dg) (db - dg)) ∧
      (¬small → ¬luma → chooseOp px prev = .rgb px.r px.g px.b))

/-- The cross-deltas of rule R130 need no wrapping: with the green delta in range, the exact difference is in [−8, 7]
exactly when its 8-bit wrapped value is. -/
def Obligations.CrossDeltaWrappingDoesNotMatter : Prop :=
  ∀ a b c d : Byte, -32 ≤ s8diff c d → s8diff c d ≤ 31 →
    ((-8 ≤ s8diff a b - s8diff c d ∧ s8diff a b - s8diff c d ≤ 7) ↔
      (-8 ≤ sext8 (wrap8 (s8diff a b - s8diff c d)) ∧ sext8 (wrap8 (s8diff a b - s8diff c d)) ≤ 7))

/-- Every op the encoder chooses is well formed, so its bytes say it, and it fits `channels + 1` bytes when alpha only
changes with four channels (rules R82, R134, R137). -/
def Obligations.ChosenOpIsWellFormedAndShort : Prop :=
  ∀ px prev : Pixel,
    (chooseOp px prev).wf = true ∧ (encode (chooseOp px prev)).length = (chooseOp px prev).length ∧
      (chooseOp px prev).length ≤ (if px.a = prev.a then 4 else 5)

/-- The decoder undoes the encoder's choice, op by op: with `prev` in `px`, the chosen op gives the pixel back (rules
R130 to R134 and R167 to R171). -/
def Obligations.ChosenOpReproducesThePixel : Prop :=
  ∀ (px : Pixel) (s : State), Fits s (chooseOp px s.px).length →
    ∃ t, exec (chooseOp px s.px) s = .next t ∧ t.px = px ∧ t.rd = s.rd + (chooseOp px s.px).length ∧ StoredPx s t

/-- Two steps in a row never emit INDEX of the same slot (rule R128): after a step that hits the cache, a pixel that
hits it again has another slot. -/
def Obligations.IndexIsNeverRepeated : Prop :=
  ∀ (s t : State) (px qx : Pixel), s.phase = .encoding → readPixel s = some px → px ≠ s.prev →
    cacheGet s.encCache (hash px) = px → step s = .next t → t.phase = .encoding → readPixel t = some qx →
    qx ≠ t.prev → cacheGet t.encCache (hash qx) = qx → hash qx ≠ hash px

/-! ### The hash -/

/-- Rules R200, R201: the slot is the weighted sum modulo 64; the sum fits 13 bits; only the low six bits of each channel
matter. -/
def Obligations.HashIsTheWeightedSumModulo64 : Prop :=
  ∀ p : Pixel,
    (hash p).val = (p.r.toNat * 3 + p.g.toNat * 5 + p.b.toNat * 7 + p.a.toNat * 11) % 64 ∧
    p.r.toNat * 3 + p.g.toNat * 5 + p.b.toNat * 7 + p.a.toNat * 11 < 2 ^ 13 ∧
    (hash p).val =
      (3 * (p.r.toNat % 64) + 5 * (p.g.toNat % 64) + 7 * (p.b.toNat % 64) + 11 * (p.a.toNat % 64)) % 64

/-! ### Results, failures, reset, the host -/

/-- Rule R220: a pixel step of ENCODE never fails; a DECODE fails only with MalformedStream and an ENCODE only with
InvalidDescription; a failure has no output and no description. -/
def Obligations.EachCommandHasItsOwnFailure : Prop :=
  ∀ (s t : State) (r : Result), step s = .next t → t.result = some r → t.result ≠ s.result →
    (s.phase = .encoding → r.status = .ok ∧ r.desc = none) ∧
    (s.phase = .decoding → r.status ≠ .invalidDescription) ∧
    (s.phase = .idle → ∀ q rest, s.requests = q :: rest →
      ((∃ d, q.cmd = .encode d) → r.status = .invalidDescription) ∧ (q.cmd = .decode → r.status = .malformedStream)) ∧
    (r.status ≠ .ok → Failed t r.status)

/-- Rules R33, R224: before the first result, while a command runs and after a failure the host's reads are refused;
after a failure the status and a zero length are what it reads. That the reads during a command, and those of a missing
result, description or output, are refused, each by its name, is the model's choice (log 5 and log 6). -/
def Obligations.HostReadsAreRefusedWithoutAResult : Prop :=
  (∀ s : State, s.result = none → s.phase = .idle → hostReadResult s = .refused .resultUnavailable) ∧
  (∀ s : State, s.phase ≠ .idle → hostReadResult s = .refused .commandRunning) ∧
  (∀ (s : State) (a : Nat), s.phase ≠ .idle → hostReadOut s a = .refused .commandRunning) ∧
  (∀ (s : State) (st : Status) (a : Nat), st ≠ .ok →
    hostReadResult (s.raise st) = .next { status := st, outLen := 0, desc := none } ∧
    hostReadOut (s.raise st) a = .refused .outputUnavailable ∧
    hostReadDesc (s.raise st) = .refused .descUnavailable)

/-- Rule R250: after reset the block is idle and RESULT holds no value. That prev, px, run, pos, rd, wr and both caches
hold R38's start-of-command values is the model's choice (log 4): rule R250 leaves them unspecified while idle. (The zeros
in DESC are log 4's too, and are not stated.) -/
def Obligations.ResetLeavesTheStartValues : Prop :=
  State.reset.phase = .idle ∧ State.reset.result = none ∧
  State.reset.prev = { r := 0, g := 0, b := 0, a := 255 } ∧ State.reset.px = { r := 0, g := 0, b := 0, a := 255 } ∧
  State.reset.run = 0 ∧ State.reset.pos = 0 ∧ State.reset.rd = 14 ∧ State.reset.wr = 0 ∧
  (∀ i, cacheGet State.reset.encCache i = { r := 0, g := 0, b := 0, a := 0 } ∧
    cacheGet State.reset.decCache i = { r := 0, g := 0, b := 0, a := 0 })

/-- Rule R251: a hardware reset at any time leaves the block idle with no result to read, and keeps the invariant (what
it leaves in the host's buffers is the model's choice, log 18). -/
def Obligations.HardwareResetAbandonsTheCommand : Prop :=
  ∀ s : State, Inv s →
    s.hardwareReset.phase = .idle ∧ hostReadResult s.hardwareReset = .refused .resultUnavailable ∧
      Inv s.hardwareReset

/-- What the host hands over arrives (rule R50): the space built from a list of bytes is in canonical form, is as long
as the list and reads as it. -/
def Obligations.HandedOverBytesReadBack : Prop :=
  ∀ bs : List Byte, (Space.ofBytes bs).wf = true ∧ (Space.ofBytes bs).len = bs.length ∧
    (Space.ofBytes bs).toBytes = bs

/-! ### Invariants -/

/-- The invariant holds after reset. -/
def Obligations.ResetSatisfiesTheInvariant : Prop := Inv State.reset

/-- Every step keeps the invariant: legal description, cursors in range, output bound of rule R137 at every step, wr =
pos × channels, canonical memories, cache slots that hold what hashes to them, results of the legal shape. -/
def Obligations.StepKeepsTheInvariant : Prop :=
  ∀ s t : State, Inv s → step s = .next t → Inv t

/-- Rule R51: no rule reads outside IN: from the invariant no step ends in a fault. -/
def Obligations.NoStepReadsOutsideTheInput : Prop :=
  ∀ (s : State) (f : Fault), Inv s → step s ≠ .fault f

/-- Every memory the step touches keeps its canonical form, in any state. -/
def Obligations.StepKeepsMemoryCanonical : Prop :=
  ∀ s t : State, s.out.wf = true → s.inp.wf = true → (∀ r ∈ s.requests, r.inp.wf = true) → step s = .next t →
    t.out.wf = true ∧ t.inp.wf = true ∧ ∀ r ∈ t.requests, r.inp.wf = true

/-- Rule R169, corner cases: every cache slot holds a pixel that hashes to it, or its start value; every step keeps it,
in any state. -/
def Obligations.StepKeepsCacheSlotsHashed : Prop :=
  ∀ s t : State, CacheWf s.encCache → CacheWf s.decCache → step s = .next t →
    CacheWf t.encCache ∧ CacheWf t.decCache

/-- Rules R30 to R32: while a command runs, its cursors fit CURSOR_BITS bits (and so never wrap) and the output cursor
never passes the room the host gave. -/
def Obligations.CursorsFitTheirWidth : Prop :=
  ∀ s : State, Inv s → s.phase ≠ .idle →
    s.pos < 2 ^ 29 ∧ s.wr < 2 ^ 31 ∧ s.wr ≤ s.outCap ∧ s.pos < 2 ^ s.cfg.cursorBits ∧
    s.wr < 2 ^ s.cfg.cursorBits ∧ (s.phase = .decoding → s.rd < s.inp.len ∧ s.rd < 2 ^ s.cfg.cursorBits)

/-- No step writes the parameters (rule R9), the input of a running command (rules R62, R64) or its description (rule
R21). That an idle step takes the oldest command from the list of those issued is the model's choice about its own list
(log 3). -/
def Obligations.StepLeavesParametersAndInputAlone : Prop :=
  ∀ s t : State, step s = .next t →
    t.cfg = s.cfg ∧
    (s.phase ≠ .idle → t.inp = s.inp ∧ t.desc = s.desc ∧ t.outCap = s.outCap ∧ t.requests = s.requests) ∧
    (s.phase = .idle → t.requests = s.requests.drop 1)

/-- Rule R22: no pixel step reads the color-space tag: with another tag the same step is taken, and the tag shows only
in the description a DECODE delivers. -/
def Obligations.ColorspaceIsNeverRead : Prop :=
  ∀ (s t : State) (cs : Byte), s.phase ≠ .idle → step s = .next t →
    ∃ u, step (s.withColorspace cs) = .next u ∧
      (s.phase = .encoding ∨ t.phase = .decoding → u = t.withColorspace cs) ∧
      u.out = t.out ∧ u.px = t.px ∧ u.rd = t.rd ∧ u.run = t.run ∧ u.wr = t.wr ∧
      u.result.map Result.status = t.result.map Result.status ∧
      u.result.map Result.outLen = t.result.map Result.outLen

/-! ### Headlines -/

/-- Rule R257: every command terminates. A running command that meets the invariant ends, with a result, within as many
steps as pixels remain; an ENCODE in exactly that many. -/
def Obligations.EveryCommandTerminates : Prop :=
  ∀ s : State, Inv s → s.phase ≠ .idle →
    ∃ k t, 1 ≤ k ∧ k ≤ s.desc.pixels - s.pos ∧ (s.phase = .encoding → k = s.desc.pixels - s.pos) ∧
      runFor k s = .next t ∧ t.phase = .idle ∧ t.result ≠ none

/-- Rules R70, R136, R137: an ENCODE that passes validation succeeds after one start step and N pixel steps; its output is
the header, a non-empty list of well-formed ops, and the end marker, within the bound of rule R137. -/
def Obligations.EncodeWritesAWellFormedStream : Prop :=
  ∀ (s : State) (d : Desc) (inp : Space) (cap : Nat), Asked s { cmd := .encode d, inp := inp, outCap := cap } →
    validDesc d = true → inp.len = d.pixels * d.stride → encodeBound d ≤ cap →
    ∃ t ops, runFor (d.pixels + 1) s = .next t ∧ t.phase = .idle ∧ ops ≠ [] ∧ (∀ i ∈ ops, i.wf = true) ∧
      t.result = some { status := .ok, outLen := (stream d ops).length, desc := none } ∧
      t.out.readBytes 0 (stream d ops).length = stream d ops ∧
      (stream d ops).length ≤ 14 + d.pixels * (d.stride + 1) + 8

/-- Rule R179, the round trip: what ENCODE writes for a valid description and buffer, DECODE turns back into exactly that
buffer and description, under every setting of the parameters. -/
def Obligations.DecodeOfEncodeIsLossless : Prop :=
  ∀ (s : State) (d : Desc) (buf : List Byte) (cap : Nat),
    Asked s { cmd := .encode d, inp := Space.ofBytes buf, outCap := cap } →
    validDesc d = true → buf.length = d.pixels * d.stride → encodeBound d ≤ cap →
    ∃ t out, runFor (d.pixels + 1) s = .next t ∧ t.phase = .idle ∧
      t.result = some { status := .ok, outLen := out.length, desc := none } ∧
      t.out.readBytes 0 out.length = out ∧
      ∀ (u : State) (cap2 : Nat), u.cfg.wf = true →
        Asked u { cmd := .decode, inp := Space.ofBytes out, outCap := cap2 } → d.pixels * d.stride ≤ cap2 →
        ∃ v, runFor (d.pixels + 1) u = .next v ∧ v.phase = .idle ∧
          v.result = some { status := .ok, outLen := buf.length, desc := some d } ∧
          v.out.readBytes 0 buf.length = buf

/-- Rules R36, R226, R236: a command's result and output depend on its operands and the parameters alone: two idle blocks
that agree on those, whatever their registers, caches and earlier results hold, reach the same result. -/
def Obligations.ResultDependsOnOperandsOnly : Prop :=
  ∀ (s s' : State) (r : Request) (k : Nat) (t : State), Asked s r → Asked s' r → s.cfg = s'.cfg → 1 ≤ k →
    runFor k s = .next t →
    ∃ t', runFor k s' = .next t' ∧ t'.phase = t.phase ∧
      (t.phase = .idle → t'.result = t.result ∧ ∀ a, hostReadOut t' a = hostReadOut t a)

/-- Rules R87, R126 (and conflict C1): an image of N pixels all equal to the start pixel (0,0,0,255) encodes to RUN 62 as
often as it fits and one RUN for the rest. That the first such pixel opens a run rests on the encoder's start value of
`prev`, the spec's own derivation (R24, log 13). -/
def Obligations.UniformStartImageEncodesAsRuns : Prop :=
  ∀ (s : State) (d : Desc) (cap : Nat),
    Asked s { cmd := .encode d, inp := Space.ofBytes (List.replicate d.pixels (pixelBytes d Pixel.start)).flatten,
              outCap := cap } →
    validDesc d = true → encodeBound d ≤ cap →
    ∃ t, runFor (d.pixels + 1) s = .next t ∧ t.phase = .idle ∧
      t.result = some { status := .ok, outLen := (stream d (runOps d.pixels)).length, desc := none } ∧
      t.out.readBytes 0 (stream d (runOps d.pixels)).length = stream d (runOps d.pixels)

/-- Rules R51, R178: a decoder step reads no op byte at `L − 8` or above under FAIL, and none at `L − 4` or above under
REFERENCE: with other bytes there the step reads, writes and moves the same, and only the end check after the last pixel can
tell. -/
def Obligations.NoOpByteIsReadAboveItsBound : Prop :=
  ∀ (s t : State) (other : Memory), s.phase = .decoding → 22 ≤ s.inp.len →
    (∀ a, a < s.inp.len - 8 → other.read a = s.inp.cells.read a) →
    (s.cfg.truncation = .reference → ∀ a, a < s.inp.len - 4 → other.read a = s.inp.cells.read a) →
    step s = .next t →
    ∃ u, step { s with inp := { s.inp with cells := other } } = .next u ∧
      u.px = t.px ∧ u.run = t.run ∧ u.rd = t.rd ∧ u.decCache = t.decCache ∧ u.pos = t.pos ∧ u.wr = t.wr ∧
      u.out = t.out ∧ (s.pos + 1 < s.desc.pixels → u.phase = t.phase ∧ u.result = t.result)
end

