-- ==== Sys2Proof/Laws/Arith.lean ====
section
/-! SUPPORT. The arithmetic on channels as integer facts (rules R11, R130, R170). -/

namespace Sys2Proof.Machine

/-- `wrap8(v)` as a number is `v mod 256` (rule R11). -/
theorem wrap8_toNat (v : Int) : ((wrap8 v).toNat : Int) = v % 256 := by
  simp only [wrap8, BitVec.toNat_ofInt]
  omega

/-- A channel after a delta is the sum modulo 256 (rules R170, R171). -/
theorem addWrap_toNat (c : Byte) (d : Int) : ((addWrap c d).toNat : Int) = ((c.toNat : Int) + d) % 256 :=
  wrap8_toNat _

/-- `sext_8` is congruent to the byte and lies in [−128, 127] (rule R11). -/
theorem sext8_spec (v : Byte) : -128 ≤ sext8 v ∧ sext8 v ≤ 127 ∧ (sext8 v - (v.toNat : Int)) % 256 = 0 := by
  have := v.isLt
  unfold sext8
  split <;> omega

/-- The signed difference lies in [−128, 127] and is the difference modulo 256 (rule R130). -/
theorem s8diff_spec (a b : Byte) :
    -128 ≤ s8diff a b ∧ s8diff a b ≤ 127 ∧ (s8diff a b - ((a.toNat : Int) - b.toNat)) % 256 = 0 := by
  obtain ⟨h1, h2, h3⟩ := sext8_spec (wrap8 ((a.toNat : Int) - b.toNat))
  rw [wrap8_toNat] at h3
  refine ⟨h1, h2, ?_⟩
  unfold s8diff
  omega

/-- Adding the signed difference back, modulo 256, gives the channel (rules R130, R170). -/
theorem addWrap_s8diff (a b : Byte) : addWrap b (s8diff a b) = a := by
  obtain ⟨-, -, h⟩ := s8diff_spec a b
  have h1 := addWrap_toNat b (s8diff a b)
  have ha := a.isLt
  apply BitVec.eq_of_toNat_eq
  omega

end Sys2Proof.Machine
end

