-- ==== Sys2Proof/Laws/Cache.lean ====
section
/-! SUPPORT. The laws of the color cache (rules R28, R29). -/

namespace Sys2Proof.Machine

/-- A cache write overwrites one slot and no other (rule R29). -/
theorem cacheGet_cacheSet (c : Cache) (i j : Fin 64) (p : Pixel) :
    cacheGet (cacheSet c i p) j = if j = i then p else cacheGet c j := by
  simp only [cacheGet, cacheSet, Vector.getElem_set]
  by_cases h : j = i
  · simp [h]
  · rw [if_neg (fun e => h (Fin.ext e.symm)), if_neg h]

@[simp] theorem cacheGet_cacheSet_self (c : Cache) (i : Fin 64) (p : Pixel) :
    cacheGet (cacheSet c i p) i = p := by simp [cacheGet_cacheSet]

@[simp] theorem cacheGet_start (i : Fin 64) : cacheGet Cache.start i = Pixel.zero := by
  simp [cacheGet, Cache.start]

/-- The slot number of a pixel is its weighted sum modulo 64 (rule R200). -/
theorem hash_val (p : Pixel) : (hash p).val = hashSum p % 64 := rfl

/-- The exact sum fits 13 bits (rule R201). -/
theorem hashSum_le (p : Pixel) : hashSum p ≤ 6630 := by
  have := p.r.isLt; have := p.g.isLt; have := p.b.isLt; have := p.a.isLt
  simp only [hashSum]; omega

end Sys2Proof.Machine
end

