-- ==== Sys2Proof/Laws/Memory.lean ====
section
/-! SUPPORT. The laws of the byte memory: read after write, and that every operation keeps the canonical form. -/

namespace Sys2Proof.Machine

@[simp] theorem Memory.read_nil (a : Nat) : Memory.read [] a = 0 := rfl

theorem Memory.read_cons (k : Nat) (b : Byte) (rest : Memory) (a : Nat) :
    Memory.read ((k, b) :: rest) a = if k = a then b else Memory.read rest a := rfl

theorem Memory.wf_cons_iff (k : Nat) (b : Byte) (rest : Memory) :
    Memory.wf ((k, b) :: rest) = true ↔ b ≠ 0 ∧ (∀ c ∈ rest, k < c.1) ∧ Memory.wf rest = true := by
  simp [Memory.wf, and_assoc]

/-- An address below every listed one reads as an unlisted address does. -/
theorem Memory.read_below (m : Memory) (a : Nat) (h : ∀ c ∈ m, a < c.1) : m.read a = 0 := by
  induction m with
  | nil => rfl
  | cons c rest ih =>
    have hc := h c (by simp)
    rw [Memory.read_cons, if_neg (by omega)]
    exact ih fun d hd => h d (by simp [hd])

/-- A write lists no address but the written one and those listed before. -/
theorem Memory.mem_write {m : Memory} {a : Nat} {v : Byte} {c : Host.Cell} (h : c ∈ m.write a v) :
    c.1 = a ∨ c ∈ m := by
  induction m with
  | nil =>
    simp only [Memory.write] at h
    split at h <;> simp_all
  | cons d rest ih =>
    obtain ⟨k, b⟩ := d
    simp only [Memory.write] at h
    split_ifs at h <;> simp_all
    · rcases h with rfl | h | h <;> simp_all
    · rcases h with rfl | h <;> simp_all
    · rcases h with rfl | h
      · simp
      · rcases ih h with h | h <;> simp_all

/-- A write keeps the canonical form. -/
theorem Memory.wf_write {m : Memory} (h : m.wf = true) (a : Nat) (v : Byte) : (m.write a v).wf = true := by
  induction m with
  | nil =>
    simp only [Memory.write]
    split_ifs with hv
    · rfl
    · exact (Memory.wf_cons_iff a v []).2 ⟨hv, by simp, rfl⟩
  | cons d rest ih =>
    obtain ⟨k, b⟩ := d
    obtain ⟨hb, hk, hr⟩ := (Memory.wf_cons_iff k b rest).1 h
    simp only [Memory.write]
    split_ifs with h1 h2 h3 h4
    · exact h
    · refine (Memory.wf_cons_iff a v _).2 ⟨h2, ?_, h⟩
      intro c hc
      rcases List.mem_cons.1 hc with rfl | hc
      · exact h1
      · exact lt_trans h1 (hk c hc)
    · exact hr
    · exact (Memory.wf_cons_iff a v _).2 ⟨h4, fun c hc => h3 ▸ hk c hc, hr⟩
    · refine (Memory.wf_cons_iff k b _).2 ⟨hb, ?_, ih hr⟩
      intro c hc
      rcases Memory.mem_write hc with hc | hc
      · omega
      · exact hk c hc

/-- Read after write: the written address reads as the value, every other address as before. -/
theorem Memory.read_write {m : Memory} (h : m.wf = true) (a : Nat) (v : Byte) (x : Nat) :
    (m.write a v).read x = if x = a then v else m.read x := by
  induction m with
  | nil =>
    simp only [Memory.write]
    split_ifs with hv hx hx
    · rw [hv]; rfl
    · rfl
    · rw [hx, Memory.read_cons, if_pos rfl]
    · rw [Memory.read_cons, if_neg (by omega)]
  | cons d rest ih =>
    obtain ⟨k, b⟩ := d
    obtain ⟨hb, hk, hr⟩ := (Memory.wf_cons_iff k b rest).1 h
    simp only [Memory.write]
    split_ifs with h1 h2 hx hx h3 h4 hx hx
    · subst hx h2
      rw [Memory.read_cons, if_neg (by omega)]
      exact Memory.read_below rest x fun c hc => by have := hk c hc; omega
    · rfl
    · subst hx; simp [Memory.read_cons]
    · rw [Memory.read_cons, if_neg (by omega)]
    all_goals try subst h3
    · subst hx h4
      exact Memory.read_below rest x hk
    · rw [Memory.read_cons, if_neg (by omega)]
    · subst hx; simp [Memory.read_cons]
    · simp only [Memory.read_cons]
      rw [if_neg (by omega), if_neg (by omega)]
    · rename_i hx
      simp only [Memory.read_cons, ih hr]
      rw [if_neg (by omega), if_pos hx]
    · rename_i hx
      simp only [Memory.read_cons, ih hr]
      rw [if_neg hx]

/-- Writing a list of bytes keeps the canonical form. -/
theorem Memory.wf_writeBytes {m : Memory} (h : m.wf = true) (a : Nat) (vs : List Byte) :
    (m.writeBytes a vs).wf = true := by
  induction vs generalizing m a with
  | nil => exact h
  | cons v vs ih => exact ih (Memory.wf_write h a v) (a + 1)

/-- A written list of bytes lists no address outside its own and those listed before. -/
theorem Memory.mem_writeBytes {m : Memory} {a : Nat} {vs : List Byte} {c : Host.Cell}
    (h : c ∈ m.writeBytes a vs) : (a ≤ c.1 ∧ c.1 < a + vs.length) ∨ c ∈ m := by
  induction vs generalizing m a with
  | nil => exact .inr h
  | cons v vs ih =>
    rcases ih (m := m.write a v) (a := a + 1) h with h | h
    · left; simp only [List.length_cons]; omega
    · rcases Memory.mem_write h with h | h
      · left; simp only [List.length_cons]; omega
      · exact .inr h

/-- Read after writing a list of bytes: inside the written bytes their value, outside as before. -/
theorem Memory.read_writeBytes {m : Memory} (h : m.wf = true) (a : Nat) (vs : List Byte) (x : Nat) :
    (m.writeBytes a vs).read x =
      if a ≤ x ∧ x < a + vs.length then vs.getD (x - a) 0 else m.read x := by
  induction vs generalizing m a with
  | nil => rw [Memory.writeBytes, if_neg (by simp only [List.length_nil]; omega)]
  | cons v vs ih =>
    rw [Memory.writeBytes, ih (Memory.wf_write h a v), Memory.read_write h]
    simp only [List.length_cons]
    by_cases hx : x = a
    · subst hx
      rw [if_neg (by omega), if_pos rfl, if_pos (by omega)]
      simp
    · rw [if_neg hx]
      by_cases h1 : a + 1 ≤ x ∧ x < a + 1 + vs.length
      · rw [if_pos h1, if_pos (by omega)]
        obtain ⟨n, rfl⟩ : ∃ n, x = a + 1 + n := ⟨x - (a + 1), by omega⟩
        rw [show a + 1 + n - a = n + 1 by omega, show a + 1 + n - (a + 1) = n by omega]
        simp
      · rw [if_neg h1, if_neg (by omega)]

@[simp] theorem Memory.readBytes_length (m : Memory) (a n : Nat) : (m.readBytes a n).length = n := by
  simp [Memory.readBytes]

/-- A read of `n + 1` bytes is the first byte and a read of the rest. -/
theorem Memory.readBytes_succ (m : Memory) (a n : Nat) :
    m.readBytes a (n + 1) = m.read a :: m.readBytes (a + 1) n := by
  simp only [Memory.readBytes, List.range_succ_eq_map, List.map_cons, List.map_map, Nat.add_zero]
  congr 1
  apply List.map_congr_left
  intro k _
  simp only [Function.comp]
  congr 1
  omega

@[simp] theorem Memory.readBytes_zero (m : Memory) (a : Nat) : m.readBytes a 0 = [] := rfl

/-- A checked read answers exactly when every byte of it exists (rule R51). -/
theorem Space.memRead_eq_some {sp : Space} {a n : Nat} {bs : List Byte} :
    sp.memRead a n = some bs ↔ a + n ≤ sp.len ∧ sp.cells.readBytes a n = bs := by
  simp [Space.memRead]

theorem Space.memRead_of_le {sp : Space} {a n : Nat} (h : a + n ≤ sp.len) :
    sp.memRead a n = some (sp.cells.readBytes a n) := Space.memRead_eq_some.2 ⟨h, rfl⟩

/-- A read of `n + k` bytes is a read of `n` and a read of the `k` after them. -/
theorem Memory.readBytes_append (m : Memory) (a n k : Nat) :
    m.readBytes a (n + k) = m.readBytes a n ++ m.readBytes (a + n) k := by
  induction n generalizing a with
  | zero => simp
  | succ n ih =>
    rw [show n + 1 + k = (n + k) + 1 by omega, Memory.readBytes_succ, Memory.readBytes_succ, ih,
      show a + (n + 1) = a + 1 + n by omega]
    rfl

/-- Memories that read alike on a range give the same bytes of it. -/
theorem Memory.readBytes_congr {m m' : Memory} {a n : Nat}
    (h : ∀ x, a ≤ x → x < a + n → m.read x = m'.read x) : m.readBytes a n = m'.readBytes a n := by
  simp only [Memory.readBytes]
  apply List.map_congr_left
  intro k hk
  rw [List.mem_range] at hk
  exact h _ (by omega) (by omega)

/-- The first bytes of a longer read. -/
theorem Memory.take_readBytes (m : Memory) {a n k : Nat} (h : k ≤ n) :
    (m.readBytes a n).take k = m.readBytes a k := by
  simp [Memory.readBytes, List.take_range, ← List.map_take, Nat.min_eq_left h]

/-- The bytes just written read back. -/
theorem Memory.readBytes_writeBytes {m : Memory} (h : m.wf = true) (a : Nat) (vs : List Byte) :
    (m.writeBytes a vs).readBytes a vs.length = vs := by
  apply List.ext_getElem
  · simp
  · intro n h1 h2
    simp only [Memory.readBytes, List.getElem_map, List.getElem_range]
    rw [Memory.read_writeBytes h, if_pos (by omega)]
    simp [List.getD_eq_getElem?_getD, h2]

/-- A byte of a space built from a list. -/
theorem Space.read_ofBytes (bs : List Byte) (k : Nat) : (Space.ofBytes bs).cells.read k = bs.getD k 0 := by
  simp only [Space.ofBytes]
  rw [Memory.read_writeBytes rfl]
  split_ifs with h
  · simp
  · simp at h
    simp [List.getD_eq_getElem?_getD, List.getElem?_eq_none h]

/-- The bytes of a range of a space built from a list. -/
theorem Space.readBytes_ofBytes {bs : List Byte} {a n : Nat} (h : a + n ≤ bs.length) :
    (Space.ofBytes bs).cells.readBytes a n = (bs.drop a).take n := by
  apply List.ext_getElem
  · simp; omega
  · intro k h1 h2
    simp at h1
    simp only [Memory.readBytes, List.getElem_map, List.getElem_range, Space.read_ofBytes]
    simp [List.getD_eq_getElem?_getD, List.getElem?_eq_getElem (show a + k < bs.length by omega)]

/-- A space built from bytes is in canonical form. -/
theorem Space.wf_ofBytes (bs : List Byte) : (Space.ofBytes bs).wf = true := by
  simp only [Space.wf, Space.ofBytes, Bool.and_eq_true, List.all_eq_true]
  refine ⟨Memory.wf_writeBytes rfl 0 bs, fun c hc => decide_eq_true ?_⟩
  rcases Memory.mem_writeBytes hc with h | h
  · simpa using h.2
  · simp at h

/-- The memory after reset is in canonical form. -/
theorem Memory.wf_reset : State.reset.out.wf = true ∧ State.reset.inp.wf = true := by decide

end Sys2Proof.Machine
end

