-- ==== Sys2Proof/Laws/State.lean ====
section
/-! SUPPORT. What each named update of the state does to each field: one lemma per field per update. -/

namespace Sys2Proof.Machine

variable (s : State)

@[simp] theorem State.setPx_cfg (p : Pixel) : (s.setPx p).cfg = s.cfg := rfl
@[simp] theorem State.setPx_phase (p : Pixel) : (s.setPx p).phase = s.phase := rfl
@[simp] theorem State.setPx_requests (p : Pixel) : (s.setPx p).requests = s.requests := rfl
@[simp] theorem State.setPx_inp (p : Pixel) : (s.setPx p).inp = s.inp := rfl
@[simp] theorem State.setPx_out (p : Pixel) : (s.setPx p).out = s.out := rfl
@[simp] theorem State.setPx_outCap (p : Pixel) : (s.setPx p).outCap = s.outCap := rfl
@[simp] theorem State.setPx_desc (p : Pixel) : (s.setPx p).desc = s.desc := rfl
@[simp] theorem State.setPx_prev (p : Pixel) : (s.setPx p).prev = s.prev := rfl
@[simp] theorem State.setPx_px (p : Pixel) : (s.setPx p).px = p := rfl
@[simp] theorem State.setPx_run (p : Pixel) : (s.setPx p).run = s.run := rfl
@[simp] theorem State.setPx_encCache (p : Pixel) : (s.setPx p).encCache = s.encCache := rfl
@[simp] theorem State.setPx_decCache (p : Pixel) : (s.setPx p).decCache = s.decCache := rfl
@[simp] theorem State.setPx_pos (p : Pixel) : (s.setPx p).pos = s.pos := rfl
@[simp] theorem State.setPx_rd (p : Pixel) : (s.setPx p).rd = s.rd := rfl
@[simp] theorem State.setPx_wr (p : Pixel) : (s.setPx p).wr = s.wr := rfl
@[simp] theorem State.setPx_result (p : Pixel) : (s.setPx p).result = s.result := rfl

@[simp] theorem State.setPrev_cfg (p : Pixel) : (s.setPrev p).cfg = s.cfg := rfl
@[simp] theorem State.setPrev_phase (p : Pixel) : (s.setPrev p).phase = s.phase := rfl
@[simp] theorem State.setPrev_requests (p : Pixel) : (s.setPrev p).requests = s.requests := rfl
@[simp] theorem State.setPrev_inp (p : Pixel) : (s.setPrev p).inp = s.inp := rfl
@[simp] theorem State.setPrev_out (p : Pixel) : (s.setPrev p).out = s.out := rfl
@[simp] theorem State.setPrev_outCap (p : Pixel) : (s.setPrev p).outCap = s.outCap := rfl
@[simp] theorem State.setPrev_desc (p : Pixel) : (s.setPrev p).desc = s.desc := rfl
@[simp] theorem State.setPrev_prev (p : Pixel) : (s.setPrev p).prev = p := rfl
@[simp] theorem State.setPrev_px (p : Pixel) : (s.setPrev p).px = s.px := rfl
@[simp] theorem State.setPrev_run (p : Pixel) : (s.setPrev p).run = s.run := rfl
@[simp] theorem State.setPrev_encCache (p : Pixel) : (s.setPrev p).encCache = s.encCache := rfl
@[simp] theorem State.setPrev_decCache (p : Pixel) : (s.setPrev p).decCache = s.decCache := rfl
@[simp] theorem State.setPrev_pos (p : Pixel) : (s.setPrev p).pos = s.pos := rfl
@[simp] theorem State.setPrev_rd (p : Pixel) : (s.setPrev p).rd = s.rd := rfl
@[simp] theorem State.setPrev_wr (p : Pixel) : (s.setPrev p).wr = s.wr := rfl
@[simp] theorem State.setPrev_result (p : Pixel) : (s.setPrev p).result = s.result := rfl

@[simp] theorem State.setRun_cfg (n : BitVec 6) : (s.setRun n).cfg = s.cfg := rfl
@[simp] theorem State.setRun_phase (n : BitVec 6) : (s.setRun n).phase = s.phase := rfl
@[simp] theorem State.setRun_requests (n : BitVec 6) : (s.setRun n).requests = s.requests := rfl
@[simp] theorem State.setRun_inp (n : BitVec 6) : (s.setRun n).inp = s.inp := rfl
@[simp] theorem State.setRun_out (n : BitVec 6) : (s.setRun n).out = s.out := rfl
@[simp] theorem State.setRun_outCap (n : BitVec 6) : (s.setRun n).outCap = s.outCap := rfl
@[simp] theorem State.setRun_desc (n : BitVec 6) : (s.setRun n).desc = s.desc := rfl
@[simp] theorem State.setRun_prev (n : BitVec 6) : (s.setRun n).prev = s.prev := rfl
@[simp] theorem State.setRun_px (n : BitVec 6) : (s.setRun n).px = s.px := rfl
@[simp] theorem State.setRun_run (n : BitVec 6) : (s.setRun n).run = n := rfl
@[simp] theorem State.setRun_encCache (n : BitVec 6) : (s.setRun n).encCache = s.encCache := rfl
@[simp] theorem State.setRun_decCache (n : BitVec 6) : (s.setRun n).decCache = s.decCache := rfl
@[simp] theorem State.setRun_pos (n : BitVec 6) : (s.setRun n).pos = s.pos := rfl
@[simp] theorem State.setRun_rd (n : BitVec 6) : (s.setRun n).rd = s.rd := rfl
@[simp] theorem State.setRun_wr (n : BitVec 6) : (s.setRun n).wr = s.wr := rfl
@[simp] theorem State.setRun_result (n : BitVec 6) : (s.setRun n).result = s.result := rfl

@[simp] theorem State.advanceRd_cfg (n : Nat) : (s.advanceRd n).cfg = s.cfg := rfl
@[simp] theorem State.advanceRd_phase (n : Nat) : (s.advanceRd n).phase = s.phase := rfl
@[simp] theorem State.advanceRd_requests (n : Nat) : (s.advanceRd n).requests = s.requests := rfl
@[simp] theorem State.advanceRd_inp (n : Nat) : (s.advanceRd n).inp = s.inp := rfl
@[simp] theorem State.advanceRd_out (n : Nat) : (s.advanceRd n).out = s.out := rfl
@[simp] theorem State.advanceRd_outCap (n : Nat) : (s.advanceRd n).outCap = s.outCap := rfl
@[simp] theorem State.advanceRd_desc (n : Nat) : (s.advanceRd n).desc = s.desc := rfl
@[simp] theorem State.advanceRd_prev (n : Nat) : (s.advanceRd n).prev = s.prev := rfl
@[simp] theorem State.advanceRd_px (n : Nat) : (s.advanceRd n).px = s.px := rfl
@[simp] theorem State.advanceRd_run (n : Nat) : (s.advanceRd n).run = s.run := rfl
@[simp] theorem State.advanceRd_encCache (n : Nat) : (s.advanceRd n).encCache = s.encCache := rfl
@[simp] theorem State.advanceRd_decCache (n : Nat) : (s.advanceRd n).decCache = s.decCache := rfl
@[simp] theorem State.advanceRd_pos (n : Nat) : (s.advanceRd n).pos = s.pos := rfl
@[simp] theorem State.advanceRd_rd (n : Nat) : (s.advanceRd n).rd = s.rd + n := rfl
@[simp] theorem State.advanceRd_wr (n : Nat) : (s.advanceRd n).wr = s.wr := rfl
@[simp] theorem State.advanceRd_result (n : Nat) : (s.advanceRd n).result = s.result := rfl

@[simp] theorem State.advancePos_cfg : (s.advancePos).cfg = s.cfg := rfl
@[simp] theorem State.advancePos_phase : (s.advancePos).phase = s.phase := rfl
@[simp] theorem State.advancePos_requests : (s.advancePos).requests = s.requests := rfl
@[simp] theorem State.advancePos_inp : (s.advancePos).inp = s.inp := rfl
@[simp] theorem State.advancePos_out : (s.advancePos).out = s.out := rfl
@[simp] theorem State.advancePos_outCap : (s.advancePos).outCap = s.outCap := rfl
@[simp] theorem State.advancePos_desc : (s.advancePos).desc = s.desc := rfl
@[simp] theorem State.advancePos_prev : (s.advancePos).prev = s.prev := rfl
@[simp] theorem State.advancePos_px : (s.advancePos).px = s.px := rfl
@[simp] theorem State.advancePos_run : (s.advancePos).run = s.run := rfl
@[simp] theorem State.advancePos_encCache : (s.advancePos).encCache = s.encCache := rfl
@[simp] theorem State.advancePos_decCache : (s.advancePos).decCache = s.decCache := rfl
@[simp] theorem State.advancePos_pos : (s.advancePos).pos = s.pos + 1 := rfl
@[simp] theorem State.advancePos_rd : (s.advancePos).rd = s.rd := rfl
@[simp] theorem State.advancePos_wr : (s.advancePos).wr = s.wr := rfl
@[simp] theorem State.advancePos_result : (s.advancePos).result = s.result := rfl

@[simp] theorem State.storePx_cfg : (s.storePx).cfg = s.cfg := rfl
@[simp] theorem State.storePx_phase : (s.storePx).phase = s.phase := rfl
@[simp] theorem State.storePx_requests : (s.storePx).requests = s.requests := rfl
@[simp] theorem State.storePx_inp : (s.storePx).inp = s.inp := rfl
@[simp] theorem State.storePx_out : (s.storePx).out = s.out := rfl
@[simp] theorem State.storePx_outCap : (s.storePx).outCap = s.outCap := rfl
@[simp] theorem State.storePx_desc : (s.storePx).desc = s.desc := rfl
@[simp] theorem State.storePx_prev : (s.storePx).prev = s.prev := rfl
@[simp] theorem State.storePx_px : (s.storePx).px = s.px := rfl
@[simp] theorem State.storePx_run : (s.storePx).run = s.run := rfl
@[simp] theorem State.storePx_encCache : (s.storePx).encCache = s.encCache := rfl
@[simp] theorem State.storePx_decCache : (s.storePx).decCache = cacheSet s.decCache (hash s.px) s.px := rfl
@[simp] theorem State.storePx_pos : (s.storePx).pos = s.pos := rfl
@[simp] theorem State.storePx_rd : (s.storePx).rd = s.rd := rfl
@[simp] theorem State.storePx_wr : (s.storePx).wr = s.wr := rfl
@[simp] theorem State.storePx_result : (s.storePx).result = s.result := rfl

@[simp] theorem State.storeEnc_cfg (p : Pixel) : (s.storeEnc p).cfg = s.cfg := rfl
@[simp] theorem State.storeEnc_phase (p : Pixel) : (s.storeEnc p).phase = s.phase := rfl
@[simp] theorem State.storeEnc_requests (p : Pixel) : (s.storeEnc p).requests = s.requests := rfl
@[simp] theorem State.storeEnc_inp (p : Pixel) : (s.storeEnc p).inp = s.inp := rfl
@[simp] theorem State.storeEnc_out (p : Pixel) : (s.storeEnc p).out = s.out := rfl
@[simp] theorem State.storeEnc_outCap (p : Pixel) : (s.storeEnc p).outCap = s.outCap := rfl
@[simp] theorem State.storeEnc_desc (p : Pixel) : (s.storeEnc p).desc = s.desc := rfl
@[simp] theorem State.storeEnc_prev (p : Pixel) : (s.storeEnc p).prev = s.prev := rfl
@[simp] theorem State.storeEnc_px (p : Pixel) : (s.storeEnc p).px = s.px := rfl
@[simp] theorem State.storeEnc_run (p : Pixel) : (s.storeEnc p).run = s.run := rfl
@[simp] theorem State.storeEnc_encCache (p : Pixel) : (s.storeEnc p).encCache = cacheSet s.encCache (hash p) p := rfl
@[simp] theorem State.storeEnc_decCache (p : Pixel) : (s.storeEnc p).decCache = s.decCache := rfl
@[simp] theorem State.storeEnc_pos (p : Pixel) : (s.storeEnc p).pos = s.pos := rfl
@[simp] theorem State.storeEnc_rd (p : Pixel) : (s.storeEnc p).rd = s.rd := rfl
@[simp] theorem State.storeEnc_wr (p : Pixel) : (s.storeEnc p).wr = s.wr := rfl
@[simp] theorem State.storeEnc_result (p : Pixel) : (s.storeEnc p).result = s.result := rfl

@[simp] theorem State.emit_cfg (bs : List Byte) : (s.emit bs).cfg = s.cfg := rfl
@[simp] theorem State.emit_phase (bs : List Byte) : (s.emit bs).phase = s.phase := rfl
@[simp] theorem State.emit_requests (bs : List Byte) : (s.emit bs).requests = s.requests := rfl
@[simp] theorem State.emit_inp (bs : List Byte) : (s.emit bs).inp = s.inp := rfl
@[simp] theorem State.emit_out (bs : List Byte) : (s.emit bs).out = s.out.writeBytes s.wr bs := rfl
@[simp] theorem State.emit_outCap (bs : List Byte) : (s.emit bs).outCap = s.outCap := rfl
@[simp] theorem State.emit_desc (bs : List Byte) : (s.emit bs).desc = s.desc := rfl
@[simp] theorem State.emit_prev (bs : List Byte) : (s.emit bs).prev = s.prev := rfl
@[simp] theorem State.emit_px (bs : List Byte) : (s.emit bs).px = s.px := rfl
@[simp] theorem State.emit_run (bs : List Byte) : (s.emit bs).run = s.run := rfl
@[simp] theorem State.emit_encCache (bs : List Byte) : (s.emit bs).encCache = s.encCache := rfl
@[simp] theorem State.emit_decCache (bs : List Byte) : (s.emit bs).decCache = s.decCache := rfl
@[simp] theorem State.emit_pos (bs : List Byte) : (s.emit bs).pos = s.pos := rfl
@[simp] theorem State.emit_rd (bs : List Byte) : (s.emit bs).rd = s.rd := rfl
@[simp] theorem State.emit_wr (bs : List Byte) : (s.emit bs).wr = s.wr + bs.length := rfl
@[simp] theorem State.emit_result (bs : List Byte) : (s.emit bs).result = s.result := rfl

@[simp] theorem State.finish_cfg (r : Result) : (s.finish r).cfg = s.cfg := rfl
@[simp] theorem State.finish_phase (r : Result) : (s.finish r).phase = .idle := rfl
@[simp] theorem State.finish_requests (r : Result) : (s.finish r).requests = s.requests := rfl
@[simp] theorem State.finish_inp (r : Result) : (s.finish r).inp = s.inp := rfl
@[simp] theorem State.finish_out (r : Result) : (s.finish r).out = s.out := rfl
@[simp] theorem State.finish_outCap (r : Result) : (s.finish r).outCap = s.outCap := rfl
@[simp] theorem State.finish_desc (r : Result) : (s.finish r).desc = s.desc := rfl
@[simp] theorem State.finish_prev (r : Result) : (s.finish r).prev = s.prev := rfl
@[simp] theorem State.finish_px (r : Result) : (s.finish r).px = s.px := rfl
@[simp] theorem State.finish_run (r : Result) : (s.finish r).run = s.run := rfl
@[simp] theorem State.finish_encCache (r : Result) : (s.finish r).encCache = s.encCache := rfl
@[simp] theorem State.finish_decCache (r : Result) : (s.finish r).decCache = s.decCache := rfl
@[simp] theorem State.finish_pos (r : Result) : (s.finish r).pos = s.pos := rfl
@[simp] theorem State.finish_rd (r : Result) : (s.finish r).rd = s.rd := rfl
@[simp] theorem State.finish_wr (r : Result) : (s.finish r).wr = s.wr := rfl
@[simp] theorem State.finish_result (r : Result) : (s.finish r).result = some r := rfl

@[simp] theorem State.raise_cfg (st : Status) : (s.raise st).cfg = s.cfg := rfl
@[simp] theorem State.raise_phase (st : Status) : (s.raise st).phase = .idle := rfl
@[simp] theorem State.raise_requests (st : Status) : (s.raise st).requests = s.requests := rfl
@[simp] theorem State.raise_inp (st : Status) : (s.raise st).inp = s.inp := rfl
@[simp] theorem State.raise_out (st : Status) : (s.raise st).out = s.out := rfl
@[simp] theorem State.raise_outCap (st : Status) : (s.raise st).outCap = s.outCap := rfl
@[simp] theorem State.raise_desc (st : Status) : (s.raise st).desc = s.desc := rfl
@[simp] theorem State.raise_prev (st : Status) : (s.raise st).prev = s.prev := rfl
@[simp] theorem State.raise_px (st : Status) : (s.raise st).px = s.px := rfl
@[simp] theorem State.raise_run (st : Status) : (s.raise st).run = s.run := rfl
@[simp] theorem State.raise_encCache (st : Status) : (s.raise st).encCache = s.encCache := rfl
@[simp] theorem State.raise_decCache (st : Status) : (s.raise st).decCache = s.decCache := rfl
@[simp] theorem State.raise_pos (st : Status) : (s.raise st).pos = s.pos := rfl
@[simp] theorem State.raise_rd (st : Status) : (s.raise st).rd = s.rd := rfl
@[simp] theorem State.raise_wr (st : Status) : (s.raise st).wr = s.wr := rfl
@[simp] theorem State.raise_result (st : Status) : (s.raise st).result = some { status := st, outLen := 0, desc := none } := rfl

@[simp] theorem State.launch_cfg (r : Request) : (s.launch r).cfg = s.cfg := rfl
@[simp] theorem State.launch_phase (r : Request) : (s.launch r).phase = s.phase := rfl
@[simp] theorem State.launch_requests (r : Request) : (s.launch r).requests = s.requests ++ [r] := rfl
@[simp] theorem State.launch_inp (r : Request) : (s.launch r).inp = s.inp := rfl
@[simp] theorem State.launch_out (r : Request) : (s.launch r).out = s.out := rfl
@[simp] theorem State.launch_outCap (r : Request) : (s.launch r).outCap = s.outCap := rfl
@[simp] theorem State.launch_desc (r : Request) : (s.launch r).desc = s.desc := rfl
@[simp] theorem State.launch_prev (r : Request) : (s.launch r).prev = s.prev := rfl
@[simp] theorem State.launch_px (r : Request) : (s.launch r).px = s.px := rfl
@[simp] theorem State.launch_run (r : Request) : (s.launch r).run = s.run := rfl
@[simp] theorem State.launch_encCache (r : Request) : (s.launch r).encCache = s.encCache := rfl
@[simp] theorem State.launch_decCache (r : Request) : (s.launch r).decCache = s.decCache := rfl
@[simp] theorem State.launch_pos (r : Request) : (s.launch r).pos = s.pos := rfl
@[simp] theorem State.launch_rd (r : Request) : (s.launch r).rd = s.rd := rfl
@[simp] theorem State.launch_wr (r : Request) : (s.launch r).wr = s.wr := rfl
@[simp] theorem State.launch_result (r : Request) : (s.launch r).result = s.result := rfl

end Sys2Proof.Machine
end

