-- ==== Sys2Proof/Laws/Ops.lean ====
section
/-! SUPPORT. What each shared operation can do, said once: cited instead of unfolding it. -/

namespace Sys2Proof.Machine

/-- The truncation test as a proposition (rule R166). -/
theorem truncated_eq_true {s : State} {n : Nat} :
    truncated s n = true ↔ s.cfg.truncation = .fail ∧ streamEnd s < s.rd + n := by
  simp [truncated]

/-- An op of several bytes that is not truncated. -/
theorem operandOp_of_fits {n : Nat} {p : Pixel} {s : State} (h : truncated s n = false) :
    operandOp n p s = .next ((s.setPx p).advanceRd n).storePx := by
  simp [operandOp, h]

/-- An op of several bytes that is truncated. -/
theorem operandOp_of_truncated {n : Nat} {p : Pixel} {s : State} (h : truncated s n = true) :
    operandOp n p s = .next (s.raise .malformedStream) := by
  simp [operandOp, h]

/-- Everything an op of several bytes can do. -/
theorem operandOp_cases {n : Nat} {p : Pixel} {s : State} {o : Host.Outcome State Fault Refusal}
    (h : operandOp n p s = o) :
    (truncated s n = true ∧ o = .next (s.raise .malformedStream)) ∨
      (truncated s n = false ∧ o = .next ((s.setPx p).advanceRd n).storePx) := by
  subst h
  cases ht : truncated s n
  · exact .inr ⟨rfl, operandOp_of_fits ht⟩
  · exact .inl ⟨rfl, operandOp_of_truncated ht⟩

/-- Everything the meaning of an op can do: a truncated op of several bytes ends the command; INDEX loads a slot and
writes no cache; any other sets `px` and perhaps `run`, moves `rd` past the op and writes the cache. -/
theorem exec_cases (i : Instr) (s : State) :
    (1 < i.length ∧ truncated s i.length = true ∧ exec i s = .next (s.raise .malformedStream)) ∨
      (∃ slot, i = .index slot ∧ exec i s = .next ((s.setPx (cacheGet s.decCache slot)).advanceRd 1)) ∨
      ∃ p n, (n = s.run ∨ ∃ k, i = .run k ∧ n = BitVec.ofNat 6 (k - 1)) ∧
        (i.length = 1 ∨ truncated s i.length = false) ∧
        exec i s = .next (((s.setPx p).setRun n).advanceRd i.length).storePx := by
  cases i with
  | index slot => exact .inr (.inl ⟨slot, rfl, rfl⟩)
  | diff dr dg db => exact .inr (.inr ⟨s.px.addDeltas dr dg db, s.run, .inl rfl, .inl rfl, rfl⟩)
  | luma dg x y =>
    rcases operandOp_cases (n := 2) (p := s.px.addDeltas (dg + x) dg (dg + y)) (s := s) rfl with ⟨ht, h⟩ | ⟨ht, h⟩
    · exact .inl ⟨by simp [Instr.length], ht, h⟩
    · exact .inr (.inr ⟨s.px.addDeltas (dg + x) dg (dg + y), s.run, .inl rfl, .inr ht, h⟩)
  | run n => exact .inr (.inr ⟨s.px, BitVec.ofNat 6 (n - 1), .inr ⟨n, rfl, rfl⟩, .inl rfl, rfl⟩)
  | rgb r g b =>
    rcases operandOp_cases (n := 4) (p := { r := r, g := g, b := b, a := s.px.a }) (s := s) rfl with
      ⟨ht, h⟩ | ⟨ht, h⟩
    · exact .inl ⟨by simp [Instr.length], ht, h⟩
    · exact .inr (.inr ⟨{ r := r, g := g, b := b, a := s.px.a }, s.run, .inl rfl, .inr ht, h⟩)
  | rgba r g b a =>
    rcases operandOp_cases (n := 5) (p := { r := r, g := g, b := b, a := a }) (s := s) rfl with ⟨ht, h⟩ | ⟨ht, h⟩
    · exact .inl ⟨by simp [Instr.length], ht, h⟩
    · exact .inr (.inr ⟨{ r := r, g := g, b := b, a := a }, s.run, .inl rfl, .inr ht, h⟩)

/-- Everything the choice of a decoder step can answer (rule R164). -/
theorem pixelSource_cases (s : State) :
    (s.run ≠ 0 ∧ pixelSource s = .next .runs) ∨
      (s.run = 0 ∧ streamEnd s ≤ s.rd ∧ pixelSource s = .next .exhausted) ∨
      (s.run = 0 ∧ s.rd < streamEnd s ∧
        pixelSource s = fetchOp s) := by
  unfold pixelSource
  by_cases h : s.run = 0
  · by_cases h2 : s.rd < streamEnd s
    · exact .inr (.inr ⟨h, h2, by rw [if_neg (not_not_intro h), if_pos h2]⟩)
    · exact .inr (.inl ⟨h, by omega, by rw [if_neg (not_not_intro h), if_neg h2]⟩)
  · exact .inl ⟨h, if_pos h⟩

/-- Everything one pixel of the encoder can do to the run, the cache and the output (rules R126 to R135). -/
theorem encodeOne_cases (px : Pixel) (s : State) :
    (px = s.prev ∧ encodeOne px s = (extendRun s).setPrev px) ∨
      (px ≠ s.prev ∧ cacheGet (flushPending s).encCache (hash px) = px ∧
        encodeOne px s = ((flushPending s).emitOp (.index (hash px))).setPrev px) ∨
      (px ≠ s.prev ∧ cacheGet (flushPending s).encCache (hash px) ≠ px ∧
        encodeOne px s =
          (((flushPending s).storeEnc px).emitOp (chooseOp px (flushPending s).prev)).setPrev px) := by
  by_cases h : px = s.prev
  · exact .inl ⟨h, by simp [encodeOne, h]⟩
  · by_cases hc : cacheGet (flushPending s).encCache (hash px) = px
    · exact .inr (.inl ⟨h, hc, by simp [encodeOne, encodeNew, h, hc]⟩)
    · exact .inr (.inr ⟨h, hc, by simp [encodeOne, encodeNew, h, hc]⟩)

/-- A decoder step's completion after a raise changes nothing (rule R224). -/
@[simp] theorem completeUnlessRaised_raise (s : State) (st : Status) :
    completeUnlessRaised (s.raise st) = s.raise st := by
  simp [completeUnlessRaised]

theorem completeUnlessRaised_of_decoding {s : State} (h : s.phase = .decoding) :
    completeUnlessRaised s = completePixel s := by
  simp [completeUnlessRaised, h]

@[simp] theorem step_idle {s : State} (h : s.phase = .idle) : step s = startNext s := by simp [step, h]

@[simp] theorem step_encoding {s : State} (h : s.phase = .encoding) : step s = encodePixel s := by
  simp [step, h]

@[simp] theorem step_decoding {s : State} (h : s.phase = .decoding) : step s = decodePixel s := by
  simp [step, h]

end Sys2Proof.Machine
end

