-- ==== Sys2Proof/Laws/Decoder.lean ====
section
/-! SUPPORT. What the decoder's operations do and what they leave (rules R164 to R177), and the cache property both
units keep. -/

namespace Sys2Proof.Machine

/-- More bytes after an op change nothing but what is left. -/
theorem decode_append {bs tail : List Byte} {i : Instr} (rest : List Byte) (h : decode bs = .ok (i, tail)) :
    decode (bs ++ rest) = .ok (i, tail ++ rest) := by
  cases bs with
  | nil => simp [decode] at h
  | cons b1 t =>
    simp only [List.cons_append, decode] at *
    split_ifs at * <;> first
      | (split at h <;> simp_all)
      | simp_all

/-- An op has 1 to 5 bytes (rule R74). -/
theorem opLen_bounds (b1 : Byte) : 1 ≤ opLen b1 ∧ opLen b1 ≤ 5 := by
  unfold opLen
  split_ifs <;> omega

/-- A read of op bytes below the limit and inside IN answers (rules R51, R178). -/
theorem readOpBytes_of_le {s : State} {n : Nat} (h1 : s.rd + n ≤ opLimit s) (h2 : s.rd + n ≤ s.inp.len) :
    readOpBytes s n = some (s.inp.cells.readBytes s.rd n) := by
  rw [readOpBytes, if_pos h1, Space.memRead_of_le h2]

/-- An op that is not truncated and starts before the marker region ends at or below the limit (rule R166). -/
theorem op_end_le_opLimit {s : State} {n : Nat} (h : s.rd < streamEnd s) (hn : n ≤ 5) (ht : truncated s n = false) :
    s.rd + n ≤ opLimit s := by
  have h2 : s.cfg.truncation = .fail → s.rd + n ≤ streamEnd s := fun hf => by
    by_contra hc
    rw [truncated_eq_true.2 ⟨hf, by omega⟩] at ht
    simp at ht
  unfold opLimit
  split
  · exact h2 ‹_›
  · omega

/-- Everything the fetch can do where op bytes are left: a truncated op is reported from its tag alone; any other is
decoded from its own bytes (rule R166). -/
theorem fetchOp_cases {s : State} (h : s.rd < streamEnd s) :
    (truncated s (opLen (s.inp.cells.read s.rd)) = true ∧ fetchOp s = .next .truncated) ∨
      (truncated s (opLen (s.inp.cells.read s.rd)) = false ∧
        fetchOp s = decodeOp (s.inp.cells.readBytes s.rd (opLen (s.inp.cells.read s.rd)))) := by
  have hl : streamEnd s = s.inp.len - 8 := rfl
  have h5 := (opLen_bounds (s.inp.cells.read s.rd)).2
  have hlim : s.rd + 1 ≤ opLimit s := by unfold opLimit; split <;> omega
  have htag : readOpBytes s 1 = some [s.inp.cells.read s.rd] := by
    rw [readOpBytes_of_le hlim (by omega), Memory.readBytes_succ, Memory.readBytes_zero]
  unfold fetchOp
  simp only [htag]
  cases ht : truncated s (opLen (s.inp.cells.read s.rd))
  · right
    rw [readOpBytes_of_le (op_end_le_opLimit h h5 ht) (by omega)]
    simp
  · left
    simp

/-- The end check's two endings (rules R176, R177). -/
theorem finishDecode_cases (s : State) :
    finishDecode s = s.raise .malformedStream ∨
      finishDecode s =
        s.finish { status := .ok, outLen := s.desc.pixels * s.desc.stride, desc := some s.desc } := by
  unfold finishDecode
  split_ifs <;> simp

/-- The end of a pixel step writes the pixel, moves the cursor, and goes on or ends the command (rule R175); nothing
else changes. -/
theorem completePixel_eq (s : State) :
    ∃ ph po res, completePixel s =
      { s with
        out := s.out.writeBytes (s.pos * s.desc.stride) (pixelBytes s.desc s.px)
        wr := s.pos * s.desc.stride + s.desc.stride
        phase := ph, pos := po, result := res } := by
  simp only [completePixel]
  split_ifs
  · exact ⟨_, _, _, rfl⟩
  · rcases finishDecode_cases (writePixel s) with h | h <;> rw [h] <;> exact ⟨_, _, _, rfl⟩

/-- The start cache has the cache property (rule R28). -/
theorem cacheWf_start : CacheWf Cache.start := fun i => .inl (cacheGet_start i)

/-- Storing a pixel in its own slot keeps the cache property (rules R129, R173). -/
theorem cacheWf_set {c : Cache} (h : CacheWf c) (p : Pixel) : CacheWf (cacheSet c (hash p) p) := by
  intro i
  rw [cacheGet_cacheSet]
  split_ifs with e
  · exact .inr e.symm
  · exact h i

end Sys2Proof.Machine
end

