-- ==== Sys2Proof/Laws/Encoder.lean ====
section
/-! SUPPORT. What the encoder's operations write and what they leave (rules R13, R124 to R136). -/

namespace Sys2Proof.Machine

/-- `emit` writes its bytes at the cursor and no other (rule R13). -/
theorem emitted_emit {s : State} (bs : List Byte) (h : s.out.wf = true) : Emitted s (s.emit bs) bs := by
  refine ⟨rfl, Memory.readBytes_writeBytes h _ _, fun a ha => ?_⟩
  rw [State.emit_out, Memory.read_writeBytes h, if_neg (by omega)]

/-- Two outputs in a row are one output. -/
theorem Emitted.trans {s t u : State} {x y : List Byte} (h1 : Emitted s t x) (h2 : Emitted t u y) :
    Emitted s u (x ++ y) := by
  obtain ⟨a1, b1, c1⟩ := h1
  obtain ⟨a2, b2, c2⟩ := h2
  refine ⟨by simp [a2, a1]; omega, ?_, fun a ha => ?_⟩
  · rw [List.length_append, Memory.readBytes_append]
    congr 1
    · refine (Memory.readBytes_congr ?_).trans b1
      intro z _ hz
      rw [c2]
      left; omega
    · rw [← a1]; exact b2
  · simp at ha
    rw [c2 a (by omega), c1 a (by omega)]

/-- Nothing written. -/
theorem emitted_nil {s t : State} (h1 : t.wr = s.wr) (h2 : t.out = s.out) : Emitted s t [] :=
  ⟨by simp [h1], rfl, fun a _ => by rw [h2]⟩

/-- Only the cursor and the output matter. -/
theorem Emitted.congr {s t u : State} {x : List Byte} (h : Emitted s t x) (h1 : u.wr = t.wr) (h2 : u.out = t.out) :
    Emitted s u x := by
  obtain ⟨a, b, c⟩ := h
  exact ⟨by rw [h1, a], by rw [h2, b], by rw [h2]; exact c⟩

/-- `emit` keeps the canonical form of OUT. -/
theorem wf_emit {s : State} (bs : List Byte) (h : s.out.wf = true) : (s.emit bs).out.wf = true :=
  Memory.wf_writeBytes h _ _

/-- `emit` lists nothing at or after the new cursor. -/
theorem emit_below {s : State} (bs : List Byte) (h : ∀ c ∈ s.out, c.1 < s.wr) :
    ∀ c ∈ (s.emit bs).out, c.1 < (s.emit bs).wr := by
  intro c hm
  rcases Memory.mem_writeBytes hm with h' | h'
  · exact h'.2
  · have := h c h'
    show c.1 < s.wr + _
    omega

/-- A flush changes the output, its cursor and the run, and nothing else (rule R128). -/
theorem flushPending_eq (s : State) :
    ∃ o w, flushPending s = { s with out := o, wr := w, run := 0 } := by
  unfold flushPending
  split_ifs with h
  · exact ⟨s.out, s.wr, by rw [← h]⟩
  · exact ⟨_, _, rfl⟩

/-- The byte of a RUN op (rule R78). -/
theorem encode_run {n : Nat} (h1 : 1 ≤ n) (h2 : n ≤ 63) :
    encode (.run n) = [BitVec.ofNat 8 (0xC0 + (n - 1))] := by
  interval_cases n <;> decide

/-- The byte of an INDEX op (rule R75). -/
theorem encode_index : ∀ i : Fin 64, encode (.index i) = [BitVec.ofNat 8 i.val] := by decide

/-- A flush writes the pending run, if there is one (rule R128). -/
theorem emitted_flushPending {s : State} (h : s.out.wf = true) : Emitted s (flushPending s) (pendingRun s) := by
  by_cases h0 : s.run = 0
  · simp only [flushPending, pendingRun, h0, if_true]
    exact emitted_nil rfl rfl
  · simp only [flushPending, pendingRun, h0, if_false, flushRun]
    have h1 : s.run.toNat ≠ 0 := fun e => h0 (BitVec.eq_of_toNat_eq (by simpa using e))
    have h63 := s.run.isLt
    rw [← encode_run (by omega) (by omega)]
    exact (emitted_emit _ h).congr rfl rfl

/-- One pixel of the encoder changes the output, its cursor, the run, the encoder's cache and `prev`, and nothing else
(rules R126 to R135). -/
theorem encodeOne_eq (px : Pixel) (s : State) :
    ∃ o w n c, encodeOne px s = { s with out := o, wr := w, run := n, encCache := c, prev := px } := by
  obtain ⟨o, w, hf⟩ := flushPending_eq s
  unfold encodeOne
  split_ifs with h
  · unfold extendRun
    dsimp only
    split_ifs
    · exact ⟨_, _, _, _, rfl⟩
    · exact ⟨_, _, _, _, rfl⟩
  · unfold encodeNew
    dsimp only
    rw [hf]
    split_ifs
    · exact ⟨_, _, _, _, rfl⟩
    · exact ⟨_, _, _, _, rfl⟩

/-- The four literal encodings, with the condition that chose each (rules R130 to R134). -/
theorem chooseByDeltas_cases (dr dg db : Int) (px : Pixel) :
    (chooseByDeltas dr dg db px = .diff dr dg db ∧ (Instr.diff dr dg db).wf = true) ∨
      (chooseByDeltas dr dg db px = .luma dg (dr - dg) (db - dg) ∧
        (Instr.luma dg (dr - dg) (db - dg)).wf = true) ∨
      chooseByDeltas dr dg db px = .rgb px.r px.g px.b := by
  unfold chooseByDeltas
  split_ifs with h1 h2
  · exact .inl ⟨rfl, h1⟩
  · exact .inr (.inl ⟨rfl, h2⟩)
  · exact .inr (.inr rfl)

/-- With three channels the pixel read has alpha 255 (rule R125). -/
theorem readPixel_alpha {s : State} {px : Pixel} (h : readPixel s = some px) (h3 : s.desc.channels = 3) :
    px.a = 255 := by
  unfold readPixel at h
  split at h
  · rw [if_neg (by rw [h3]; decide)] at h
    injection h with h
    rw [← h]
  · simp at h

/-- One more step of a run of steps. -/
theorem runFor_succ {k : Nat} {s t : State} (h : step s = .next t) : runFor (k + 1) s = runFor k t := by
  have h' : Sys2Proof.core.step s = .next t := h
  simp only [runFor, Host.Core.run]
  rw [h']

end Sys2Proof.Machine
end

