-- ==== Sys2Proof/Laws/Header.lean ====
section
/-! SUPPORT. The laws of the header fields, the description predicate and the pixel bytes (rules R13, R52, R100, R107). -/

namespace Sys2Proof.Machine

/-- `be32` as a number (rule R13). -/
theorem be32_toNat (a b c d : Byte) :
    (be32 a b c d).toNat = a.toNat * 2 ^ 24 + b.toNat * 2 ^ 16 + c.toNat * 2 ^ 8 + d.toNat := by
  have := a.isLt; have := b.isLt; have := c.isLt; have := d.isLt
  simp only [be32, BitVec.toNat_ofNat]
  omega

/-- `be32bytes` undoes `be32` (rule R13). -/
theorem be32bytes_be32 (a b c d : Byte) : be32bytes (be32 a b c d) = [a, b, c, d] := by
  have := a.isLt; have := b.isLt; have := c.isLt; have := d.isLt
  simp only [be32bytes, be32_toNat]
  congr 1 <;> [skip; congr 1 <;> [skip; congr 1 <;> [skip; congr 1]]]
  all_goals
    apply BitVec.eq_of_toNat_eq
    rw [BitVec.toNat_ofNat]
    omega

/-- Every word is the reading of its four bytes (rule R13). -/
theorem be32bytes_eq (v : Word32) : ∃ a b c d, be32bytes v = [a, b, c, d] ∧ be32 a b c d = v := by
  refine ⟨_, _, _, _, rfl, ?_⟩
  apply BitVec.eq_of_toNat_eq
  rw [be32_toNat]
  have := v.isLt
  simp only [BitVec.toNat_ofNat]
  omega

/-- `valid_desc` as a proposition (rule R107). -/
theorem validDesc_iff {d : Desc} : validDesc d = true ↔
    d.width ≠ 0 ∧ d.height ≠ 0 ∧ (d.channels = 3 ∨ d.channels = 4) ∧ (d.colorspace = 0 ∨ d.colorspace = 1) ∧
      d.height.toNat < 400000000 / d.width.toNat := by
  simp only [validDesc, legalChannels, legalColorspace, belowCeiling, Bool.and_eq_true, decide_eq_true_eq,
    Bool.or_eq_true, and_assoc, ne_eq]

/-- A legal description's channel count and stride go together. -/
theorem stride_of_validDesc {d : Desc} (h : validDesc d = true) :
    (d.channels = 3 ∧ d.stride = 3) ∨ (d.channels = 4 ∧ d.stride = 4) := by
  rcases (validDesc_iff.1 h).2.2.1 with h | h <;> simp [Desc.stride, h]

@[simp] theorem serialize_length (d : Desc) : (serialize d).length = 14 := rfl

/-- A pixel has as many bytes as there are channels (rule R52). -/
theorem pixelBytes_length {d : Desc} (p : Pixel) (h : d.channels = 3 ∨ d.channels = 4) :
    (pixelBytes d p).length = d.stride := by
  rcases h with h | h <;> simp [pixelBytes, Desc.stride, h]

end Sys2Proof.Machine
end

