-- ==== Sys2Proof/Laws/PerInstr.lean ====
section
/-! SUPPORT. Facts about every op as syntax, one lemma per constructor. Family OpLength: the bytes written for an
op are as many as its length, and `oplen` reads that length from the first of them (rule R74). -/

namespace Sys2Proof.Laws.OpLength

/-- The length of an op, the number of its bytes and `oplen` of its first byte agree (rule R74). -/
def Statement (i : Instr) : Prop :=
  i.wf = true → ∃ b1 rest, encode i = b1 :: rest ∧ rest.length + 1 = i.length ∧ opLen b1 = i.length

theorem index (slot : Fin 64) : Statement (.index slot) := by
  intro _
  exact ⟨_, [], rfl, rfl, by revert slot; decide⟩

/-- The tag byte of every DIFF has length 1. -/
theorem diff_tag : ∀ r g b : BitVec 2,
    opLen (0x40 ||| (r.setWidth 8 <<< 4) ||| (g.setWidth 8 <<< 2) ||| b.setWidth 8) = 1 := by decide

/-- A biased delta in 0..3 as a byte is a 2-bit field. -/
theorem ofInt_field2 (d : Int) (h : inRange (-2) 1 d = true) :
    BitVec.ofInt 8 (d + 2) = (BitVec.ofInt 2 (d + 2)).setWidth 8 := by
  simp only [inRange, Bool.and_eq_true, decide_eq_true_eq] at h
  obtain ⟨h1, h2⟩ := h
  interval_cases d <;> decide

theorem diff (dr dg db : Int) : Statement (.diff dr dg db) := by
  intro h
  simp only [Instr.wf, Bool.and_eq_true] at h
  obtain ⟨⟨h1, h2⟩, h3⟩ := h
  refine ⟨_, [], rfl, rfl, ?_⟩
  rw [ofInt_field2 dr h1, ofInt_field2 dg h2, ofInt_field2 db h3]
  exact diff_tag _ _ _

theorem luma (dg drg dbg : Int) : Statement (.luma dg drg dbg) := by
  intro h
  simp only [Instr.wf, inRange, Bool.and_eq_true, decide_eq_true_eq] at h
  obtain ⟨⟨⟨h1, h2⟩, -⟩, -⟩ := h
  refine ⟨_, [_], rfl, rfl, ?_⟩
  change opLen _ = 2
  interval_cases dg <;> decide

theorem run (n : Nat) : Statement (.run n) := by
  intro h
  simp only [Instr.wf, Bool.and_eq_true, decide_eq_true_eq] at h
  obtain ⟨h1, h2⟩ : 1 ≤ n ∧ n ≤ 62 := h
  refine ⟨_, [], rfl, rfl, ?_⟩
  interval_cases n <;> decide

theorem rgb (r g b : Byte) : Statement (.rgb r g b) := fun _ => ⟨_, _, rfl, rfl, rfl⟩

theorem rgba (r g b a : Byte) : Statement (.rgba r g b a) := fun _ => ⟨_, _, rfl, rfl, rfl⟩

end Sys2Proof.Laws.OpLength
end

