-- ==== Sys2Proof/Tests/Slice0.lean ====
section
/-! SUPPORT. Small tests, their expected values from the spec's own tables and examples, and for every statement with
hypotheses a named witness that meets them. -/

open Sys2Proof Sys2Proof.Machine

namespace Sys2Proof.Tests

/-! ### Well-formedness: each check refuses (rule R82) -/

theorem test_wf_diff_refuses : (Instr.diff (-3) 0 0).wf = false ∧ (Instr.diff 2 0 0).wf = false ∧
    (Instr.diff 0 (-3) 0).wf = false ∧ (Instr.diff 0 2 0).wf = false ∧
    (Instr.diff 0 0 (-3)).wf = false ∧ (Instr.diff 0 0 2).wf = false := by decide

theorem test_wf_luma_refuses : (Instr.luma (-33) 0 0).wf = false ∧ (Instr.luma 32 0 0).wf = false ∧
    (Instr.luma 0 (-9) 0).wf = false ∧ (Instr.luma 0 8 0).wf = false ∧
    (Instr.luma 0 0 (-9)).wf = false ∧ (Instr.luma 0 0 8).wf = false := by decide

theorem test_wf_run_refuses : (Instr.run 0).wf = false ∧ (Instr.run 63).wf = false := by decide

theorem test_wf_accepts_the_limits : (Instr.index 63).wf ∧ (Instr.diff (-2) 1 (-2)).wf ∧
    (Instr.luma (-32) (-8) 7).wf ∧ (Instr.luma 31 7 (-8)).wf ∧ (Instr.run 1).wf ∧ (Instr.run 62).wf := by decide

theorem test_cfg_refuses : (Config.wf { Config.standard with cursorBits := 31 }) = false := by decide

/-! ### Decoding: words written from rules R75 to R80, at the limits of each format -/

theorem test_decode_index : decode [0b00110010] = .ok (.index 50, []) ∧ decode [0x00] = .ok (.index 0, []) ∧
    decode [0x3F] = .ok (.index 63, []) := by decide

theorem test_decode_diff : decode [0b01_01_10_10] = .ok (.diff (-1) 0 0, []) ∧
    decode [0x40] = .ok (.diff (-2) (-2) (-2), []) ∧ decode [0x7F] = .ok (.diff 1 1 1, []) ∧
    decode [0x5B] = .ok (.diff (-1) 0 1, []) := by decide

theorem test_decode_luma : decode [0b10_100101, 0b1101_1111] = .ok (.luma 5 5 7, []) ∧
    decode [0x80, 0x0F] = .ok (.luma (-32) (-8) 7, []) ∧ decode [0xBF, 0xF0] = .ok (.luma 31 7 (-8), []) := by decide

theorem test_decode_run : decode [0b11_000000] = .ok (.run 1, []) ∧ decode [0xFD] = .ok (.run 62, []) := by decide

theorem test_decode_rgb : decode [0xFE, 0xFE, 0xFF, 0x00] = .ok (.rgb 0xFE 0xFF 0x00, []) := by decide

theorem test_decode_rgba : decode [0xFF, 1, 2, 3, 4, 0x32] = .ok (.rgba 1 2 3 4, [0x32]) := by decide

theorem test_decode_missing : decode [0xFE, 1, 2] = .error .missingOperands ∧
    decode [0x80] = .error .missingOperands ∧ decode [] = .error .noByte := by decide

theorem test_encode_limits : encode (.luma (-32) (-8) 7) = [0x80, 0x0F] ∧ encode (.luma 31 7 (-8)) = [0xBF, 0xF0] ∧
    encode (.diff (-1) 0 1) = [0x5B] ∧ encode (.run 62) = [0xFD] := by decide

theorem test_table_word : decodeTableWord 8 0x5A = some (.diff (-1) 0 0) ∧
    decodeTableWord 16 0xDFA5 = some (.luma 5 5 7) ∧ decodeTableWord 32 0x3264C8FE = some (.rgb 200 100 50) ∧
    decodeTableWord 8 0xFF = some (.rgba 0 0 0 0) := by decide

/-! ### The hash and the header (rule R204; vectors V-HDR) -/

theorem test_hash_reference_values :
    Machine.hash { r := 0, g := 0, b := 0, a := 255 } = 53 ∧ Machine.hash { r := 255, g := 0, b := 0, a := 255 } = 50 ∧
    Machine.hash { r := 0, g := 255, b := 0, a := 255 } = 48 ∧
    Machine.hash { r := 0, g := 0, b := 255, a := 255 } = 46 ∧
    Machine.hash { r := 200, g := 100, b := 50, a := 255 } = 31 ∧ Machine.hash { r := 1, g := 2, b := 3, a := 4 } = 14 ∧
    Machine.hash { r := 255, g := 255, b := 255, a := 0 } = 49 := by decide

theorem test_serialize : serialize { width := 0x01020304, height := 0x0A0B0C0D, channels := 3, colorspace := 1 } =
    [0x71, 0x6F, 0x69, 0x66, 1, 2, 3, 4, 0x0A, 0x0B, 0x0C, 0x0D, 3, 1] := by decide

theorem test_parse : parse [0x71, 0x6F, 0x69, 0x66, 0, 0, 0, 2, 0, 0, 0, 2, 4, 0] =
    .ok { width := 2, height := 2, channels := 4, colorspace := 0 } := by decide

/-- A description with four channels and tag 0. -/
def size (w h : Word32) : Desc := { width := w, height := h, channels := 4, colorspace := 0 }

theorem test_valid_desc : validDesc (size 3 133333332) ∧ validDesc (size 1 399999999) ∧
    validDesc (size 20000 19999) ∧ validDesc (size 200000000 1) := by decide

theorem test_invalid_desc : validDesc (size 3 133333333) = false ∧ validDesc (size 1 400000000) = false ∧
    validDesc (size 20000 20000) = false ∧ validDesc (size 200000001 1) = false ∧
    validDesc (size 400000001 1) = false ∧ validDesc (size 0 1) = false ∧ validDesc (size 1 0) = false ∧
    validDesc { size 1 1 with channels := 2 } = false ∧ validDesc { size 1 1 with colorspace := 2 } = false := by
  decide

theorem test_status_codes : Status.ok.code = 0 ∧ Status.invalidDescription.code = 1 ∧
    Status.malformedStream.code = 2 := by decide

/-! ### One step of each op (vectors D-DIFF, D-LUMA, D-RGB, D-RGBA, V-CACHE, V-TRN) -/

/-- What a field of the next state is, if there is a next state. -/
def next? {α β γ δ : Type} (f : α → δ) : Host.Outcome α β γ → Option δ
  | .next t => some (f t)
  | _ => none

/-- The block before its first pixel step of a stream whose first op has these bytes, with this current pixel. -/
def before (bs : List Byte) (p : Pixel) : State := { loadOp State.reset bs with px := p }

theorem test_step_index : next? State.px (step (before [0x35] Pixel.start)) =
    some { r := 0, g := 0, b := 0, a := 0 } := by decide

theorem test_step_diff_wraps : next? State.px (step (before [0x7F] { r := 255, g := 255, b := 255, a := 7 })) =
    some { r := 0, g := 0, b := 0, a := 7 } := by decide

theorem test_step_diff_stores : next? (fun t => cacheGet t.decCache 50) (step (before [0x5A] Pixel.start)) =
    some { r := 255, g := 0, b := 0, a := 255 } := by decide

theorem test_step_luma : next? State.px (step (before [0x80, 0x00] Pixel.start)) =
    some { r := 216, g := 224, b := 216, a := 255 } := by decide

theorem test_step_luma_top : next? State.px (step (before [0xBF, 0xFF] Pixel.start)) =
    some { r := 38, g := 31, b := 38, a := 255 } := by decide

theorem test_step_run : next? (fun t => (t.run, t.rd, t.px, t.pos)) (step (before [0xFD] Pixel.start)) =
    some (61, 15, Pixel.start, 1) := by decide

theorem test_step_rgb : next? (fun t => (t.px, t.out.readBytes 0 4))
      (step (before [0xFE, 0x0A, 0x0B, 0x0C] { r := 1, g := 2, b := 3, a := 100 })) =
    some ({ r := 10, g := 11, b := 12, a := 100 }, [10, 11, 12, 100]) := by decide

theorem test_step_rgb_truncated : next? (fun t => (t.phase, t.result)) (step (before [0xFE, 1, 2] Pixel.start)) =
    some (.idle, some { status := .malformedStream, outLen := 0, desc := none }) := by decide

theorem test_step_rgba : next? (fun t => (t.px, t.rd)) (step (before [0xFF, 10, 11, 12, 13] Pixel.start)) =
    some ({ r := 10, g := 11, b := 12, a := 13 }, 19) := by decide

/-- The same block under REFERENCE. -/
def lenient (s : State) : State := { s with cfg := { s.cfg with truncation := .reference } }

theorem test_step_luma_reference : next? (fun t => (t.px, t.rd)) (step (lenient (before [0xA0] Pixel.start))) =
    some ({ r := 0xF8, g := 0x00, b := 0xF8, a := 0xFF }, 16) := by decide

theorem test_placed_word : next? State.px (step (State.reset.withFetchWord 16 0xDFA5)) =
    some { r := 10, g := 5, b := 12, a := 255 } := by decide

/-! ### One pixel of the encoder (vectors V-DIFF, V-LUMA, V-RGB, V-RGBA) -/

theorem test_choice : chooseOp { r := 255, g := 0, b := 0, a := 255 } Pixel.start = .diff (-1) 0 0 ∧
    chooseOp { r := 5, g := 3, b := 1, a := 255 } Pixel.start = .luma 3 2 (-2) ∧
    chooseOp { r := 200, g := 100, b := 50, a := 255 } Pixel.start = .rgb 200 100 50 ∧
    chooseOp { r := 1, g := 0, b := 0, a := 0 } Pixel.start = .rgba 1 0 0 0 := by decide

theorem test_choice_exact_cross_delta :
    chooseOp { r := 127, g := 128, b := 0, a := 100 } { r := 0, g := 0, b := 0, a := 100 } = .rgb 127 128 0 := by
  decide

/-- An ENCODE of an `n` × 1 image with four channels and these pixel bytes, at its first pixel step. -/
def encoding (n : Nat) (bs : List Byte) : State :=
  beginEncode (size (BitVec.ofNat 32 n) 1)
    { cmd := .encode (size (BitVec.ofNat 32 n) 1), inp := Space.ofBytes bs, outCap := 22 + n * 5 } State.reset

/-- S7 and V-1x1-2: the 1 × 1 image (0,0,0,0) ends with INDEX 0 and the marker. -/
theorem test_encode_index_hit : next? (fun t => (t.out.readBytes 14 9, t.result))
      (step (encoding 1 [0, 0, 0, 0])) =
    some ([0x00, 0, 0, 0, 0, 0, 0, 0, 1], some { status := .ok, outLen := 23, desc := none }) := by decide

theorem test_encode_last_run : next? (fun t => t.out.readBytes 14 9) (step (encoding 1 [0, 0, 0, 255])) =
    some [0xC0, 0, 0, 0, 0, 0, 0, 0, 1] := by decide

theorem test_encode_flush_then_rgba : next? (fun t => (t.run, t.wr, t.out.readBytes 14 6))
      (step { encoding 4 [0, 0, 0, 255, 0, 0, 0, 255, 1, 2, 3, 4, 0, 0, 0, 0] with pos := 2, run := 2 }) =
    some (0, 20, [0xC1, 0xFF, 1, 2, 3, 4]) := by decide

/-! ### The machine as a whole -/

theorem test_idle_stays : next? id (step State.reset) = some State.reset := by decide

theorem test_reset_memory : State.reset.out.wf = true ∧ State.reset.inp.wf = true := by decide

theorem test_write_zero_removes : Memory.write [(3, 7)] 3 0 = [] ∧ Memory.read [(3, 7)] 4 = 0 := by decide

/-! ### Witnesses: concrete inputs that meet the hypotheses of each statement -/

theorem witness_DecodeOfEncodeIsIdentity : (Instr.luma (-32) 7 (-8)).wf = true ∧ (Instr.run 62).wf = true ∧
    (Instr.diff (-2) 1 0).wf = true := by decide

theorem witness_EncodeOfDecodeIsIdentity : decode [0xFF, 1, 2, 3, 4, 9] = .ok (.rgba 1 2 3 4, [9]) := by decide

/-- Each clause of the statement at a boundary of its range. -/
theorem witness_FirstByteSelectsOpAndLength : decode [0x3F] = .ok (.index 63, []) ∧
    decode [0x40] = .ok (.diff (-2) (-2) (-2), []) ∧ decode [0xBF, 0xFF, 1] = .ok (.luma 31 7 7, [1]) ∧
    decode [0xC0] = .ok (.run 1, []) ∧ decode [0xFE, 0, 0, 0] = .ok (.rgb 0 0 0, []) ∧
    decode [0xFF, 0, 0, 0, 0] = .ok (.rgba 0 0 0 0, []) := by decide

theorem witness_OnlyMissingBytesAreRejected : opLen 0xFF ≤ [0, 0, 0, (0 : Byte)].length + 1 ∧
    [0, 0, (0 : Byte)].length + 1 < opLen 0xFF := by decide

theorem witness_IndexLoadsTheSlot : (63 : Fin 64).val = (63 : BitVec 6).toNat := by decide

theorem witness_RunStartsARun : (61 : BitVec 6).toNat ≤ 61 := by decide

/-- An op that fits exactly, one that does not, and one that does not under REFERENCE. -/
theorem witness_Fits : Fits (before [0xA0, 0x88] Pixel.start) 2 ∧ ¬Fits (before [0xA0] Pixel.start) 2 ∧
    Fits (lenient (before [0xA0] Pixel.start)) 2 := by
  refine ⟨.inr (by decide), ?_, .inl rfl⟩
  rintro (h | h)
  · exact absurd h (by decide)
  · exact absurd h (by decide)

theorem witness_LumaAddsItsDeltas : Fits (before [0xA0, 0x88] Pixel.start) 2 ∧
    ¬Fits (before [0xA0] Pixel.start) 2 := ⟨witness_Fits.1, witness_Fits.2.1⟩

theorem witness_RgbReplacesTheColors : Fits (before [0xFE, 1, 2, 3] Pixel.start) 4 ∧
    ¬Fits (before [0xFE, 1, 2] Pixel.start) 4 := by
  refine ⟨.inr (by decide), ?_⟩
  rintro (h | h)
  · exact absurd h (by decide)
  · exact absurd h (by decide)

theorem witness_RgbaReplacesThePixel : Fits (before [0xFF, 1, 2, 3, 4] Pixel.start) 5 ∧
    ¬Fits (before [0xFF, 1, 2, 3] Pixel.start) 5 := by
  refine ⟨.inr (by decide), ?_⟩
  rintro (h | h)
  · exact absurd h (by decide)
  · exact absurd h (by decide)

theorem witness_TruncatedOpFailsBeforeItExecutes : 1 < (Instr.luma 0 0 0).length ∧
    (before [0xA0] Pixel.start).cfg.truncation = .fail ∧
    streamEnd (before [0xA0] Pixel.start) < (before [0xA0] Pixel.start).rd + (Instr.luma 0 0 0).length := by decide

/-- The first op of the stream is fetched. -/
theorem fetches_diff : Fetches (before [0x5A] Pixel.start) (.diff (-1) 0 0) :=
  ⟨rfl, by decide, by decide, [0, 0, 0, 0, 0, 0, 0, 1], by decide⟩

theorem witness_StepRunsTheFetchedOp : Fetches (before [0x5A] Pixel.start) (.diff (-1) 0 0) ∧
    ∃ t, exec (.diff (-1) 0 0) (before [0x5A] Pixel.start) = .next t := ⟨fetches_diff, _, rfl⟩

theorem witness_PlacedWordIsFetchedNext : decodeTableWord 40 0x04030201FF = some (.rgba 1 2 3 4) := by decide

theorem witness_DecoderStepAlwaysAnswers : (before [] Pixel.start).phase = .decoding := rfl

/-- A run of 61 more positions. -/
theorem witness_RunContinuationConsumesNothing :
    ({ before [] Pixel.start with run := 61 } : State).phase = .decoding ∧
    ({ before [] Pixel.start with run := 61 } : State).run ≠ 0 := by decide

/-- Both policies, on a stream with no op. -/
theorem witness_ExhaustedInputFollowsThePolicy : (before [] Pixel.start).phase = .decoding ∧
    (before [] Pixel.start).run = 0 ∧ streamEnd (before [] Pixel.start) ≤ (before [] Pixel.start).rd ∧
    (before [] Pixel.start).cfg.truncation = .fail ∧
    (lenient (before [] Pixel.start)).cfg.truncation = .reference ∧ (before [] Pixel.start).out.wf = true ∧
    (before [] Pixel.start).desc.channels = 4 ∧
    (before [] Pixel.start).pos + 1 < (before [] Pixel.start).desc.pixels := by decide

/-- A run, an exhausted step under REFERENCE, an INDEX and another op. -/
theorem witness_CacheIsWrittenAfterEveryOpButIndex :
    (∃ t, step { before [] Pixel.start with run := 1 } = .next t) ∧
    (∃ t, step (lenient (before [] Pixel.start)) = .next t) ∧
    (∃ t, step (before [0x35] Pixel.start) = .next t ∧ Fetches (before [0x35] Pixel.start) (.index 53)) ∧
    (∃ t, step (before [0x5A] Pixel.start) = .next t ∧ Fetches (before [0x5A] Pixel.start) (.diff (-1) 0 0) ∧
      Fits (before [0x5A] Pixel.start) (Instr.diff (-1) 0 0).length) :=
  ⟨⟨_, rfl⟩, ⟨_, rfl⟩, ⟨_, rfl, rfl, by decide, by decide, [0, 0, 0, 0, 0, 0, 0, 1], by decide⟩,
    ⟨_, rfl, fetches_diff, .inr (by decide)⟩⟩

/-- A step that goes on, and a last step that succeeds. -/
theorem witness_DecoderWritesThePixel :
    (∃ t, step (before [0x5A] Pixel.start) = .next t ∧ t.phase = .decoding) ∧
    (∃ t, step { before [0x5A] Pixel.start with pos := 1 } = .next t ∧ ∃ r, t.result = some r ∧ r.status = .ok) ∧
    (before [0x5A] Pixel.start).out.wf = true ∧ (before [0x5A] Pixel.start).desc.channels = 4 :=
  ⟨⟨_, rfl, by decide⟩, ⟨_, rfl, _, rfl, by decide⟩, by decide, by decide⟩

/-- The last pixel: a clean end, one with a run left over, and the latter without STRICT_END. -/
theorem witness_EndCheckDecidesTheResult :
    let s := { before [0xC0] Pixel.start with pos := 1 }
    let u := { before [0xC1] Pixel.start with pos := 1 }
    let v := { u with cfg := { u.cfg with strictEnd := false } }
    s.phase = .decoding ∧ 22 ≤ s.inp.len ∧ s.pos + 1 = s.desc.pixels ∧ ReadsOn s ∧
    (∃ t, step s = .next t ∧ t.rd = s.inp.len - 8 ∧ t.run = 0 ∧
      s.inp.cells.readBytes (s.inp.len - 8) 8 = [0, 0, 0, 0, 0, 0, 0, 1]) ∧
    ReadsOn u ∧ (∃ t, step u = .next t ∧ u.cfg.strictEnd = true ∧ t.run ≠ 0) ∧
    ReadsOn v ∧ (∃ t, step v = .next t) ∧ v.cfg.strictEnd = false := by
  refine ⟨rfl, by decide, by decide, .inr (.inr (by decide)), ⟨_, rfl, by decide, by decide, by decide⟩,
    .inr (.inr (by decide)), ⟨_, rfl, rfl, by decide⟩, .inr (.inr (by decide)), ⟨_, rfl⟩, rfl⟩

/-- The block with one command issued. -/
def asked (r : Request) : State := State.reset.launch r

/-- A DECODE of these bytes, with room for 100 bytes. -/
def decodeOf (bs : List Byte) : Request := { cmd := .decode, inp := Space.ofBytes bs, outCap := 100 }

/-- Too long by one byte, too short (21 bytes), and a bad magic (V-HDR-2). -/
theorem witness_DecodeRejectsBadInput :
    (∀ r, (asked r).phase = .idle ∧ (asked r).requests = [r]) ∧
    (let r : Request := { cmd := .decode, inp := { len := 2 ^ 32, cells := [] }, outCap := 0 }
     2 ^ (asked r).cfg.cursorBits - 1 < r.inp.len) ∧
    (decodeOf (List.replicate 21 0)).inp.len < 22 ∧
    parse [0x71, 0x6F, 0x69, 0x67, 0, 0, 0, 1, 0, 0, 0, 1, 4, 0] = .error .badMagic := by
  refine ⟨fun r => ⟨rfl, rfl⟩, by decide, by decide, by decide⟩

/-- The stream of a 1 × 1 image, 23 bytes (V-1x1-1). -/
def onePixel : List Byte := serialize (size 1 1) ++ [0xC0] ++ endMarker

theorem witness_DecodeStartsFresh : 22 ≤ (decodeOf onePixel).inp.len ∧
    (decodeOf onePixel).inp.len ≤ 2 ^ (asked (decodeOf onePixel)).cfg.cursorBits - 1 ∧
    parse ((decodeOf onePixel).inp.cells.readBytes 0 14) = .ok (size 1 1) ∧
    (size 1 1).pixels * (size 1 1).stride ≤ (decodeOf onePixel).outCap := by decide

theorem witness_HeaderCodecRoundTrip : validDesc (size 200000000 1) = true ∧
    parse (serialize (size 2 2) ++ [7]) = .ok (size 2 2) := by decide

theorem witness_ValidDescriptionsAreBounded : validDesc (size 200000000 1) = true ∧
    validDesc (size 1 399999999) = true := by decide

/-- An ENCODE with exactly the room it may need. -/
def encodeOf (d : Desc) (bs : List Byte) : Request :=
  { cmd := .encode d, inp := Space.ofBytes bs, outCap := encodeBound d }

/-- A description over the ceiling, a buffer one byte short, and a command that passes. -/
theorem witness_EncodeRejectsExactlyTheListedCases :
    400000000 / (size 20000 20000).width.toNat ≤ (size 20000 20000).height.toNat ∧
    (encodeOf (size 1 1) [1, 2, 3]).inp.len ≠
      (size 1 1).width.toNat * (size 1 1).height.toNat * (size 1 1).channels.toNat ∧
    (encodeOf (size 1 1) [1, 2, 3, 4]).inp.len =
      (size 1 1).width.toNat * (size 1 1).height.toNat * (size 1 1).channels.toNat ∧
    22 + (size 1 1).width.toNat * (size 1 1).height.toNat * ((size 1 1).channels.toNat + 1) ≤
      (encodeOf (size 1 1) [1, 2, 3, 4]).outCap := by decide

theorem witness_EncodeStartsFresh : (asked (encodeOf (size 1 1) [1, 2, 3, 4])).phase = .idle ∧
    validDesc (size 1 1) = true ∧
    (encodeOf (size 1 1) [1, 2, 3, 4]).inp.len = (size 1 1).pixels * (size 1 1).stride ∧
    encodeBound (size 1 1) ≤ (encodeOf (size 1 1) [1, 2, 3, 4]).outCap := by decide

/-- One byte too little, for each command. -/
theorem witness_LaunchWithoutRoomIsRefused : 26 < 22 + (size 1 1).pixels * ((size 1 1).stride + 1) ∧
    validDesc (size 1 1) = true ∧ parse (onePixel.take 14) = .ok (size 1 1) ∧
    3 < (size 1 1).pixels * (size 1 1).stride := by decide

theorem witness_EncoderReadsThePixel :
    let s := { encoding 2 [1, 2, 3, 4, 5, 6, 7, 8] with pos := 1 }
    s.desc.channels = 4 ∧ s.pos * s.desc.stride + s.desc.stride = s.inp.len := by decide

/-- At run 61, at the last pixel, and at neither. -/
theorem witness_EqualPixelExtendsTheRun :
    let s := encoding 2 [0, 0, 0, 255, 0, 0, 0, 255]
    s.phase = .encoding ∧ readPixel s = some Pixel.start ∧ Pixel.start = s.prev ∧ s.out.wf = true ∧
    ¬(s.run.toNat + 1 = 62 ∨ s.pos + 1 = s.desc.pixels) ∧
    ({ s with run := 61 } : State).run.toNat + 1 = 62 ∧
    ({ s with pos := 1 } : State).pos + 1 = s.desc.pixels ∧ readPixel { s with pos := 1 } = some Pixel.start := by
  decide

theorem witness_CacheHitEmitsIndex :
    let s := encoding 1 [0, 0, 0, 0]
    s.phase = .encoding ∧ readPixel s = some Pixel.zero ∧ Pixel.zero ≠ s.prev ∧
    cacheGet s.encCache (hash Pixel.zero) = Pixel.zero ∧ s.out.wf = true := by decide

/-- A pixel that misses the start cache. -/
def red : Pixel := { r := 10, g := 0, b := 0, a := 255 }

theorem witness_CacheMissStoresAndEmits :
    let s := encoding 1 [10, 0, 0, 255]
    s.phase = .encoding ∧ readPixel s = some red ∧ red ≠ s.prev ∧ cacheGet s.encCache (hash red) ≠ red ∧
    s.out.wf = true := by decide

theorem witness_EncoderWritesItsCacheOnlyOnAMiss :
    let s := encoding 1 [10, 0, 0, 255]
    s.phase = .encoding ∧ readPixel s = some red ∧ (∃ t, step s = .next t) ∧ red ≠ s.prev ∧
    cacheGet s.encCache (hash red) ≠ red ∧
    (let u := encoding 1 [0, 0, 0, 255]
     readPixel u = some u.prev ∧ ∃ t, step u = .next t) :=
  ⟨by decide, by decide, ⟨_, rfl⟩, by decide, by decide, by decide, ⟨_, rfl⟩⟩

/-- Deltas at the limits of DIFF and of LUMA, just outside both, and a changed alpha. -/
theorem witness_LiteralChoiceFollowsTheDeltas :
    MovedBy 0 254 (-2) ∧ MovedBy 255 0 1 ∧ MovedBy 100 68 (-32) ∧ MovedBy 100 60 (-40) ∧ MovedBy 100 75 (-25) ∧
    MovedBy 100 132 32 ∧ Pixel.zero.a ≠ Pixel.start.a := by
  unfold MovedBy
  decide

theorem witness_CrossDeltaWrappingDoesNotMatter : s8diff 68 100 = -32 ∧ s8diff 31 0 = 31 := by decide

theorem witness_ChosenOpReproducesThePixel :
    Fits (before [0xFE, 200, 100, 50] Pixel.start)
      (chooseOp { r := 200, g := 100, b := 50, a := 255 } Pixel.start).length := .inr (by decide)

/-- Two cached pixels one after the other. -/
def twoHits : State :=
  let q : Pixel := { r := 1, g := 0, b := 0, a := 0 }
  { encoding 3 [0, 0, 0, 0, 1, 0, 0, 0, 9, 9, 9, 9] with encCache := cacheSet Cache.start (hash q) q }

theorem witness_IndexIsNeverRepeated :
    let q : Pixel := { r := 1, g := 0, b := 0, a := 0 }
    twoHits.phase = .encoding ∧ readPixel twoHits = some Pixel.zero ∧ Pixel.zero ≠ twoHits.prev ∧
    cacheGet twoHits.encCache (hash Pixel.zero) = Pixel.zero ∧
    ∃ t, step twoHits = .next t ∧ t.phase = .encoding ∧ readPixel t = some q ∧ q ≠ t.prev ∧
      cacheGet t.encCache (hash q) = q :=
  ⟨rfl, by decide, by decide, by decide, _, rfl, by decide, by decide, by decide, by decide⟩

/-- Both commands failing at their start, and both ending a last pixel step. -/
theorem witness_EachCommandHasItsOwnFailure :
    (∃ t, step (asked (encodeOf (size 0 1) [])) = .next t ∧
      t.result = some { status := .invalidDescription, outLen := 0, desc := none }) ∧
    (∃ t, step (asked (decodeOf [])) = .next t ∧
      t.result = some { status := .malformedStream, outLen := 0, desc := none }) ∧
    (∃ t, step (encoding 1 [0, 0, 0, 0]) = .next t ∧
      t.result = some { status := .ok, outLen := 23, desc := none }) ∧
    (∃ t, step (before [] Pixel.start) = .next t ∧
      t.result = some { status := .malformedStream, outLen := 0, desc := none }) ∧
    State.reset.result = none :=
  ⟨⟨_, rfl, by decide⟩, ⟨_, rfl, by decide⟩, ⟨_, rfl, by decide⟩, ⟨_, rfl, by decide⟩, rfl⟩

theorem witness_HostReadsAreRefusedWithoutAResult : State.reset.result = none ∧ State.reset.phase = .idle ∧
    (before [] Pixel.start).phase ≠ .idle ∧ Status.malformedStream ≠ .ok := by decide

/-- The invariant between the pixel steps of a DECODE. -/
theorem inv_before : Inv (before [0x5A] Pixel.start) where
  cfg := by decide
  inp := by decide
  out := by decide
  requests := by intro r hr; cases hr
  encCache := cacheWf_start
  decCache := cacheWf_start
  encoding := by intro h; cases h
  decoding := by
    intro _
    exact ⟨by decide, by decide, by decide, by decide, by decide, by decide, by decide, by decide, by decide,
      by decide, by intro c hc; cases hc⟩
  result := by intro r hr; cases hr
  output := by intro h; cases h

/-- The invariant between the pixel steps of an ENCODE. -/
theorem inv_encoding : Inv (encoding 1 [0, 0, 0, 255]) where
  cfg := by decide
  inp := by decide
  out := by decide
  requests := by intro r hr; cases hr
  encCache := cacheWf_start
  decCache := cacheWf_start
  encoding := by
    intro _
    exact ⟨by decide, by decide, by decide, by decide, by decide, by decide, by decide, by decide, by decide,
      by decide⟩
  decoding := by intro h; cases h
  result := by intro r hr; cases hr
  output := by intro h; cases h

theorem witness_HardwareResetAbandonsTheCommand : Inv (before [0x5A] Pixel.start) := inv_before

theorem witness_StepKeepsTheInvariant :
    (Inv (before [0x5A] Pixel.start) ∧ ∃ t, step (before [0x5A] Pixel.start) = .next t) ∧
    (Inv (encoding 1 [0, 0, 0, 255]) ∧ ∃ t, step (encoding 1 [0, 0, 0, 255]) = .next t) :=
  ⟨⟨inv_before, _, rfl⟩, inv_encoding, _, rfl⟩

theorem witness_NoStepReadsOutsideTheInput : Inv (encoding 1 [0, 0, 0, 255]) := inv_encoding

theorem witness_StepKeepsMemoryCanonical : (before [0x5A] Pixel.start).out.wf = true ∧
    (before [0x5A] Pixel.start).inp.wf = true ∧ (before [0x5A] Pixel.start).requests = [] ∧
    ∃ t, step (before [0x5A] Pixel.start) = .next t := ⟨by decide, by decide, rfl, _, rfl⟩

theorem witness_StepKeepsCacheSlotsHashed : CacheWf (before [0x5A] Pixel.start).encCache ∧
    CacheWf (before [0x5A] Pixel.start).decCache ∧ ∃ t, step (before [0x5A] Pixel.start) = .next t :=
  ⟨cacheWf_start, cacheWf_start, _, rfl⟩

theorem witness_CursorsFitTheirWidth : Inv (before [0x5A] Pixel.start) ∧
    (before [0x5A] Pixel.start).phase ≠ .idle ∧ (before [0x5A] Pixel.start).phase = .decoding :=
  ⟨inv_before, by decide, rfl⟩

theorem witness_StepLeavesParametersAndInputAlone : (∃ t, step (before [0x5A] Pixel.start) = .next t) ∧
    (before [0x5A] Pixel.start).phase ≠ .idle ∧ (∃ t, step (asked (decodeOf [])) = .next t) ∧
    (asked (decodeOf [])).phase = .idle := ⟨⟨_, rfl⟩, by decide, ⟨_, rfl⟩, rfl⟩

theorem witness_ColorspaceIsNeverRead : (before [0x5A] Pixel.start).phase ≠ .idle ∧
    (∃ t, step (before [0x5A] Pixel.start) = .next t ∧ t.phase = .decoding) ∧
    (encoding 1 [0, 0, 0, 255]).phase = .encoding ∧ ∃ t, step (encoding 1 [0, 0, 0, 255]) = .next t :=
  ⟨by decide, ⟨_, rfl, by decide⟩, rfl, _, rfl⟩

theorem witness_EveryCommandTerminates : Inv (encoding 1 [0, 0, 0, 255]) ∧
    (encoding 1 [0, 0, 0, 255]).phase = .encoding ∧ Inv (before [0x5A] Pixel.start) ∧
    (before [0x5A] Pixel.start).phase = .decoding := ⟨inv_encoding, rfl, inv_before, rfl⟩

theorem witness_EncodeWritesAWellFormedStream : Asked (asked (encodeOf (size 1 1) [1, 2, 3, 4]))
      { cmd := .encode (size 1 1), inp := Space.ofBytes [1, 2, 3, 4], outCap := 27 } ∧
    validDesc (size 1 1) = true ∧ (Space.ofBytes [1, 2, 3, 4]).len = (size 1 1).pixels * (size 1 1).stride ∧
    encodeBound (size 1 1) ≤ 27 := ⟨⟨rfl, rfl⟩, by decide, by decide, by decide⟩

/-- The encoding side, and the decoding side on what V-1x1-1 says ENCODE writes. -/
theorem witness_DecodeOfEncodeIsLossless : Asked (asked (encodeOf (size 1 1) [0, 0, 0, 255]))
      { cmd := .encode (size 1 1), inp := Space.ofBytes [0, 0, 0, 255], outCap := 27 } ∧
    validDesc (size 1 1) = true ∧ [0, 0, 0, (255 : Byte)].length = (size 1 1).pixels * (size 1 1).stride ∧
    encodeBound (size 1 1) ≤ 27 ∧ (asked (decodeOf onePixel)).cfg.wf = true ∧
    Asked (asked (decodeOf onePixel)) { cmd := .decode, inp := Space.ofBytes onePixel, outCap := 100 } ∧
    (size 1 1).pixels * (size 1 1).stride ≤ 100 :=
  ⟨⟨rfl, rfl⟩, by decide, by decide, by decide, by decide, ⟨rfl, rfl⟩, by decide⟩

/-- Two blocks with different registers, caches and results that are asked the same, and whose first step answers. -/
theorem witness_ResultDependsOnOperandsOnly :
    let s := asked (decodeOf onePixel)
    let u : State := { s with px := Pixel.zero, run := 5, rd := 77, result := some { status := .ok, outLen := 3, desc := none } }
    Asked s (decodeOf onePixel) ∧ Asked u (decodeOf onePixel) ∧ s.cfg = u.cfg ∧
    ∃ t, runFor 1 s = .next t := ⟨⟨rfl, rfl⟩, ⟨rfl, rfl⟩, rfl, _, rfl⟩

theorem witness_UniformStartImageEncodesAsRuns :
    Asked (asked (encodeOf (size 63 1) (List.replicate (size 63 1).pixels (pixelBytes (size 63 1) Pixel.start)).flatten))
      { cmd := .encode (size 63 1)
        inp := Space.ofBytes (List.replicate (size 63 1).pixels (pixelBytes (size 63 1) Pixel.start)).flatten
        outCap := encodeBound (size 63 1) } ∧
    validDesc (size 63 1) = true ∧ runOps 63 = [.run 62, .run 1] := ⟨⟨rfl, rfl⟩, by decide, by decide⟩

/-- A truncated op under FAIL, whose operand bytes would be marker bytes, with another marker; and under REFERENCE, with
another byte only where no op byte is read. -/
theorem witness_NoOpByteIsReadAboveItsBound :
    let s := before [0xFE, 1, 2] Pixel.start
    let v := lenient s
    let other := s.inp.cells.write 17 9
    let above := s.inp.cells.write 21 9
    s.phase = .decoding ∧ 22 ≤ s.inp.len ∧ (∀ a < s.inp.len - 8, other.read a = s.inp.cells.read a) ∧
    s.cfg.truncation = .fail ∧ (∃ t, step s = .next t) ∧ s.pos + 1 < s.desc.pixels ∧ other ≠ s.inp.cells ∧
    v.cfg.truncation = .reference ∧ (∀ a < v.inp.len - 4, above.read a = v.inp.cells.read a) ∧
    (∃ t, step v = .next t) ∧ above ≠ v.inp.cells :=
  ⟨rfl, by decide, by decide, rfl, ⟨_, rfl⟩, by decide, by decide, rfl, by decide, ⟨_, rfl⟩, by decide⟩

/-- A truncated op is reported from its tag: a fetch reads no operand byte of it (rules R51, R166). -/
theorem test_fetch_truncated : next? id (fetchOp (before [0xFE, 1, 2] Pixel.start)) = some .truncated ∧
    readOpBytes (before [0xFE, 1, 2] Pixel.start) 4 = none := by decide

end Sys2Proof.Tests
end

section
/-! What a step can do, said once for each phase, and what it leaves alone (rules R9, R21, R62, R64). -/

namespace Sys2Proof.Machine

/-! ### The start of a command -/

variable (d : Desc) (r : Request) (s : State)

@[simp] theorem beginEncode_cfg : (beginEncode d r s).cfg = s.cfg := rfl
@[simp] theorem beginEncode_requests : (beginEncode d r s).requests = s.requests := rfl
@[simp] theorem beginDecode_cfg : (beginDecode d r s).cfg = s.cfg := rfl
@[simp] theorem beginDecode_requests : (beginDecode d r s).requests = s.requests := rfl

variable {d r s} {t : State}

/-- An ENCODE that answers fails one of its checks, or passes all of them and begins (rules R120 to R123, R253). -/
theorem startEncode_cases (h : startEncode d r s = .next t) :
    ((validDesc d = false ∨ r.inp.len ≠ d.pixels * d.stride) ∧ t = s.raise .invalidDescription) ∨
      (validDesc d = true ∧ r.inp.len = d.pixels * d.stride ∧ encodeBound d ≤ r.outCap ∧ t = beginEncode d r s) := by
  unfold startEncode at h
  split_ifs at h with hvalid hlen hroom <;> cases h
  · exact .inl ⟨.inl (by simpa using hvalid), rfl⟩
  · exact .inl ⟨.inr hlen, rfl⟩
  · exact .inr ⟨by simpa using hvalid, not_not.mp hlen, not_lt.mp hroom, rfl⟩

/-- A DECODE that answers has an admitted length; it is too short, or its header does not parse, or it begins with the
description its header gives (rules R160 to R163, R253). -/
theorem startDecode_cases (h : startDecode r s = .next t) :
    r.inp.len ≤ 2 ^ s.cfg.cursorBits - 1 ∧
      ((r.inp.len < minStreamBytes ∧ t = s.raise .malformedStream) ∨
        (minStreamBytes ≤ r.inp.len ∧ ∃ bs, r.inp.memRead 0 headerBytes = some bs ∧
          ((∃ e, parse bs = .error e ∧ t = s.raise .malformedStream) ∨
            ∃ d, parse bs = .ok d ∧ d.pixels * d.stride ≤ r.outCap ∧ t = beginDecode d r s))) := by
  unfold startDecode at h
  split_ifs at h with hlong hshort
  · cases h
    exact ⟨not_lt.mp hlong, .inl ⟨hshort, rfl⟩⟩
  · refine ⟨not_lt.mp hlong, .inr ⟨not_lt.mp hshort, ?_⟩⟩
    cases hread : r.inp.memRead 0 headerBytes with
    | none => simp [hread] at h
    | some bs =>
      refine ⟨bs, rfl, ?_⟩
      cases hparse : parse bs with
      | error e =>
        simp only [hread, hparse] at h
        cases h
        exact .inl ⟨e, rfl, rfl⟩
      | ok d =>
        simp only [hread, hparse] at h
        split_ifs at h with hroom
        cases h
        exact .inr ⟨d, rfl, not_lt.mp hroom, rfl⟩

/-- The start of an ENCODE leaves the parameters and the issued commands alone. -/
theorem startEncode_frame (h : startEncode d r s = .next t) : t.cfg = s.cfg ∧ t.requests = s.requests := by
  rcases startEncode_cases h with ⟨_, rfl⟩ | ⟨_, _, _, rfl⟩ <;> simp

/-- The start of a DECODE leaves the parameters and the issued commands alone. -/
theorem startDecode_frame (h : startDecode r s = .next t) : t.cfg = s.cfg ∧ t.requests = s.requests := by
  rcases startDecode_cases h with ⟨_, ⟨_, rfl⟩ | ⟨_, _, _, ⟨_, _, rfl⟩ | ⟨_, _, _, rfl⟩⟩⟩ <;> simp

/-- An idle step that answers stays as it is with no command issued; else it takes the oldest one and starts it (rules
R226, R235). -/
theorem startNext_cases (h : startNext s = .next t) :
    (s.requests = [] ∧ t = s) ∨
      ∃ r rest, s.requests = r :: rest ∧
        ((∃ d, r.cmd = .encode d ∧ startEncode d r { s with requests := rest } = .next t) ∨
          (r.cmd = .decode ∧ startDecode r { s with requests := rest } = .next t)) := by
  unfold startNext at h
  cases hreq : s.requests with
  | nil =>
    simp only [hreq] at h
    cases h
    exact .inl ⟨rfl, rfl⟩
  | cons r rest =>
    refine .inr ⟨r, rest, rfl, ?_⟩
    cases hcmd : r.cmd with
    | encode d =>
      simp only [hreq, hcmd] at h
      exact .inl ⟨d, rfl, h⟩
    | decode =>
      simp only [hreq, hcmd] at h
      exact .inr ⟨rfl, h⟩

/-- An idle step writes no parameter and takes at most the oldest issued command. -/
theorem startNext_frame (h : startNext s = .next t) : t.cfg = s.cfg ∧ t.requests = s.requests.drop 1 := by
  rcases startNext_cases h with ⟨hnone, rfl⟩ | ⟨r, rest, hreq, ⟨d, _, hstart⟩ | ⟨_, hstart⟩⟩
  · simp [hnone]
  · obtain ⟨hcfg, hrest⟩ := startEncode_frame hstart
    exact ⟨hcfg, by simp [hrest, hreq]⟩
  · obtain ⟨hcfg, hrest⟩ := startDecode_frame hstart
    exact ⟨hcfg, by simp [hrest, hreq]⟩

/-! ### A pixel step of the encoder -/

theorem EncodeFrame.trans {u : State} (h1 : EncodeFrame s t) (h2 : EncodeFrame t u) : EncodeFrame s u where
  cfg := h2.cfg.trans h1.cfg
  requests := h2.requests.trans h1.requests
  inp := h2.inp.trans h1.inp
  outCap := h2.outCap.trans h1.outCap
  desc := h2.desc.trans h1.desc
  px := h2.px.trans h1.px
  decCache := h2.decCache.trans h1.decCache
  rd := h2.rd.trans h1.rd

theorem encodeOne_frame (px : Pixel) (s : State) : EncodeFrame s (encodeOne px s) := by
  obtain ⟨o, w, n, c, h⟩ := encodeOne_eq px s
  rw [h]
  constructor <;> rfl

theorem encodeAdvance_frame (s : State) : EncodeFrame s (encodeAdvance s) := by
  unfold encodeAdvance
  split_ifs <;> constructor <;> rfl

/-- A pixel step of the encoder that answers read a pixel and encoded it (rule R124). -/
theorem encodePixel_eq_next (h : encodePixel s = .next t) :
    ∃ px, readPixel s = some px ∧ t = encodeAdvance (encodeOne px s) := by
  unfold encodePixel at h
  cases hread : readPixel s with
  | none => simp [hread] at h
  | some px =>
    simp only [hread] at h
    cases h
    exact ⟨px, rfl, rfl⟩

theorem encodePixel_frame (h : encodePixel s = .next t) : EncodeFrame s t := by
  obtain ⟨px, _, rfl⟩ := encodePixel_eq_next h
  exact (encodeOne_frame px s).trans (encodeAdvance_frame _)

/-! ### A pixel step of the decoder -/

theorem DecodeFrame.refl (s : State) : DecodeFrame s s := by constructor <;> rfl

theorem DecodeFrame.trans {u : State} (h1 : DecodeFrame s t) (h2 : DecodeFrame t u) : DecodeFrame s u where
  cfg := h2.cfg.trans h1.cfg
  requests := h2.requests.trans h1.requests
  inp := h2.inp.trans h1.inp
  outCap := h2.outCap.trans h1.outCap
  desc := h2.desc.trans h1.desc
  prev := h2.prev.trans h1.prev
  encCache := h2.encCache.trans h1.encCache

theorem raise_decodeFrame (s : State) (st : Status) : DecodeFrame s (s.raise st) := by constructor <;> rfl

theorem continueRun_frame (s : State) : DecodeFrame s (continueRun s) := by constructor <;> rfl

theorem exhausted_frame (s : State) : DecodeFrame s (exhausted s) := by
  unfold exhausted
  split_ifs
  · exact raise_decodeFrame s _
  · exact .refl s

theorem exec_frame {i : Instr} (h : exec i s = .next t) : DecodeFrame s t := by
  rcases exec_cases i s with ⟨_, _, he⟩ | ⟨_, _, he⟩ | ⟨_, _, _, _, he⟩ <;>
    (rw [he] at h; cases h; constructor <;> rfl)

theorem completeUnlessRaised_frame (s : State) : DecodeFrame s (completeUnlessRaised s) := by
  unfold completeUnlessRaised
  split_ifs
  · obtain ⟨ph, po, res, h⟩ := completePixel_eq s
    rw [h]
    constructor <;> rfl
  · exact .refl s

theorem afterOp_eq_next {o : Host.Outcome State Fault Refusal} (h : afterOp o = .next t) :
    ∃ u, o = .next u ∧ t = completeUnlessRaised u := by
  cases o with
  | next u => cases h; exact ⟨u, rfl, rfl⟩
  | fault f => cases h
  | refused e => cases h

/-- Everything a pixel step of the decoder that answers can do, by the source of its pixel (rule R164). -/
theorem decodePixel_cases (h : decodePixel s = .next t) :
    (pixelSource s = .next .runs ∧ t = completeUnlessRaised (continueRun s)) ∨
      (∃ i u, pixelSource s = .next (.op i) ∧ exec i s = .next u ∧ t = completeUnlessRaised u) ∨
      (pixelSource s = .next .truncated ∧ t = s.raise .malformedStream) ∨
      (pixelSource s = .next .exhausted ∧ t = completeUnlessRaised (exhausted s)) := by
  unfold decodePixel at h
  split at h
  case h_1 hsrc => cases h; exact .inl ⟨hsrc, rfl⟩
  case h_2 i hsrc =>
    obtain ⟨u, hexec, ht⟩ := afterOp_eq_next h
    exact .inr (.inl ⟨i, u, hsrc, hexec, ht⟩)
  case h_3 hsrc => cases h; exact .inr (.inr (.inl ⟨hsrc, rfl⟩))
  case h_4 hsrc => cases h; exact .inr (.inr (.inr ⟨hsrc, rfl⟩))
  case h_5 => cases h
  case h_6 => cases h

theorem decodePixel_frame (h : decodePixel s = .next t) : DecodeFrame s t := by
  rcases decodePixel_cases h with ⟨_, rfl⟩ | ⟨i, u, _, hexec, rfl⟩ | ⟨_, rfl⟩ | ⟨_, rfl⟩
  · exact (continueRun_frame s).trans (completeUnlessRaised_frame _)
  · exact (exec_frame hexec).trans (completeUnlessRaised_frame u)
  · exact raise_decodeFrame s _
  · exact (exhausted_frame s).trans (completeUnlessRaised_frame _)

end Sys2Proof.Machine
end

section
/-! The scope of a step (rules R9, R21, R62, R64): the statement O51, from the frames of the three phases. -/

open Sys2Proof Sys2Proof.Machine

/-- Settles O51: by the phase, each kind of step keeps its frame. -/
theorem stepLeavesParametersAndInputAlone : Obligations.StepLeavesParametersAndInputAlone := by
  intro s t h
  cases hphase : s.phase with
  | idle =>
    rw [step_idle hphase] at h
    obtain ⟨hcfg, hreq⟩ := startNext_frame h
    exact ⟨hcfg, fun hbusy => absurd rfl hbusy, fun _ => hreq⟩
  | encoding =>
    rw [step_encoding hphase] at h
    have hf := encodePixel_frame h
    exact ⟨hf.cfg, fun _ => ⟨hf.inp, hf.desc, hf.outCap, hf.requests⟩, nofun⟩
  | decoding =>
    rw [step_decoding hphase] at h
    have hf := decodePixel_frame h
    exact ⟨hf.cfg, fun _ => ⟨hf.inp, hf.desc, hf.outCap, hf.requests⟩, nofun⟩

end

section
/-! The bounds of a legal description, and that what the header and the op bytes decode to is legal (rules R82, R106,
R107). -/

namespace Sys2Proof.Machine

/-- A legal description has fewer pixels than the ceiling (rule R106). -/
theorem pixels_lt_of_validDesc {d : Desc} (h : validDesc d = true) : d.pixels < 400000000 := by
  obtain ⟨hw, -, -, -, hceil⟩ := validDesc_iff.1 h
  have hw0 : 0 < d.width.toNat := by bv_omega
  have hle : (d.height.toNat + 1) * d.width.toNat ≤ 400000000 := (Nat.le_div_iff_mul_le hw0).1 hceil
  calc d.pixels = d.height.toNat * d.width.toNat := Nat.mul_comm _ _
    _ < (d.height.toNat + 1) * d.width.toNat := Nat.mul_lt_mul_of_pos_right (Nat.lt_succ_self _) hw0
    _ ≤ 400000000 := hle

/-- A legal description has a pixel: neither dimension is 0 (rule R107). -/
theorem pixels_pos_of_validDesc {d : Desc} (h : validDesc d = true) : 0 < d.pixels := by
  obtain ⟨hw, hh, -, -, -⟩ := validDesc_iff.1 h
  exact Nat.mul_pos (by bv_omega) (by bv_omega)

/-- The room an ENCODE asks for fits 31 bits (rules R32, R137). -/
theorem encodeBound_lt_of_validDesc {d : Desc} (h : validDesc d = true) : encodeBound d < 2 ^ 31 := by
  have hN := pixels_lt_of_validDesc h
  unfold encodeBound
  rcases stride_of_validDesc h with ⟨-, hs⟩ | ⟨-, hs⟩ <;> rw [hs] <;> omega

/-- The pixel buffer of a legal description is shorter than the largest stream of it (rule R137). -/
theorem bufferLength_lt_encodeBound (d : Desc) : d.pixels * d.stride < encodeBound d := by
  unfold encodeBound
  rw [Nat.mul_add]
  omega

/-- The checks of rule R107 answer the description they were given, a legal one. -/
theorem checkDesc_eq_ok {d d' : Desc} (h : checkDesc d = .ok d') : d' = d ∧ validDesc d' = true := by
  unfold checkDesc at h
  split_ifs at h with hdim htag hceil
  cases h
  refine ⟨rfl, ?_⟩
  simpa [validDesc, not_or, and_assoc] using And.intro hdim (And.intro htag hceil)

/-- A parsed description is a legal one (rule R107). -/
theorem validDesc_of_parse {bs : List Byte} {d : Desc} (h : parse bs = .ok d) : validDesc d = true := by
  unfold parse at h
  split at h
  · split_ifs at h
    exact (checkDesc_eq_ok h).2
  · cases h

/-- No op is longer than RGBA (rule R74). -/
theorem length_le_maxOpBytes (i : Instr) : i.length ≤ maxOpBytes := by
  cases i <;> simp [Instr.length, maxOpBytes]

/-- An op is written in as many bytes as it is long (rules R74, R82). -/
theorem encode_length (i : Instr) : (encode i).length = i.length := by
  cases i <;> rfl

/-- A field lies below the power of two of its width (rule R10). -/
theorem bits_lt (b : Byte) (hi lo : Nat) : bits b hi lo < 2 ^ (hi - lo + 1) :=
  Nat.mod_lt _ (by positivity)

/-- The six low bits of a byte under the tag 11 are 62 or 63 only in the two full-byte tags (rules R74, R78). -/
theorem runField_le : ∀ b : Byte, b ≠ 0xFE → b ≠ 0xFF → bits b 7 6 = 3 → bits b 5 0 ≤ 61 := by decide

/-- Every decoded op has its operands in range (rule R82). -/
theorem wf_of_decode {bs tail : List Byte} {i : Instr} (h : decode bs = .ok (i, tail)) : i.wf = true := by
  cases bs with
  | nil => cases h
  | cons b1 rest =>
    simp only [decode] at h
    split_ifs at h with hFE hFF h0 h1 h2
    · split at h <;> cases h; rfl
    · split at h <;> cases h; rfl
    · cases h; rfl
    · cases h
      have := bits_lt b1 5 4; have := bits_lt b1 3 2; have := bits_lt b1 1 0
      simp only [Instr.wf, inRange, Bool.and_eq_true, decide_eq_true_eq]
      omega
    · split at h <;> cases h
      rename_i b2
      have := bits_lt b1 5 0; have := bits_lt b2 7 4; have := bits_lt b2 3 0
      simp only [Instr.wf, inRange, Bool.and_eq_true, decide_eq_true_eq]
      omega
    · cases h
      have := bits_lt b1 7 6
      have := runField_le b1 hFE hFF (by omega)
      simp only [Instr.wf, maxRun, Bool.and_eq_true, decide_eq_true_eq]
      omega

/-- A source that is an op was fetched before the marker region and has its operands in range (rules R82, R166). -/
theorem pixelSource_eq_op {s : State} {i : Instr} (h : pixelSource s = .next (.op i)) :
    s.rd < streamEnd s ∧ i.wf = true := by
  rcases pixelSource_cases s with ⟨-, hs⟩ | ⟨-, -, hs⟩ | ⟨-, hrd, hs⟩
  · rw [hs] at h; cases h
  · rw [hs] at h; cases h
  · refine ⟨hrd, ?_⟩
    rcases fetchOp_cases hrd with ⟨-, hf⟩ | ⟨-, hf⟩ <;> rw [hs, hf] at h
    · cases h
    · unfold decodeOp at h
      split at h <;> cases h
      exact wf_of_decode ‹_›

/-- A source that is a run has a pixel left in it (rule R164). -/
theorem run_ne_zero_of_pixelSource {s : State} (h : pixelSource s = .next .runs) : s.run ≠ 0 := by
  intro hrun
  rcases pixelSource_cases s with ⟨hne, -⟩ | ⟨-, -, hs⟩ | ⟨-, hrd, hs⟩
  · exact hne hrun
  · rw [hs] at h; cases h
  · rcases fetchOp_cases hrd with ⟨-, hf⟩ | ⟨-, hf⟩ <;> rw [hs, hf] at h
    · cases h
    · unfold decodeOp at h
      split at h <;> cases h

end Sys2Proof.Machine
end

section
/-! The part of the invariant that does not look at the phase: what each operation of the block does to it. -/

namespace Sys2Proof.Machine

/-- The clauses of `Inv` that do not depend on the phase. Every operation inside a step keeps them, also between the
two halves of a pixel step, where `Inv` itself need not hold. -/
structure BaseInv (s : State) : Prop where
  cfg : s.cfg.wf = true
  inp : s.inp.wf = true
  out : s.out.wf = true
  requests : ∀ r ∈ s.requests, r.inp.wf = true
  encCache : CacheWf s.encCache
  decCache : CacheWf s.decCache
  result : ∀ r, s.result = some r → ResultInv r

variable {s : State}

theorem Inv.base (h : Inv s) : BaseInv s :=
  ⟨h.cfg, h.inp, h.out, h.requests, h.encCache, h.decCache, h.result⟩

/-! ### From the base to the invariant, by the phase -/

theorem BaseInv.inv_of_encoding (h : BaseInv s) (hphase : s.phase = .encoding) (henc : EncInv s) : Inv s :=
  { h with
    encoding := fun _ => henc
    decoding := fun e => by simp [hphase] at e
    output := fun e => by simp [hphase] at e }

theorem BaseInv.inv_of_decoding (h : BaseInv s) (hphase : s.phase = .decoding) (hdec : DecInv s) : Inv s :=
  { h with
    encoding := fun e => by simp [hphase] at e
    decoding := fun _ => hdec
    output := fun e => by simp [hphase] at e }

/-- A command that ends with a legal result, and with OUT inside the output it reports, leaves the invariant. -/
theorem BaseInv.inv_finish (h : BaseInv s) {r : Result} (hr : ResultInv r)
    (hout : r.status = .ok → (∀ c ∈ s.out, c.1 < r.outLen) ∧ r.outLen ≤ s.outCap) : Inv (s.finish r) :=
  { h with
    encoding := nofun
    decoding := nofun
    result := fun r' e => by cases e; exact hr
    output := fun _ r' e hok => by cases e; exact hout hok }

/-- The result of a failure has the legal shape (rule R224). -/
theorem resultInv_failed (st : Status) : ResultInv { status := st, outLen := 0, desc := none } where
  failed _ := ⟨rfl, rfl⟩
  desc := nofun
  fits := by simp

/-- A failure leaves the invariant (rule R224). -/
theorem BaseInv.inv_raise (h : BaseInv s) {st : Status} (hst : st ≠ .ok) : Inv (s.raise st) :=
  h.inv_finish (resultInv_failed st) fun hok => absurd hok hst

/-! ### The operations keep the base -/

theorem BaseInv.emit (h : BaseInv s) (bs : List Byte) : BaseInv (s.emit bs) :=
  { h with out := wf_emit bs h.out }

theorem BaseInv.writePixel (h : BaseInv s) : BaseInv (writePixel s) :=
  { h with out := Memory.wf_writeBytes h.out _ _ }

theorem BaseInv.storePx (h : BaseInv s) : BaseInv s.storePx :=
  { h with decCache := cacheWf_set h.decCache s.px }

theorem BaseInv.storeEnc (h : BaseInv s) (p : Pixel) : BaseInv (s.storeEnc p) :=
  { h with encCache := cacheWf_set h.encCache p }

theorem BaseInv.setPx (h : BaseInv s) (p : Pixel) : BaseInv (s.setPx p) := { h with }

theorem BaseInv.setPrev (h : BaseInv s) (p : Pixel) : BaseInv (s.setPrev p) := { h with }

theorem BaseInv.setRun (h : BaseInv s) (n : BitVec 6) : BaseInv (s.setRun n) := { h with }

theorem BaseInv.advanceRd (h : BaseInv s) (n : Nat) : BaseInv (s.advanceRd n) := { h with }

theorem BaseInv.advancePos (h : BaseInv s) : BaseInv s.advancePos := { h with }

end Sys2Proof.Machine
end

section
/-! One pixel step of the encoder keeps the invariant: the output bound of rule R137, op by op (rules R124 to R137). -/

namespace Sys2Proof.Machine

/-- With `k` pixels read, the output covers the pixels before the pending run, each with at most `channels + 1` bytes
after the header (rule R137). `EncInv` has this with `k = pos`; inside a pixel step `k` runs ahead of `pos`. -/
structure CoversPixels (k : Nat) (s : State) : Prop where
  pending : s.run.toNat ≤ k
  header : 14 ≤ s.wr
  bound : s.wr ≤ 14 + (k - s.run.toNat) * (s.desc.stride + 1)
  out : ∀ c ∈ s.out, c.1 < s.wr

variable {s t : State} {k : Nat} {px : Pixel}

theorem EncInv.coversPixels (h : EncInv s) : CoversPixels s.pos s := ⟨h.pending, h.header, h.bound, h.out⟩

theorem CoversPixels.setPrev (h : CoversPixels k s) (p : Pixel) : CoversPixels k (s.setPrev p) := { h with }

theorem CoversPixels.storeEnc (h : CoversPixels k s) (p : Pixel) : CoversPixels k (s.storeEnc p) := { h with }

/-- A pixel that joins the pending run is read, and not yet written (rule R126). -/
theorem CoversPixels.growRun (h : CoversPixels k s) (hrun : s.run.toNat ≤ 61) :
    CoversPixels (k + 1) (s.setRun (s.run + 1)) ∧ (s.run + 1).toNat = s.run.toNat + 1 := by
  have hinc : (s.run + 1).toNat = s.run.toNat + 1 := by bv_omega
  refine ⟨⟨?_, h.header, ?_, h.out⟩, hinc⟩
  · have := h.pending
    rw [State.setRun_run]; omega
  · rw [State.setRun_run, hinc, Nat.add_sub_add_right]
    exact h.bound

/-- One byte says the whole run: its pixels, at least one, are covered (rules R127, R128). -/
theorem CoversPixels.flushRun (h : CoversPixels k s) (hrun : s.run ≠ 0) : CoversPixels k (flushRun s) where
  pending := Nat.zero_le _
  header := Nat.le_add_right_of_le h.header
  bound := by
    have hpos : s.run.toNat ≠ 0 := by bv_omega
    have hsplit : k - s.run.toNat + 1 ≤ k := by have := h.pending; omega
    calc s.wr + 1 ≤ 14 + (k - s.run.toNat) * (s.desc.stride + 1) + 1 := Nat.succ_le_succ h.bound
      _ ≤ 14 + (k - s.run.toNat + 1) * (s.desc.stride + 1) := by rw [Nat.add_mul]; omega
      _ ≤ 14 + k * (s.desc.stride + 1) := Nat.add_le_add_left (Nat.mul_le_mul_right _ hsplit) _
  out := emit_below _ h.out

theorem CoversPixels.flushPending (h : CoversPixels k s) : CoversPixels k (flushPending s) := by
  unfold Machine.flushPending
  split_ifs with hrun
  · exact h
  · exact h.flushRun hrun

/-- With no run pending, one op of at most `channels + 1` bytes covers one more pixel (rule R137). -/
theorem CoversPixels.emitOp (h : CoversPixels k s) (hrun : s.run = 0) {i : Instr} (hi : i.length ≤ s.desc.stride + 1) :
    CoversPixels (k + 1) (s.emitOp i) where
  pending := show s.run.toNat ≤ k + 1 by simp [hrun]
  header := Nat.le_add_right_of_le h.header
  bound := by
    have hb := h.bound
    show s.wr + (encode i).length ≤ 14 + (k + 1 - s.run.toNat) * (s.desc.stride + 1)
    rw [encode_length]
    have hnone : s.run.toNat = 0 := by simp [hrun]
    rw [hnone, Nat.sub_zero] at hb ⊢
    rw [Nat.add_mul]
    omega
  out := emit_below _ h.out

@[simp] theorem flushPending_run (s : State) : (flushPending s).run = 0 := by
  obtain ⟨o, w, h⟩ := flushPending_eq s
  rw [h]

@[simp] theorem flushPending_desc (s : State) : (flushPending s).desc = s.desc := by
  obtain ⟨o, w, h⟩ := flushPending_eq s
  rw [h]

@[simp] theorem flushPending_prev (s : State) : (flushPending s).prev = s.prev := by
  obtain ⟨o, w, h⟩ := flushPending_eq s
  rw [h]

/-- Only RGBA has five bytes, and it is chosen only when alpha changes (rule R134). -/
theorem chooseOp_length_le (px prev : Pixel) : (chooseOp px prev).length ≤ if px.a = prev.a then 4 else 5 := by
  unfold chooseOp
  split_ifs
  · rcases chooseByDeltas_cases (s8diff px.r prev.r) (s8diff px.g prev.g) (s8diff px.b prev.b) px with
      ⟨h, -⟩ | ⟨h, -⟩ | h <;> simp [h, Instr.length]
  · simp [Instr.length]

/-- With a legal description, and alpha fixed when there are three channels, the chosen op has at most `channels + 1`
bytes (rule R137). -/
theorem chooseOp_length_le_stride {d : Desc} {px prev : Pixel} (hd : validDesc d = true)
    (halpha : d.channels = 3 → px.a = prev.a) : (chooseOp px prev).length ≤ d.stride + 1 := by
  have hle := chooseOp_length_le px prev
  rcases stride_of_validDesc hd with ⟨hch, hs⟩ | ⟨-, hs⟩
  · rw [if_pos (halpha hch)] at hle
    omega
  · split_ifs at hle <;> omega

/-- A run after one more equal pixel: flushed, or short of 62 and not at the last pixel (rules R126, R127). -/
theorem extendRun_cases (s : State) :
    extendRun s = flushRun (s.setRun (s.run + 1)) ∨
      ((s.run + 1).toNat ≠ maxRun ∧ extendRun s = s.setRun (s.run + 1)) := by
  unfold extendRun
  dsimp only
  split_ifs with h
  · exact .inl rfl
  · exact .inr ⟨fun e => h (.inl e), rfl⟩

/-- One pixel of the encoder covers one pixel more and leaves a run below 62 (rules R26, R137). -/
theorem EncInv.encodeOne (h : EncInv s) (hpx : s.desc.channels = 3 → px.a = 255) :
    CoversPixels (s.pos + 1) (encodeOne px s) ∧ (encodeOne px s).run.toNat ≤ 61 := by
  have hcov := h.coversPixels.flushPending
  rcases encodeOne_cases px s with ⟨-, he⟩ | ⟨-, -, he⟩ | ⟨-, -, he⟩ <;> rw [he]
  · obtain ⟨hgrown, hinc⟩ := h.coversPixels.growRun h.run
    have hne : s.run + 1 ≠ 0 := fun e => by rw [e] at hinc; cases hinc
    rcases extendRun_cases s with hx | ⟨h62, hx⟩ <;> rw [hx]
    · exact ⟨(hgrown.flushRun hne).setPrev px, Nat.zero_le _⟩
    · refine ⟨hgrown.setPrev px, ?_⟩
      have hrun := h.run
      show (s.run + 1).toNat ≤ 61
      simp only [maxRun] at h62
      omega
  · refine ⟨(hcov.emitOp (by simp) ?_).setPrev px, ?_⟩
    · simp [Instr.length]
    · simp [State.emitOp]
  · refine ⟨((hcov.storeEnc px).emitOp (by simp) ?_).setPrev px, ?_⟩
    · rw [flushPending_prev, State.storeEnc_desc, flushPending_desc]
      exact chooseOp_length_le_stride h.desc fun h3 => (hpx h3).trans (h.alpha h3).symm
    · simp [State.emitOp]

/-! ### The whole state over one pixel -/

theorem BaseInv.flushRun (h : BaseInv s) : BaseInv (flushRun s) := (h.emit _).setRun 0

theorem BaseInv.flushPending (h : BaseInv s) : BaseInv (flushPending s) := by
  unfold Machine.flushPending
  split_ifs
  · exact h
  · exact h.flushRun

theorem BaseInv.encodeOne (h : BaseInv s) (px : Pixel) : BaseInv (encodeOne px s) := by
  rcases encodeOne_cases px s with ⟨-, he⟩ | ⟨-, -, he⟩ | ⟨-, -, he⟩ <;> rw [he]
  · rcases extendRun_cases s with hx | ⟨-, hx⟩ <;> rw [hx]
    · exact (h.setRun _).flushRun.setPrev px
    · exact (h.setRun _).setPrev px
  · exact (h.flushPending.emit _).setPrev px
  · exact ((h.flushPending.storeEnc px).emit _).setPrev px

/-- One pixel of the encoder keeps the position and the phase, and leaves the pixel in `prev` (rule R135). -/
theorem encodeOne_prev_pos_phase (px : Pixel) (s : State) :
    (encodeOne px s).prev = px ∧ (encodeOne px s).pos = s.pos ∧ (encodeOne px s).phase = s.phase := by
  obtain ⟨o, w, n, c, h⟩ := encodeOne_eq px s
  rw [h]
  exact ⟨rfl, rfl, rfl⟩

/-- The next position, or the end of the command after the last pixel (rules R124, R136). -/
theorem encodeAdvance_cases (s : State) :
    (s.pos + 1 < s.desc.pixels ∧ encodeAdvance s = s.advancePos) ∨
      (s.desc.pixels ≤ s.pos + 1 ∧ encodeAdvance s =
        (s.emit endMarker).finish { status := .ok, outLen := s.wr + 8, desc := none }) := by
  unfold encodeAdvance
  split_ifs with h
  · exact .inl ⟨h, rfl⟩
  · exact .inr ⟨not_lt.mp h, rfl⟩

/-- After the last pixel the end marker still fits the room asked for (rules R136, R137). -/
theorem CoversPixels.wr_le_encodeBound (h : CoversPixels k s) (hk : k ≤ s.desc.pixels) :
    s.wr + 8 ≤ encodeBound s.desc := by
  have hmul : (k - s.run.toNat) * (s.desc.stride + 1) ≤ s.desc.pixels * (s.desc.stride + 1) :=
    Nat.mul_le_mul_right _ ((Nat.sub_le _ _).trans hk)
  have hb := h.bound
  unfold encodeBound
  omega

/-- The end of an ENCODE leaves the invariant: its output is inside the room and within 32 bits (rules R32, R136). -/
theorem inv_finishEncode (hbase : BaseInv s) (hcov : CoversPixels k s) (hk : k ≤ s.desc.pixels)
    (hdesc : validDesc s.desc = true) (hroom : encodeBound s.desc ≤ s.outCap) :
    Inv ((s.emit endMarker).finish { status := .ok, outLen := s.wr + 8, desc := none }) := by
  have hlen := hcov.wr_le_encodeBound hk
  refine (hbase.emit endMarker).inv_finish ⟨fun h => absurd rfl h, nofun, ?_⟩ fun _ => ⟨emit_below _ hcov.out, ?_⟩
  · exact hlen.trans_lt (encodeBound_lt_of_validDesc hdesc)
  · exact hlen.trans hroom

/-- A pixel step of ENCODE keeps the invariant. -/
theorem Inv.encodePixel (h : Inv s) (hphase : s.phase = .encoding) (hstep : encodePixel s = .next t) : Inv t := by
  obtain ⟨px, hread, rfl⟩ := encodePixel_eq_next hstep
  have henc := h.encoding hphase
  have hpx := readPixel_alpha hread
  have hbase := h.base.encodeOne px
  have hframe := encodeOne_frame px s
  obtain ⟨hcov, hrun⟩ := henc.encodeOne hpx
  obtain ⟨hprev, hpos, hphase'⟩ := encodeOne_prev_pos_phase px s
  have hdesc : validDesc (Machine.encodeOne px s).desc = true := hframe.desc ▸ henc.desc
  have hroom : encodeBound (Machine.encodeOne px s).desc ≤ (Machine.encodeOne px s).outCap := by
    rw [hframe.desc, hframe.outCap]
    exact henc.room
  rw [← hpos] at hcov
  rcases encodeAdvance_cases (Machine.encodeOne px s) with ⟨hmore, ha⟩ | ⟨-, ha⟩ <;> rw [ha]
  · refine hbase.advancePos.inv_of_encoding (hphase'.trans hphase)
      { desc := hdesc, pos := hmore, run := hrun, room := hroom, len := ?_, alpha := ?_
        pending := hcov.pending, header := hcov.header, bound := hcov.bound, out := hcov.out }
    · show (Machine.encodeOne px s).inp.len = _
      rw [hframe.inp, henc.len]
      simp [hframe.desc]
    · intro h3
      rw [State.advancePos_prev, hprev]
      exact hpx (by rw [← hframe.desc]; exact h3)
  · exact inv_finishEncode hbase hcov (by rw [hpos, hframe.desc]; exact henc.pos) hdesc hroom

end Sys2Proof.Machine
end

section
/-! One pixel step of the decoder keeps the invariant (rules R164 to R177). -/

namespace Sys2Proof.Machine

variable {s t u : State}

/-! ### The source of the pixel -/

/-- A run that goes on keeps the invariant: `run` only falls (rule R165). -/
theorem Inv.continueRun (h : Inv s) (hphase : s.phase = .decoding) (hrun : s.run ≠ 0) : Inv (continueRun s) := by
  have hdec := h.decoding hphase
  refine (h.base.setRun _).inv_of_decoding hphase { hdec with run := ?_ }
  have := hdec.run
  show (s.run - 1).toNat ≤ 61
  bv_omega

/-- Exhausted input fails, or leaves the state as it is (rule R174). -/
theorem Inv.exhausted (h : Inv s) : Inv (exhausted s) := by
  unfold Machine.exhausted
  split_ifs
  · exact h.base.inv_raise nofun
  · exact h

/-- Under FAIL an op that is not truncated ends before the marker region (rule R166). -/
theorem op_end_le_of_fits {n : Nat} (hfits : truncated s n = false) (hfail : s.cfg.truncation = .fail) :
    s.rd + n ≤ streamEnd s := by
  by_contra hlong
  rw [truncated_eq_true.2 ⟨hfail, not_le.mp hlong⟩] at hfits
  cases hfits

/-- `rd` past an op that begins before the marker region and is not truncated stays in range (rules R31, R166). -/
theorem DecInv.advanceRd (h : DecInv s) {n : Nat} (hrd : s.rd < streamEnd s) (hn : n ≤ maxOpBytes)
    (hfits : n = 1 ∨ truncated s n = false) : DecInv (s.advanceRd n) :=
  { h with
    rdLow := Nat.le_add_right_of_le h.rdLow
    rdHigh := by
      show s.rd + n ≤ streamEnd s + 4
      simp only [maxOpBytes] at hn
      omega
    rdFail := fun hfail => by
      show s.rd + n ≤ streamEnd s
      rcases hfits with rfl | hfits
      · exact hrd
      · exact op_end_le_of_fits hfits hfail }

/-- The run an op sets is below 62 when the op is well formed (rule R78). -/
theorem runOfOp_le {k : Nat} (h : (Instr.run k).wf = true) : (BitVec.ofNat 6 (k - 1)).toNat ≤ 61 := by
  simp only [Instr.wf, maxRun, Bool.and_eq_true, decide_eq_true_eq] at h
  rw [BitVec.toNat_ofNat]
  omega

/-- A well-formed op that begins before the marker region keeps the invariant (rules R166 to R173). -/
theorem Inv.exec (h : Inv s) (hphase : s.phase = .decoding) {i : Instr} (hrd : s.rd < streamEnd s)
    (hwf : i.wf = true) (hexec : exec i s = .next u) : Inv u := by
  have hdec := h.decoding hphase
  rcases exec_cases i s with ⟨-, -, he⟩ | ⟨slot, -, he⟩ | ⟨p, n, hn, hfits, he⟩ <;> rw [he] at hexec <;> cases hexec
  · exact h.base.inv_raise nofun
  · exact ((h.base.setPx _).advanceRd 1).inv_of_decoding hphase
      { hdec.advanceRd hrd (by decide) (.inl rfl) with }
  · refine (((h.base.setPx p).setRun n).advanceRd i.length).storePx.inv_of_decoding hphase
      { hdec.advanceRd hrd (length_le_maxOpBytes i) hfits with run := ?_ }
    show n.toNat ≤ 61
    rcases hn with rfl | ⟨k, rfl, rfl⟩
    · exact hdec.run
    · exact runOfOp_le hwf

/-! ### The end of the step -/

/-- The pixel's bytes end at the new output cursor (rules R32, R175). -/
theorem DecInv.writePixel_out (h : DecInv s) : ∀ c ∈ (writePixel s).out, c.1 < (s.pos + 1) * s.desc.stride := by
  intro c hc
  rw [Nat.add_mul, Nat.one_mul]
  rcases Memory.mem_writeBytes hc with ⟨-, hlt⟩ | hold
  · rwa [pixelBytes_length s.px (validDesc_iff.1 h.desc).2.2.1] at hlt
  · exact Nat.lt_add_right _ (h.wr ▸ h.out c hold)

/-- The end of a DECODE leaves the invariant: a failure, or N × channels bytes of output (rules R176, R177). -/
theorem inv_finishDecode (h : BaseInv s) (hdesc : validDesc s.desc = true)
    (hout : ∀ c ∈ s.out, c.1 < s.desc.pixels * s.desc.stride) (hroom : s.desc.pixels * s.desc.stride ≤ s.outCap) :
    Inv (finishDecode s) := by
  rcases finishDecode_cases s with he | he <;> rw [he]
  · exact h.inv_raise nofun
  · refine h.inv_finish ⟨fun hne => absurd rfl hne, ?_, ?_⟩ fun _ => ⟨hout, hroom⟩
    · intro d hd
      cases hd
      exact ⟨hdesc, rfl⟩
    · exact (bufferLength_lt_encodeBound _).trans (encodeBound_lt_of_validDesc hdesc)

/-- Writing the pixel, then the next position or the end of the command, keeps the invariant (rules R175 to R177). -/
theorem Inv.completePixel (h : Inv s) (hphase : s.phase = .decoding) : Inv (completePixel s) := by
  have hdec := h.decoding hphase
  have hbase := h.base.writePixel
  unfold Machine.completePixel
  dsimp only
  split_ifs with hmore
  · refine hbase.advancePos.inv_of_decoding hphase { hdec with pos := hmore, wr := ?_, out := ?_ }
    · exact (Nat.succ_mul _ _).symm
    · intro c hc
      have := hdec.writePixel_out c hc
      rwa [Nat.add_mul, Nat.one_mul] at this
  · have hlast : s.pos + 1 = s.desc.pixels := Nat.le_antisymm hdec.pos (not_lt.mp hmore)
    exact inv_finishDecode hbase hdec.desc (hlast ▸ hdec.writePixel_out) hdec.room

theorem Inv.completeUnlessRaised (h : Inv s) : Inv (completeUnlessRaised s) := by
  unfold Machine.completeUnlessRaised
  split_ifs with hphase
  · exact h.completePixel hphase
  · exact h

/-- A pixel step of DECODE keeps the invariant. -/
theorem Inv.decodePixel (h : Inv s) (hphase : s.phase = .decoding) (hstep : decodePixel s = .next t) : Inv t := by
  rcases decodePixel_cases hstep with ⟨hsrc, rfl⟩ | ⟨i, u, hsrc, hexec, rfl⟩ | ⟨-, rfl⟩ | ⟨-, rfl⟩
  · exact (h.continueRun hphase (run_ne_zero_of_pixelSource hsrc)).completeUnlessRaised
  · obtain ⟨hrd, hwf⟩ := pixelSource_eq_op hsrc
    exact (h.exec hphase hrd hwf hexec).completeUnlessRaised
  · exact h.base.inv_raise nofun
  · exact h.exhausted.completeUnlessRaised

end Sys2Proof.Machine
end

section
/-! The start of a command keeps the invariant, and with it every step does (rules R120 to R123, R160 to R163). -/

namespace Sys2Proof.Machine

variable {s t : State} {r : Request} {d : Desc}

theorem BaseInv.takeRequest (h : BaseInv s) {rest : List Request} (hreq : s.requests = r :: rest) :
    BaseInv { s with requests := rest } :=
  { h with requests := fun q hq => h.requests q (hreq ▸ List.mem_cons_of_mem r hq) }

/-- An ENCODE that begins meets the invariant: only the header is written (rule R123). -/
theorem BaseInv.beginEncode (h : BaseInv s) (hinp : r.inp.wf = true) (hdesc : validDesc d = true)
    (hlen : r.inp.len = d.pixels * d.stride) (hroom : encodeBound d ≤ r.outCap) : Inv (beginEncode d r s) :=
  BaseInv.inv_of_encoding
    { h with inp := hinp, out := Memory.wf_writeBytes rfl _ _, encCache := cacheWf_start }
    rfl
    { desc := hdesc, len := hlen, room := hroom, pos := pixels_pos_of_validDesc hdesc
      run := Nat.zero_le _, pending := Nat.zero_le _, alpha := fun _ => rfl
      header := Nat.le_refl 14
      bound := Nat.le_add_right 14 _
      out := emit_below _ nofun }

/-- A DECODE that begins meets the invariant: `rd` is behind the header and nothing is written (rule R163). -/
theorem BaseInv.beginDecode (h : BaseInv s) (hinp : r.inp.wf = true) (hdesc : validDesc d = true)
    (hmin : minStreamBytes ≤ r.inp.len) (hmax : r.inp.len ≤ 2 ^ s.cfg.cursorBits - 1)
    (hroom : d.pixels * d.stride ≤ r.outCap) : Inv (beginDecode d r s) := by
  have hrd : 14 ≤ r.inp.len - 8 := by simp only [minStreamBytes] at hmin; omega
  exact BaseInv.inv_of_decoding
    { h with inp := hinp, out := rfl, decCache := cacheWf_start }
    rfl
    { desc := hdesc, minLen := hmin, maxLen := hmax, room := hroom, pos := pixels_pos_of_validDesc hdesc
      run := Nat.zero_le _, rdLow := Nat.le_refl 14
      rdHigh := Nat.le_add_right_of_le hrd
      rdFail := fun _ => hrd
      wr := (Nat.zero_mul _).symm
      out := nofun }

theorem BaseInv.startEncode (h : BaseInv s) (hinp : r.inp.wf = true) (hstart : startEncode d r s = .next t) :
    Inv t := by
  rcases startEncode_cases hstart with ⟨-, rfl⟩ | ⟨hdesc, hlen, hroom, rfl⟩
  · exact h.inv_raise nofun
  · exact h.beginEncode hinp hdesc hlen hroom

theorem BaseInv.startDecode (h : BaseInv s) (hinp : r.inp.wf = true) (hstart : startDecode r s = .next t) :
    Inv t := by
  obtain ⟨hmax, ⟨-, rfl⟩ | ⟨hmin, bs, -, ⟨e, -, rfl⟩ | ⟨d, hparse, hroom, rfl⟩⟩⟩ := startDecode_cases hstart
  · exact h.inv_raise nofun
  · exact h.inv_raise nofun
  · exact h.beginDecode hinp (validDesc_of_parse hparse) hmin hmax hroom

theorem Inv.startNext (h : Inv s) (hstart : startNext s = .next t) : Inv t := by
  rcases startNext_cases hstart with ⟨-, rfl⟩ | ⟨r, rest, hreq, hcmd⟩
  · exact h
  · have hbase := h.base.takeRequest hreq
    have hinp := h.requests r (by simp [hreq])
    rcases hcmd with ⟨d, -, hs⟩ | ⟨-, hs⟩
    · exact hbase.startEncode hinp hs
    · exact hbase.startDecode hinp hs

theorem Inv.step (h : Inv s) (hstep : step s = .next t) : Inv t := by
  cases hphase : s.phase with
  | idle => exact h.startNext (step_idle hphase ▸ hstep)
  | encoding => exact h.encodePixel hphase (step_encoding hphase ▸ hstep)
  | decoding => exact h.decodePixel hphase (step_decoding hphase ▸ hstep)

end Sys2Proof.Machine

open Sys2Proof Sys2Proof.Machine

/-- Settles O46: by the phase, the start of a command and each kind of pixel step keep the invariant. -/
theorem stepKeepsTheInvariant : Obligations.StepKeepsTheInvariant := fun _ _ h hstep => h.step hstep

end

section
/-! The cursors of a running command (rules R30 to R32): the statement O50, read off the invariant. -/

namespace Sys2Proof.Machine

variable {s : State}

/-- A position below N fits 29 bits (rules R30, R106). -/
theorem lt_two_pow_of_lt_pixels {d : Desc} (hdesc : validDesc d = true) {pos : Nat} (hpos : pos < d.pixels) :
    pos < 2 ^ 29 := by
  have := pixels_lt_of_validDesc hdesc
  omega

/-- A number of 31 bits fits `CURSOR_BITS` bits (rule R9). -/
theorem lt_two_pow_cursorBits {c : Config} (hc : c.wf = true) {n : Nat} (hn : n < 2 ^ 31) : n < 2 ^ c.cursorBits := by
  have hbits : 32 ≤ c.cursorBits := by simpa [Config.wf] using hc
  exact hn.trans_le (Nat.pow_le_pow_right (by decide) (by omega))

theorem EncInv.wr_lt (h : EncInv s) : s.wr < encodeBound s.desc :=
  Nat.lt_of_lt_of_le (by omega) (h.coversPixels.wr_le_encodeBound h.pos.le)

theorem DecInv.wr_le (h : DecInv s) : s.wr ≤ s.desc.pixels * s.desc.stride := by
  rw [h.wr]
  exact Nat.mul_le_mul_right _ h.pos.le

/-- `rd` never passes the fourth byte of the marker region, so it stays inside IN (rules R31, R161, R166). -/
theorem DecInv.rd_lt (h : DecInv s) : s.rd < s.inp.len := by
  have hrd := h.rdHigh
  have hmin := h.minLen
  simp only [streamEnd] at hrd
  omega

end Sys2Proof.Machine

open Sys2Proof Sys2Proof.Machine

/-- Settles O50: the pixel ceiling bounds `pos`, the output bound of each command bounds `wr`, and the length of IN
bounds `rd`. -/
theorem cursorsFitTheirWidth : Obligations.CursorsFitTheirWidth := by
  intro s h hbusy
  cases hphase : s.phase with
  | idle => exact absurd hphase hbusy
  | encoding =>
    have henc := h.encoding hphase
    have hpos := lt_two_pow_of_lt_pixels henc.desc henc.pos
    have hwr := henc.wr_lt.trans (encodeBound_lt_of_validDesc henc.desc)
    exact ⟨hpos, hwr, henc.wr_lt.le.trans henc.room, lt_two_pow_cursorBits h.cfg (by omega),
      lt_two_pow_cursorBits h.cfg hwr, nofun⟩
  | decoding =>
    have hdec := h.decoding hphase
    have hpos := lt_two_pow_of_lt_pixels hdec.desc hdec.pos
    have hwr := (hdec.wr_le.trans_lt (bufferLength_lt_encodeBound _)).trans (encodeBound_lt_of_validDesc hdec.desc)
    refine ⟨hpos, hwr, hdec.wr_le.trans hdec.room, lt_two_pow_cursorBits h.cfg (by omega),
      lt_two_pow_cursorBits h.cfg hwr, fun _ => ⟨hdec.rd_lt, ?_⟩⟩
    exact hdec.rd_lt.trans_le (hdec.maxLen.trans (Nat.sub_le _ _))

end

section
/-! No pixel step reads the color-space tag (rule R22): each operation of a pixel step commutes with changing the tag,
and the end of a DECODE commutes up to the description it delivers. -/

namespace Sys2Proof.Machine

variable {s t u : State} {cs : Byte}

/-! ### The encoder -/

theorem flushPending_withColorspace (s : State) (cs : Byte) :
    flushPending (s.withColorspace cs) = (flushPending s).withColorspace cs :=
  (apply_ite (State.withColorspace · cs) (s.run = 0) s (flushRun s)).symm

theorem extendRun_withColorspace (s : State) (cs : Byte) :
    extendRun (s.withColorspace cs) = (extendRun s).withColorspace cs :=
  (apply_ite (State.withColorspace · cs) _ (flushRun (s.setRun (s.run + 1))) (s.setRun (s.run + 1))).symm

theorem encodeNew_withColorspace (px : Pixel) (s : State) (cs : Byte) :
    encodeNew px (s.withColorspace cs) = (encodeNew px s).withColorspace cs := by
  unfold encodeNew
  rw [flushPending_withColorspace]
  exact (apply_ite (State.withColorspace · cs) (cacheGet (flushPending s).encCache (hash px) = px)
    ((flushPending s).emitOp (.index (hash px)))
    (((flushPending s).storeEnc px).emitOp (chooseOp px (flushPending s).prev))).symm

theorem encodeOne_withColorspace (px : Pixel) (s : State) (cs : Byte) :
    encodeOne px (s.withColorspace cs) = (encodeOne px s).withColorspace cs := by
  unfold encodeOne
  rw [extendRun_withColorspace, encodeNew_withColorspace]
  exact congrArg (State.setPrev · px) (apply_ite (State.withColorspace · cs) (px = s.prev) _ _).symm

theorem encodeAdvance_withColorspace (s : State) (cs : Byte) :
    encodeAdvance (s.withColorspace cs) = (encodeAdvance s).withColorspace cs :=
  (apply_ite (State.withColorspace · cs) (s.pos + 1 < s.desc.pixels) s.advancePos (finishEncode s)).symm

theorem encodePixel_withColorspace (h : encodePixel s = .next t) :
    encodePixel (s.withColorspace cs) = .next (t.withColorspace cs) := by
  obtain ⟨px, hread, rfl⟩ := encodePixel_eq_next h
  have hread' : readPixel (s.withColorspace cs) = some px := hread
  simp only [encodePixel, hread', encodeOne_withColorspace, encodeAdvance_withColorspace]

/-! ### The decoder -/

/-- What another tag changes in a pixel step of the decoder: `u` is `t` with the tag, but for the description in the
result of a DECODE that ends. -/
structure DiffersInTag (cs : Byte) (t u : State) : Prop where
  state : u = { t.withColorspace cs with result := u.result }
  status : u.result.map Result.status = t.result.map Result.status
  outLen : u.result.map Result.outLen = t.result.map Result.outLen
  running : t.phase = .decoding → u.result = t.result

theorem differsInTag_withColorspace (t : State) (cs : Byte) : DiffersInTag cs t (t.withColorspace cs) :=
  ⟨rfl, rfl, rfl, fun _ => rfl⟩

/-- While the DECODE runs on, the tag in `DESC` is the only difference. -/
theorem DiffersInTag.eq_of_decoding (h : DiffersInTag cs t u) (hphase : t.phase = .decoding) :
    u = t.withColorspace cs := by
  rw [h.state, h.running hphase]
  rfl

theorem exhausted_withColorspace (s : State) (cs : Byte) :
    exhausted (s.withColorspace cs) = (exhausted s).withColorspace cs :=
  (apply_ite (State.withColorspace · cs) (s.cfg.truncation = .fail) (s.raise .malformedStream) s).symm

theorem operandOp_withColorspace {n : Nat} {p : Pixel} (h : operandOp n p s = .next u) :
    operandOp n p (s.withColorspace cs) = .next (u.withColorspace cs) := by
  rcases operandOp_cases h with ⟨ht, hu⟩ | ⟨ht, hu⟩ <;> cases hu
  · exact operandOp_of_truncated ht
  · exact operandOp_of_fits ht

theorem exec_withColorspace {i : Instr} (h : exec i s = .next u) :
    exec i (s.withColorspace cs) = .next (u.withColorspace cs) := by
  cases i with
  | index slot => cases h; rfl
  | diff dr dg db => cases h; rfl
  | run n => cases h; rfl
  | luma dg drg dbg => exact operandOp_withColorspace h
  | rgb r g b => exact operandOp_withColorspace h
  | rgba r g b a => exact operandOp_withColorspace h

/-- The end check does not read the tag; only the description it delivers has it (rules R176, R177). -/
theorem finishDecode_withColorspace (s : State) (cs : Byte) :
    DiffersInTag cs (finishDecode s) (finishDecode (s.withColorspace cs)) := by
  show DiffersInTag cs (ite ((s.cfg.strictEnd && !endsCleanly s) = true) _ _)
    (ite ((s.cfg.strictEnd && !endsCleanly s) = true) _ _)
  split_ifs
  · exact differsInTag_withColorspace _ cs
  · exact ⟨rfl, rfl, rfl, nofun⟩

theorem completePixel_withColorspace (s : State) (cs : Byte) :
    DiffersInTag cs (completePixel s) (completePixel (s.withColorspace cs)) := by
  show DiffersInTag cs (ite (s.pos + 1 < s.desc.pixels) _ _) (ite (s.pos + 1 < s.desc.pixels) _ _)
  split_ifs
  · exact differsInTag_withColorspace _ cs
  · exact finishDecode_withColorspace (writePixel s) cs

theorem completeUnlessRaised_withColorspace (s : State) (cs : Byte) :
    DiffersInTag cs (completeUnlessRaised s) (completeUnlessRaised (s.withColorspace cs)) := by
  show DiffersInTag cs (ite (s.phase = .decoding) _ _) (ite (s.phase = .decoding) _ _)
  split_ifs
  · exact completePixel_withColorspace s cs
  · exact differsInTag_withColorspace s cs

theorem decodePixel_withColorspace (h : decodePixel s = .next t) (cs : Byte) :
    ∃ u, decodePixel (s.withColorspace cs) = .next u ∧ DiffersInTag cs t u := by
  have hsrc' : pixelSource (s.withColorspace cs) = pixelSource s := rfl
  unfold decodePixel
  rw [hsrc']
  rcases decodePixel_cases h with ⟨hsrc, rfl⟩ | ⟨i, v, hsrc, hexec, rfl⟩ | ⟨hsrc, rfl⟩ | ⟨hsrc, rfl⟩ <;> rw [hsrc]
  · exact ⟨_, rfl, completeUnlessRaised_withColorspace (continueRun s) cs⟩
  · refine ⟨completeUnlessRaised (v.withColorspace cs), ?_, completeUnlessRaised_withColorspace v cs⟩
    show afterOp (exec i (s.withColorspace cs)) = _
    rw [exec_withColorspace hexec]
    rfl
  · exact ⟨_, rfl, differsInTag_withColorspace (s.raise .malformedStream) cs⟩
  · refine ⟨_, rfl, ?_⟩
    rw [exhausted_withColorspace]
    exact completeUnlessRaised_withColorspace (exhausted s) cs

end Sys2Proof.Machine

open Sys2Proof Sys2Proof.Machine

/-- Settles O52: a pixel step of ENCODE commutes with changing the tag, and one of DECODE does up to the description
delivered at its end. -/
theorem colorspaceIsNeverRead : Obligations.ColorspaceIsNeverRead := by
  intro s t cs hbusy h
  cases hphase : s.phase with
  | idle => exact absurd hphase hbusy
  | encoding =>
    rw [step_encoding hphase] at h
    refine ⟨t.withColorspace cs, ?_, fun _ => rfl, rfl, rfl, rfl, rfl, rfl, rfl, rfl⟩
    exact (step_encoding (s := s.withColorspace cs) hphase).trans (encodePixel_withColorspace h)
  | decoding =>
    rw [step_decoding hphase] at h
    obtain ⟨u, hu, hdiff⟩ := decodePixel_withColorspace h cs
    refine ⟨u, (step_decoding (s := s.withColorspace cs) hphase).trans hu, ?_, ?_⟩
    · rintro (henc | hdec)
      · cases henc
      · exact hdiff.eq_of_decoding hdec
    · refine ⟨?_, ?_, ?_, ?_, ?_, hdiff.status, hdiff.outLen⟩ <;> rw [hdiff.state] <;> rfl

end

section
/-! What the host can read (rules R33, R60, R224): the statement O41. -/

namespace Sys2Proof.Machine

variable {s : State}

theorem hostReadResult_of_result {r : Result} (hphase : s.phase = .idle) (hr : s.result = some r) :
    hostReadResult s = .next r := by
  simp [hostReadResult, hphase, hr]

theorem hostReadResult_of_no_result (hphase : s.phase = .idle) (hnone : s.result = none) :
    hostReadResult s = .refused .resultUnavailable := by
  simp [hostReadResult, hphase, hnone]

theorem hostReadResult_of_busy (hbusy : s.phase ≠ .idle) : hostReadResult s = .refused .commandRunning := by
  cases hphase : s.phase with
  | idle => exact absurd hphase hbusy
  | encoding => simp [hostReadResult, hphase]
  | decoding => simp [hostReadResult, hphase]

/-- A read of OUT is refused as the read of RESULT is. -/
theorem hostReadOut_of_refused {e : Refusal} (h : hostReadResult s = .refused e) (a : Nat) :
    hostReadOut s a = .refused e := by
  simp [hostReadOut, h]

/-- The output of a failed command has no byte to read (rule R224). -/
theorem hostReadOut_of_failed {r : Result} (h : hostReadResult s = .next r) (hfail : r.status ≠ .ok) (a : Nat) :
    hostReadOut s a = .refused .outputUnavailable := by
  simp [hostReadOut, h, hfail]

theorem hostReadDesc_of_no_desc {r : Result} (h : hostReadResult s = .next r) (hnone : r.desc = none) :
    hostReadDesc s = .refused .descUnavailable := by
  simp [hostReadDesc, h, hnone]

end Sys2Proof.Machine

open Sys2Proof Sys2Proof.Machine

/-- Settles O41: every read goes through the read of RESULT, which is refused without a result and while a command runs,
and after a raise answers the failure. -/
theorem hostReadsAreRefusedWithoutAResult : Obligations.HostReadsAreRefusedWithoutAResult := by
  refine ⟨fun s hnone hidle => hostReadResult_of_no_result hidle hnone, fun s hbusy => hostReadResult_of_busy hbusy,
    fun s a hbusy => hostReadOut_of_refused (hostReadResult_of_busy hbusy) a, fun s st a hst => ?_⟩
  have hread := hostReadResult_of_result (s.raise_phase st) (s.raise_result st)
  exact ⟨hread, hostReadOut_of_failed hread hst a, hostReadDesc_of_no_desc hread rfl⟩

end

section
/-! The bytes the host hands over (rule R50): the statement O44. -/

namespace Sys2Proof.Machine

/-- A space built from a list of bytes reads as the list (rule R50). -/
theorem Space.toBytes_ofBytes (bs : List Byte) : (Space.ofBytes bs).toBytes = bs :=
  Memory.readBytes_writeBytes (m := []) rfl 0 bs

end Sys2Proof.Machine

open Sys2Proof Sys2Proof.Machine

/-- Settles O44: writing the bytes into an empty memory keeps it canonical, and they read back. -/
theorem handedOverBytesReadBack : Obligations.HandedOverBytesReadBack := fun bs =>
  ⟨Space.wf_ofBytes bs, rfl, Space.toBytes_ofBytes bs⟩

end

section
/-! No read outside IN (rules R51, R178): where each read of a step is shown to answer. The statement O47. -/

namespace Sys2Proof.Machine

variable {s : State}

/-! ### The decoder: its step answers in any state -/

/-- As many bytes as `oplen` of the first one asks for give an op: no byte value is rejected (rules R74, R83). -/
theorem exists_decode_eq_ok {b1 : Byte} {rest : List Byte} (h : opLen b1 ≤ rest.length + 1) :
    ∃ i tail, decode (b1 :: rest) = .ok (i, tail) := by
  simp only [decode]
  split_ifs with hFE hFF hIndex hDiff hLuma
  · have h4 : 4 ≤ rest.length + 1 := by rwa [opLen, if_pos hFE] at h
    match rest, h4 with
    | _ :: _ :: _ :: _, _ => exact ⟨_, _, rfl⟩
  · have h5 : 5 ≤ rest.length + 1 := by rwa [opLen, if_neg hFE, if_pos hFF] at h
    match rest, h5 with
    | _ :: _ :: _ :: _ :: _, _ => exact ⟨_, _, rfl⟩
  · exact ⟨_, _, rfl⟩
  · exact ⟨_, _, rfl⟩
  · have h2 : 2 ≤ rest.length + 1 := by rwa [opLen, if_neg hFE, if_neg hFF, if_pos hLuma] at h
    match rest, h2 with
    | _ :: _, _ => exact ⟨_, _, rfl⟩
  · exact ⟨_, _, rfl⟩

/-- A fetch of an op's own bytes gives an op (rule R166). -/
theorem exists_decodeOp_eq_next (m : Memory) (a : Nat) :
    ∃ i, decodeOp (m.readBytes a (opLen (m.read a))) = .next (.op i) := by
  obtain ⟨n, hn⟩ := Nat.exists_eq_add_of_le' (opLen_bounds (m.read a)).1
  obtain ⟨i, tail, hdec⟩ := exists_decode_eq_ok (b1 := m.read a) (rest := m.readBytes (a + 1) n) (by simp [hn])
  exact ⟨i, by rw [hn, Memory.readBytes_succ, decodeOp, hdec]⟩

/-- The choice at the start of a decoder step answers in any state (rules R51, R164, R178). -/
theorem exists_pixelSource_eq_next (s : State) : ∃ src, pixelSource s = .next src := by
  rcases pixelSource_cases s with ⟨-, hs⟩ | ⟨-, -, hs⟩ | ⟨-, hrd, hs⟩
  · exact ⟨_, hs⟩
  · exact ⟨_, hs⟩
  · rcases fetchOp_cases hrd with ⟨-, hf⟩ | ⟨-, hf⟩
    · exact ⟨_, hs.trans hf⟩
    · obtain ⟨i, hi⟩ := exists_decodeOp_eq_next s.inp.cells s.rd
      exact ⟨_, hs.trans (hf.trans hi)⟩

/-- Every op has its meaning in every state. -/
theorem exists_exec_eq_next (i : Instr) (s : State) : ∃ t, exec i s = .next t := by
  rcases exec_cases i s with ⟨-, -, he⟩ | ⟨_, -, he⟩ | ⟨_, _, -, -, he⟩ <;> exact ⟨_, he⟩

/-- A pixel step of the decoder answers in any state (rules R51, R83, R178). -/
theorem exists_decodePixel_eq_next (s : State) : ∃ t, decodePixel s = .next t := by
  obtain ⟨src, hsrc⟩ := exists_pixelSource_eq_next s
  unfold decodePixel
  rw [hsrc]
  cases src with
  | runs => exact ⟨_, rfl⟩
  | op i =>
    obtain ⟨t, ht⟩ := exists_exec_eq_next i s
    exact ⟨completeUnlessRaised t, by simp only [ht, afterOp]⟩
  | truncated => exact ⟨_, rfl⟩
  | exhausted => exact ⟨_, rfl⟩

/-! ### The encoder: its pixel lies in IN -/

/-- The bytes of a pixel below N lie inside the buffer (rule R52). -/
theorem EncInv.pixel_end_le (h : EncInv s) : s.pos * s.desc.stride + s.desc.stride ≤ s.inp.len := by
  rw [h.len, ← Nat.succ_mul]
  exact Nat.mul_le_mul_right _ h.pos

/-- Between the pixel steps of an ENCODE the next pixel can be read (rules R51, R125). -/
theorem EncInv.exists_readPixel_eq_some (h : EncInv s) : ∃ px, readPixel s = some px := by
  have hend := h.pixel_end_le
  have hstride := stride_of_validDesc h.desc
  have hcolors := Space.memRead_of_le (sp := s.inp) (a := s.pos * s.desc.stride) (n := 3) (by omega)
  rcases hstride with ⟨hch, -⟩ | ⟨hch, hfour⟩
  · simp [readPixel, hcolors, Memory.readBytes_succ, hch]
  · have halpha := Space.memRead_of_le (sp := s.inp) (a := s.pos * s.desc.stride + 3) (n := 1) (by omega)
    simp [readPixel, hcolors, halpha, Memory.readBytes_succ, hch]

theorem EncInv.exists_encodePixel_eq_next (h : EncInv s) : ∃ t, encodePixel s = .next t := by
  obtain ⟨px, hread⟩ := h.exists_readPixel_eq_some
  exact ⟨_, by simp only [encodePixel, hread]; rfl⟩

/-! ### The start of a command: refused, but never a fault -/

variable {f : Fault}

theorem startEncode_ne_fault (d : Desc) (r : Request) (s : State) : startEncode d r s ≠ .fault f := by
  unfold startEncode
  split_ifs <;> nofun

/-- The header is read only from an IN of the minimum length, which holds it (rules R51, R161). -/
theorem startDecode_ne_fault (r : Request) (s : State) : startDecode r s ≠ .fault f := by
  unfold startDecode
  split_ifs with hlong hshort
  · nofun
  · nofun
  · have hheader : 0 + headerBytes ≤ r.inp.len := by simp only [headerBytes, minStreamBytes] at *; omega
    simp only [Space.memRead_of_le hheader]
    split
    · split_ifs <;> nofun
    · nofun

/-- An idle step ends in no fault, in any state. -/
theorem startNext_ne_fault (s : State) : startNext s ≠ .fault f := by
  unfold startNext
  split
  · nofun
  · split
    · exact startEncode_ne_fault _ _ _
    · exact startDecode_ne_fault _ _

end Sys2Proof.Machine

open Sys2Proof Sys2Proof.Machine

/-- Settles O47: the start of a command and a decoder step end in no fault in any state; an encoder step reads its pixel
inside IN by the invariant. -/
theorem noStepReadsOutsideTheInput : Obligations.NoStepReadsOutsideTheInput := by
  intro s f h
  cases hphase : s.phase with
  | idle =>
    rw [step_idle hphase]
    exact startNext_ne_fault s
  | encoding =>
    obtain ⟨t, ht⟩ := (h.encoding hphase).exists_encodePixel_eq_next
    rw [step_encoding hphase, ht]
    nofun
  | decoding =>
    obtain ⟨t, ht⟩ := exists_decodePixel_eq_next s
    rw [step_decoding hphase, ht]
    nofun

end

section
/-! Every memory stays canonical, in any state (rule R50): IN and the issued commands by the frames, OUT operation by
operation. The statement O48. -/

namespace Sys2Proof.Machine

variable {s t : State}

theorem wf_flushRun (h : s.out.wf = true) : (flushRun s).out.wf = true := wf_emit _ h

theorem wf_flushPending (h : s.out.wf = true) : (flushPending s).out.wf = true := by
  unfold flushPending
  split_ifs
  · exact h
  · exact wf_flushRun h

/-- One pixel of the encoder emits its ops and writes no other byte of OUT (rules R126 to R134). -/
theorem wf_encodeOne (px : Pixel) (h : s.out.wf = true) : (encodeOne px s).out.wf = true := by
  rcases encodeOne_cases px s with ⟨-, he⟩ | ⟨-, -, he⟩ | ⟨-, -, he⟩ <;> rw [he]
  · rcases extendRun_cases s with hx | ⟨-, hx⟩ <;> rw [hx]
    · exact wf_flushRun (s := s.setRun (s.run + 1)) h
    · exact h
  · exact wf_emit _ (wf_flushPending h)
  · exact wf_emit _ (wf_flushPending h)

theorem wf_encodeAdvance (h : s.out.wf = true) : (encodeAdvance s).out.wf = true := by
  rcases encodeAdvance_cases s with ⟨-, ha⟩ | ⟨-, ha⟩ <;> rw [ha]
  · exact h
  · exact wf_emit endMarker h

theorem wf_encodePixel (h : s.out.wf = true) (hstep : encodePixel s = .next t) : t.out.wf = true := by
  obtain ⟨px, -, rfl⟩ := encodePixel_eq_next hstep
  exact wf_encodeAdvance (wf_encodeOne px h)

/-- Exhausted input writes no byte of OUT and does not move the position (rule R174). -/
theorem exhausted_out_pos (s : State) : (exhausted s).out = s.out ∧ (exhausted s).pos = s.pos := by
  unfold exhausted
  split_ifs <;> exact ⟨rfl, rfl⟩

/-- An op writes no byte of OUT and does not move the position (rules R167 to R173). -/
theorem exec_out_pos {i : Instr} (h : exec i s = .next t) : t.out = s.out ∧ t.pos = s.pos := by
  rcases exec_cases i s with ⟨-, -, he⟩ | ⟨_, -, he⟩ | ⟨_, _, -, -, he⟩ <;>
    (rw [he] at h; cases h; exact ⟨rfl, rfl⟩)

/-- The end of a decoder step writes the pixel's bytes and no other byte of OUT (rule R175). -/
theorem wf_completeUnlessRaised (h : s.out.wf = true) : (completeUnlessRaised s).out.wf = true := by
  unfold completeUnlessRaised
  split_ifs
  · obtain ⟨ph, po, res, hc⟩ := completePixel_eq s
    rw [hc]
    exact Memory.wf_writeBytes h _ _
  · exact h

theorem wf_decodePixel (h : s.out.wf = true) (hstep : decodePixel s = .next t) : t.out.wf = true := by
  rcases decodePixel_cases hstep with ⟨-, rfl⟩ | ⟨i, u, -, hexec, rfl⟩ | ⟨-, rfl⟩ | ⟨-, rfl⟩
  · exact wf_completeUnlessRaised (s := continueRun s) h
  · exact wf_completeUnlessRaised ((exec_out_pos hexec).1 ▸ h)
  · exact h
  · exact wf_completeUnlessRaised ((exhausted_out_pos s).1 ▸ h)

/-- The start of an ENCODE keeps OUT, or writes the header into an empty one; IN stays or is the command's (rule
R123). -/
theorem wf_startEncode {d : Desc} {r : Request} (hout : s.out.wf = true) (hinp : s.inp.wf = true)
    (hr : r.inp.wf = true) (h : startEncode d r s = .next t) : t.out.wf = true ∧ t.inp.wf = true := by
  rcases startEncode_cases h with ⟨-, rfl⟩ | ⟨-, -, -, rfl⟩
  · exact ⟨hout, hinp⟩
  · exact ⟨Memory.wf_writeBytes rfl _ _, hr⟩

/-- The start of a DECODE keeps OUT, or empties it; IN stays or is the command's (rule R163). -/
theorem wf_startDecode {r : Request} (hout : s.out.wf = true) (hinp : s.inp.wf = true)
    (hr : r.inp.wf = true) (h : startDecode r s = .next t) : t.out.wf = true ∧ t.inp.wf = true := by
  obtain ⟨-, ⟨-, rfl⟩ | ⟨-, _, -, ⟨_, -, rfl⟩ | ⟨_, -, -, rfl⟩⟩⟩ := startDecode_cases h
  · exact ⟨hout, hinp⟩
  · exact ⟨hout, hinp⟩
  · exact ⟨rfl, hr⟩

theorem wf_startNext (hout : s.out.wf = true) (hinp : s.inp.wf = true) (hreq : ∀ r ∈ s.requests, r.inp.wf = true)
    (h : startNext s = .next t) : t.out.wf = true ∧ t.inp.wf = true := by
  rcases startNext_cases h with ⟨-, rfl⟩ | ⟨r, rest, hlist, hcmd⟩
  · exact ⟨hout, hinp⟩
  · have hr := hreq r (by simp [hlist])
    rcases hcmd with ⟨d, -, hs⟩ | ⟨-, hs⟩
    · exact wf_startEncode (s := { s with requests := rest }) hout hinp hr hs
    · exact wf_startDecode (s := { s with requests := rest }) hout hinp hr hs

end Sys2Proof.Machine

open Sys2Proof Sys2Proof.Machine

/-- Settles O48: an idle step takes IN from the command it begins; a pixel step leaves IN and the issued commands alone
and writes OUT by the memory's own writes. -/
theorem stepKeepsMemoryCanonical : Obligations.StepKeepsMemoryCanonical := by
  intro s t hout hinp hreq h
  cases hphase : s.phase with
  | idle =>
    rw [step_idle hphase] at h
    obtain ⟨hout', hinp'⟩ := wf_startNext hout hinp hreq h
    refine ⟨hout', hinp', fun r hr => hreq r ?_⟩
    rw [(startNext_frame h).2] at hr
    exact List.mem_of_mem_drop hr
  | encoding =>
    rw [step_encoding hphase] at h
    have hframe := encodePixel_frame h
    exact ⟨wf_encodePixel hout h, hframe.inp ▸ hinp, hframe.requests ▸ hreq⟩
  | decoding =>
    rw [step_decoding hphase] at h
    have hframe := decodePixel_frame h
    exact ⟨wf_decodePixel hout h, hframe.inp ▸ hinp, hframe.requests ▸ hreq⟩

end

section
/-! No op byte is read at the limit or above (rules R51, R178): the source of a pixel depends only on the bytes below
the limit, and the rest of a decoder step commutes with changing bytes of IN, up to the result after the last pixel.
The statement O58. -/

namespace Sys2Proof.Machine

variable {s t u : State} {m : Memory}

/-- The state with other bytes in an IN of the same length. -/
def State.withCells (s : State) (m : Memory) : State := { s with inp := { s.inp with cells := m } }

/-- The memory reads as IN does at every address that an op byte may be read at (rules R51, R178). -/
def AgreesBelowLimit (m : Memory) (s : State) : Prop := ∀ a, a < opLimit s → m.read a = s.inp.cells.read a

/-- The limit is `L - 8` under FAIL and `L - 4` under REFERENCE (rules R51, R163, R178). -/
theorem agreesBelowLimit_of_policy (hlen : minStreamBytes ≤ s.inp.len)
    (hfail : ∀ a, a < s.inp.len - 8 → m.read a = s.inp.cells.read a)
    (href : s.cfg.truncation = .reference → ∀ a, a < s.inp.len - 4 → m.read a = s.inp.cells.read a) :
    AgreesBelowLimit m s := by
  intro a ha
  unfold opLimit streamEnd at ha
  cases hpol : s.cfg.truncation with
  | fail => exact hfail a (by simpa [hpol] using ha)
  | reference =>
    simp only [hpol, minStreamBytes] at ha hlen
    exact href hpol a (by omega)

/-! ### The source of the pixel -/

theorem streamEnd_le_opLimit (s : State) : streamEnd s ≤ opLimit s := by
  unfold opLimit
  split <;> omega

/-- The fetch where op bytes are left, as one test on the tag at `rd` (rule R166). -/
theorem fetchOp_eq_ite (hrd : s.rd < streamEnd s) :
    fetchOp s = if truncated s (opLen (s.inp.cells.read s.rd)) then .next .truncated
      else decodeOp (s.inp.cells.readBytes s.rd (opLen (s.inp.cells.read s.rd))) := by
  rcases fetchOp_cases hrd with ⟨ht, hf⟩ | ⟨ht, hf⟩ <;> rw [hf, ht] <;> rfl

/-- The fetch sees only bytes below the limit: the tag, and the operand bytes of an op that is not truncated (rule
R166). -/
theorem fetchOp_withCells (hrd : s.rd < streamEnd s) (hm : AgreesBelowLimit m s) :
    fetchOp (s.withCells m) = fetchOp s := by
  have htag : m.read s.rd = s.inp.cells.read s.rd := hm _ (hrd.trans_le (streamEnd_le_opLimit s))
  have hwith : fetchOp (s.withCells m) = if truncated s (opLen (m.read s.rd)) then .next .truncated
      else decodeOp (m.readBytes s.rd (opLen (m.read s.rd))) := fetchOp_eq_ite (s := s.withCells m) hrd
  rw [hwith, fetchOp_eq_ite hrd, htag]
  split_ifs with ht
  · rfl
  · have hend := op_end_le_opLimit hrd (opLen_bounds _).2 (Bool.eq_false_iff.2 ht)
    rw [Memory.readBytes_congr fun x _ hx => hm x (hx.trans_le hend)]

/-- The choice at the start of a decoder step depends only on the bytes below the limit (rule R164). -/
theorem pixelSource_withCells (hm : AgreesBelowLimit m s) : pixelSource (s.withCells m) = pixelSource s := by
  show ite (s.run ≠ 0) _ (ite (s.rd < streamEnd s) (fetchOp (s.withCells m)) _) = _
  unfold pixelSource
  split_ifs with hrun hrd
  · rfl
  · exact fetchOp_withCells hrd hm
  · rfl

/-! ### The rest of the step -/

theorem operandOp_withCells {n : Nat} {p : Pixel} (h : operandOp n p s = .next u) (m : Memory) :
    operandOp n p (s.withCells m) = .next (u.withCells m) := by
  rcases operandOp_cases h with ⟨ht, hu⟩ | ⟨ht, hu⟩ <;> cases hu
  · exact operandOp_of_truncated ht
  · exact operandOp_of_fits ht

theorem exec_withCells {i : Instr} (h : exec i s = .next u) (m : Memory) :
    exec i (s.withCells m) = .next (u.withCells m) := by
  cases i with
  | index slot => cases h; rfl
  | diff dr dg db => cases h; rfl
  | run n => cases h; rfl
  | luma dg drg dbg => exact operandOp_withCells h m
  | rgb r g b => exact operandOp_withCells h m
  | rgba r g b a => exact operandOp_withCells h m

theorem exhausted_withCells (s : State) (m : Memory) :
    exhausted (s.withCells m) = (exhausted s).withCells m :=
  (apply_ite (State.withCells · m) (s.cfg.truncation = .fail) (s.raise .malformedStream) s).symm

/-- What other bytes of IN change in a decoder step from `s`: `u` is `t` with those bytes, but for the result when the
step is the last pixel's, where the end check reads the marker region (rule R176). -/
structure DiffersInCells (m : Memory) (s t u : State) : Prop where
  state : u = { t.withCells m with result := u.result }
  result : s.pos + 1 < s.desc.pixels → u.result = t.result

theorem differsInCells_withCells (m : Memory) (s t : State) : DiffersInCells m s t (t.withCells m) :=
  ⟨rfl, fun _ => rfl⟩

/-- The end of a DECODE leaves the block idle whatever the end check finds; only the result tells (rules R176, R177). -/
theorem exists_finishDecode_eq_finish (s : State) : ∃ r, finishDecode s = s.finish r := by
  rcases finishDecode_cases s with h | h <;> exact ⟨_, h⟩

/-- Before the last pixel the end of a decoder step reads no byte of IN; at the last one only the end check does (rules
R175, R176). -/
theorem completePixel_withCells (s : State) (m : Memory) :
    DiffersInCells m s (completePixel s) (completePixel (s.withCells m)) := by
  show DiffersInCells m s (ite (s.pos + 1 < s.desc.pixels) _ _)
    (ite (s.pos + 1 < s.desc.pixels) _ (finishDecode ((writePixel s).withCells m)))
  split_ifs with hmore
  · exact differsInCells_withCells m s _
  · obtain ⟨r, hr⟩ := exists_finishDecode_eq_finish (writePixel s)
    obtain ⟨r', hr'⟩ := exists_finishDecode_eq_finish ((writePixel s).withCells m)
    rw [hr, hr']
    exact ⟨rfl, fun h => absurd h hmore⟩

theorem completeUnlessRaised_withCells (s : State) (m : Memory) :
    DiffersInCells m s (completeUnlessRaised s) (completeUnlessRaised (s.withCells m)) := by
  show DiffersInCells m s (ite (s.phase = .decoding) _ _) (ite (s.phase = .decoding) _ _)
  split_ifs
  · exact completePixel_withCells s m
  · exact differsInCells_withCells m s s

/-- The difference may be counted from any state at the same pixel of the same image. -/
theorem DiffersInCells.of_same_pixel {s' : State} (h : DiffersInCells m s' t u) (hpos : s'.pos = s.pos)
    (hdesc : s'.desc = s.desc) : DiffersInCells m s t u :=
  ⟨h.state, fun hmore => h.result (by rwa [hpos, hdesc])⟩

theorem decodePixel_withCells (h : decodePixel s = .next t) (hm : AgreesBelowLimit m s) :
    ∃ u, decodePixel (s.withCells m) = .next u ∧ DiffersInCells m s t u := by
  unfold decodePixel
  rw [pixelSource_withCells hm]
  rcases decodePixel_cases h with ⟨hsrc, rfl⟩ | ⟨i, v, hsrc, hexec, rfl⟩ | ⟨hsrc, rfl⟩ | ⟨hsrc, rfl⟩ <;> rw [hsrc]
  · exact ⟨_, rfl, (completeUnlessRaised_withCells (continueRun s) m).of_same_pixel rfl rfl⟩
  · refine ⟨completeUnlessRaised (v.withCells m), by simp only [exec_withCells hexec m, afterOp], ?_⟩
    exact (completeUnlessRaised_withCells v m).of_same_pixel (exec_out_pos hexec).2 (exec_frame hexec).desc
  · exact ⟨_, rfl, differsInCells_withCells m s _⟩
  · refine ⟨_, rfl, ?_⟩
    rw [exhausted_withCells]
    exact (completeUnlessRaised_withCells (exhausted s) m).of_same_pixel (exhausted_out_pos s).2
      (exhausted_frame s).desc

end Sys2Proof.Machine

open Sys2Proof Sys2Proof.Machine

/-- Settles O58: the source of the pixel is the same, the op executes the same, and only the end check after the last
pixel may see the other bytes. -/
theorem noOpByteIsReadAboveItsBound : Obligations.NoOpByteIsReadAboveItsBound := by
  intro s t other hphase hlen hfail href h
  rw [step_decoding hphase] at h
  obtain ⟨u, hu, hdiff⟩ := decodePixel_withCells h (agreesBelowLimit_of_policy hlen hfail href)
  refine ⟨u, (step_decoding (s := s.withCells other) hphase).trans hu, ?_⟩
  refine ⟨?_, ?_, ?_, ?_, ?_, ?_, ?_, fun hmore => ⟨?_, hdiff.result hmore⟩⟩ <;> rw [hdiff.state] <;> rfl

end

section
/-! The codec of rules R74 to R83: decoding undoes encoding (statement O1), op by op. An operand in range is a field
with a bias; what the fields of the tag byte read back as is then a finite fact about each format. -/

namespace Sys2Proof

/-- A value in a range of `n` values is a field in 0..n−1 with the range's lower end as its bias (rules R76, R77). -/
theorem exists_field_of_inRange {lo hi v : Int} {n : Nat} (h : inRange lo hi v = true) (hn : hi < lo + n) :
    ∃ f : Fin n, v = (f.val : Int) + lo := by
  simp only [inRange, Bool.and_eq_true, decide_eq_true_eq] at h
  exact ⟨⟨(v - lo).toNat, by omega⟩, by simp only; omega⟩

/-- INDEX: the six low bits are the slot (rule R75). -/
theorem decode_encode_index : ∀ slot : Fin 64, decode (encode (.index slot)) = .ok (.index slot, []) := by decide

/-- DIFF: three 2-bit fields with bias 2 (rule R76). -/
theorem decode_encode_diff : ∀ r g b : Fin 4,
    decode (encode (.diff (r.val + -2) (g.val + -2) (b.val + -2))) =
      .ok (.diff (r.val + -2) (g.val + -2) (b.val + -2), []) := by decide

/-- The tag byte of LUMA: its top bits are 10, its low bits the green delta with bias 32 (rule R77). -/
theorem lumaTag_fields : ∀ g : Fin 64,
    let b1 : Byte := 0x80 ||| BitVec.ofInt 8 (g.val + -32 + 32)
    b1 ≠ 0xFE ∧ b1 ≠ 0xFF ∧ bits b1 7 6 = 2 ∧ bits b1 5 0 = g.val := by decide

/-- The second byte of LUMA: two nibbles, each with bias 8 (rule R77). -/
theorem lumaCross_fields : ∀ x y : Fin 16,
    let b2 : Byte := (BitVec.ofInt 8 (x.val + -8 + 8) <<< 4) ||| BitVec.ofInt 8 (y.val + -8 + 8)
    bits b2 7 4 = x.val ∧ bits b2 3 0 = y.val := by decide

/-- LUMA: a 6-bit field, then two nibbles (rule R77). -/
theorem decode_encode_luma (g : Fin 64) (x y : Fin 16) :
    decode (encode (.luma (g.val + -32) (x.val + -8) (y.val + -8))) =
      .ok (.luma (g.val + -32) (x.val + -8) (y.val + -8), []) := by
  obtain ⟨hFE, hFF, htag, hg⟩ := lumaTag_fields g
  obtain ⟨hx, hy⟩ := lumaCross_fields x y
  simp only [encode, decode, if_neg hFE, if_neg hFF, htag, hg, hx, hy]
  rfl

/-- RUN: the field is the length less 1; 62 and 63 are the two full-byte tags (rule R78). -/
theorem decode_encode_run : ∀ n : Fin 62, decode (encode (.run (n.val + 1))) = .ok (.run (n.val + 1), []) := by decide

/-- The bytes of a well-formed op decode to it (rules R75 to R80, R82). -/
theorem decode_encode {i : Instr} (h : i.wf = true) : decode (encode i) = .ok (i, []) := by
  cases i with
  | index slot => exact decode_encode_index slot
  | diff dr dg db =>
    simp only [Instr.wf, Bool.and_eq_true] at h
    obtain ⟨⟨hr, hg⟩, hb⟩ := h
    obtain ⟨r, rfl⟩ := exists_field_of_inRange (n := 4) hr (by decide)
    obtain ⟨g, rfl⟩ := exists_field_of_inRange (n := 4) hg (by decide)
    obtain ⟨b, rfl⟩ := exists_field_of_inRange (n := 4) hb (by decide)
    exact decode_encode_diff r g b
  | luma dg drg dbg =>
    simp only [Instr.wf, Bool.and_eq_true] at h
    obtain ⟨⟨hg, hr⟩, hb⟩ := h
    obtain ⟨g, rfl⟩ := exists_field_of_inRange (n := 64) hg (by decide)
    obtain ⟨x, rfl⟩ := exists_field_of_inRange (n := 16) hr (by decide)
    obtain ⟨y, rfl⟩ := exists_field_of_inRange (n := 16) hb (by decide)
    exact decode_encode_luma g x y
  | run n =>
    simp only [Instr.wf, maxRun, Bool.and_eq_true, decide_eq_true_eq] at h
    obtain ⟨k, rfl⟩ := Nat.exists_eq_add_of_le' h.1
    exact decode_encode_run ⟨k, by omega⟩
  | rgb r g b => rfl
  | rgba r g b a => rfl

end Sys2Proof

open Sys2Proof Sys2Proof.Machine

/-- Settles O1: the op's own bytes decode to it, and bytes after an op change nothing but what is left. -/
theorem decodeOfEncodeIsIdentity : Obligations.DecodeOfEncodeIsIdentity := by
  intro i rest h
  simpa using decode_append rest (decode_encode h)

end

section
/-! What decodes, said once: the branches of `decode` as a relation (rules R74, R81, R166). Each format is put together
again from its fields: the statement O2. -/

namespace Sys2Proof

/-- Bytes that begin with an op, the op, and the bytes after it: one case per format, with the tag bits that select
it. -/
inductive Decodes : List Byte → Instr → List Byte → Prop
  | index {b1 : Byte} {tail : List Byte} (htag : bits b1 7 6 = 0) :
    Decodes (b1 :: tail) (.index (slotField b1)) tail
  | diff {b1 : Byte} {tail : List Byte} (htag : bits b1 7 6 = 1) :
    Decodes (b1 :: tail) (.diff ((bits b1 5 4 : Int) - 2) ((bits b1 3 2 : Int) - 2) ((bits b1 1 0 : Int) - 2)) tail
  | luma {b1 b2 : Byte} {tail : List Byte} (htag : bits b1 7 6 = 2) :
    Decodes (b1 :: b2 :: tail)
      (.luma ((bits b1 5 0 : Int) - 32) ((bits b2 7 4 : Int) - 8) ((bits b2 3 0 : Int) - 8)) tail
  | run {b1 : Byte} {tail : List Byte} (htag : bits b1 7 6 = 3) (hFE : b1 ≠ 0xFE) (hFF : b1 ≠ 0xFF) :
    Decodes (b1 :: tail) (.run (bits b1 5 0 + 1)) tail
  | rgb {r g b : Byte} {tail : List Byte} : Decodes (0xFE :: r :: g :: b :: tail) (.rgb r g b) tail
  | rgba {r g b a : Byte} {tail : List Byte} : Decodes (0xFF :: r :: g :: b :: a :: tail) (.rgba r g b a) tail

/-- Whatever `decode` answers, it answers by one of the formats. -/
theorem decodes_of_decode {bs tail : List Byte} {i : Instr} (h : decode bs = .ok (i, tail)) : Decodes bs i tail := by
  cases bs with
  | nil => cases h
  | cons b1 rest =>
    simp only [decode] at h
    split_ifs at h with hFE hFF hindex hdiff hluma
    · subst hFE
      split at h <;> cases h
      exact .rgb
    · subst hFF
      split at h <;> cases h
      exact .rgba
    · cases h
      exact .index hindex
    · cases h
      exact .diff hdiff
    · split at h <;> cases h
      exact .luma hluma
    · cases h
      have := Machine.bits_lt b1 7 6
      exact .run (by omega) hFE hFF

/-! ### The bytes of each format, put together again from their fields (rule R82) -/

theorem encode_indexFields : ∀ b1 : Byte, bits b1 7 6 = 0 → encode (.index (slotField b1)) = [b1] := by decide

theorem encode_diffFields : ∀ b1 : Byte, bits b1 7 6 = 1 →
    encode (.diff ((bits b1 5 4 : Int) - 2) ((bits b1 3 2 : Int) - 2) ((bits b1 1 0 : Int) - 2)) = [b1] := by decide

theorem encode_runFields : ∀ b1 : Byte, bits b1 7 6 = 3 → encode (.run (bits b1 5 0 + 1)) = [b1] := by decide

theorem lumaTag_of_field : ∀ b1 : Byte, bits b1 7 6 = 2 →
    0x80 ||| BitVec.ofInt 8 ((bits b1 5 0 : Int) - 32 + 32) = b1 := by decide

theorem lumaCross_of_fields : ∀ b2 : Byte,
    (BitVec.ofInt 8 ((bits b2 7 4 : Int) - 8 + 8) <<< 4) ||| BitVec.ofInt 8 ((bits b2 3 0 : Int) - 8 + 8) = b2 := by
  decide

/-- No bit of an op's bytes is dropped (rule R82). -/
theorem Decodes.encode_append {bs tail : List Byte} {i : Instr} (h : Decodes bs i tail) : encode i ++ tail = bs := by
  cases h with
  | index htag => rw [encode_indexFields _ htag]; rfl
  | diff htag => rw [encode_diffFields _ htag]; rfl
  | luma htag => rw [encode, lumaTag_of_field _ htag, lumaCross_of_fields]; rfl
  | run htag => rw [encode_runFields _ htag]; rfl
  | rgb => rfl
  | rgba => rfl

end Sys2Proof

open Sys2Proof Sys2Proof.Machine

/-- Settles O2: what decodes has its operands in range, and each format is put together again from its fields. -/
theorem encodeOfDecodeIsIdentity : Obligations.EncodeOfDecodeIsIdentity := fun _ _ _ h =>
  ⟨wf_of_decode h, (decodes_of_decode h).encode_append⟩

end

section
/-! The first byte selects the op, and the number of bytes decides whether there is one (rules R74, R83): the statements
O3 and O4, and the sample words of O5. -/

namespace Sys2Proof

/-- The top two bits of a byte as its quarter of 0..255 (rule R10). -/
theorem bits_7_6 (b : Byte) : bits b 7 6 = b.toNat / 64 := by
  have := b.isLt
  simp only [bits]
  omega

/-- `oplen` by the ranges of the first byte (rule R74). -/
theorem opLen_eq_table (b1 : Byte) :
    opLen b1 = if b1 = 0xFE then 4 else if b1 = 0xFF then 5
      else if 0x80 ≤ b1.toNat ∧ b1.toNat < 0xC0 then 2 else 1 := by
  have hquarter : bits b1 7 6 = 2 ↔ 0x80 ≤ b1.toNat ∧ b1.toNat < 0xC0 := by rw [bits_7_6]; omega
  simp only [opLen, hquarter]

/-- Every well-formed op is written in as many bytes as its first one says (rule R74). -/
theorem opLength_statement (i : Instr) : Laws.OpLength.Statement i := by
  cases i with
  | index slot => exact Laws.OpLength.index slot
  | diff dr dg db => exact Laws.OpLength.diff dr dg db
  | luma dg drg dbg => exact Laws.OpLength.luma dg drg dbg
  | run n => exact Laws.OpLength.run n
  | rgb r g b => exact Laws.OpLength.rgb r g b
  | rgba r g b a => exact Laws.OpLength.rgba r g b a

/-- What decodes is as long as its first byte says, and the bytes after it are those after that many (rule R74). -/
theorem length_and_tail_of_decode {b1 : Byte} {rest tail : List Byte} {i : Instr}
    (h : decode (b1 :: rest) = .ok (i, tail)) : i.length = opLen b1 ∧ tail = rest.drop (opLen b1 - 1) := by
  obtain ⟨b, operands, henc, hcount, hlen⟩ := opLength_statement i (Machine.wf_of_decode h)
  have hbytes := (decodes_of_decode h).encode_append
  rw [henc, List.cons_append] at hbytes
  obtain ⟨rfl, rfl⟩ := List.cons.inj hbytes
  refine ⟨hlen.symm, ?_⟩
  rw [hlen, ← hcount, Nat.add_sub_cancel, List.drop_left]

/-- The format that decodes is the one whose range the first byte is in (rule R74). -/
theorem Decodes.format_of_firstByte {b1 : Byte} {rest tail : List Byte} {i : Instr} (h : Decodes (b1 :: rest) i tail) :
    (b1.toNat < 0x40 ↔ ∃ slot, i = .index slot) ∧
    (0x40 ≤ b1.toNat ∧ b1.toNat < 0x80 ↔ ∃ dr dg db, i = .diff dr dg db) ∧
    (0x80 ≤ b1.toNat ∧ b1.toNat < 0xC0 ↔ ∃ dg drg dbg, i = .luma dg drg dbg) ∧
    (0xC0 ≤ b1.toNat ∧ b1.toNat < 0xFE ↔ ∃ n, i = .run n) ∧
    (b1 = 0xFE ↔ ∃ r g b, i = .rgb r g b) ∧
    (b1 = 0xFF ↔ ∃ r g b a, i = .rgba r g b a) := by
  have hlt := b1.isLt
  have hFE : b1 = 0xFE ↔ b1.toNat = 254 := BitVec.toNat_inj.symm
  have hFF : b1 = 0xFF ↔ b1.toNat = 255 := BitVec.toNat_inj.symm
  rw [hFE, hFF]
  cases h with
  | index htag => rw [bits_7_6] at htag; simp; omega
  | diff htag => rw [bits_7_6] at htag; simp; omega
  | luma htag => rw [bits_7_6] at htag; simp; omega
  | run htag hnFE hnFF => rw [bits_7_6] at htag; rw [Ne, hFE] at hnFE; rw [Ne, hFF] at hnFF; simp; omega
  | rgb => simp
  | rgba => simp

/-- With fewer bytes than `oplen` of the first one, an operand byte is missing (rules R74, R83). -/
theorem decode_eq_missingOperands {b1 : Byte} {rest : List Byte} (h : rest.length + 1 < opLen b1) :
    decode (b1 :: rest) = .error .missingOperands := by
  simp only [decode]
  split_ifs with hFE hFF hindex hdiff hluma
  · rw [opLen, if_pos hFE] at h
    split
    · simp only [List.length_cons] at h; omega
    · rfl
  · rw [opLen, if_neg hFE, if_pos hFF] at h
    split
    · simp only [List.length_cons] at h; omega
    · rfl
  · rw [opLen, if_neg hFE, if_neg hFF, if_neg (by omega)] at h; omega
  · rw [opLen, if_neg hFE, if_neg hFF, if_neg (by omega)] at h; omega
  · rw [opLen, if_neg hFE, if_neg hFF, if_pos hluma] at h
    split
    · simp only [List.length_cons] at h; omega
    · rfl
  · rw [opLen, if_neg hFE, if_neg hFF, if_neg (by omega)] at h; omega

end Sys2Proof

open Sys2Proof Sys2Proof.Machine

/-- Settles O3: the length is that of the op whose bytes were decoded, the format the one its tag bits select. -/
theorem firstByteSelectsOpAndLength : Obligations.FirstByteSelectsOpAndLength := by
  intro b1
  refine ⟨opLen_eq_table b1, fun rest i tail h => ?_⟩
  obtain ⟨hlen, htail⟩ := length_and_tail_of_decode h
  exact ⟨hlen, htail, (decodes_of_decode h).format_of_firstByte⟩

/-- Settles O4: `decode` fails only in the branches that look for an operand byte, and each looks for as many as `oplen`
says. -/
theorem onlyMissingBytesAreRejected : Obligations.OnlyMissingBytesAreRejected := fun _ _ =>
  ⟨exists_decode_eq_ok, decode_eq_missingOperands⟩

/-- Settles O5: each conjunct is one evaluation of the decoder. -/
theorem sampleWordsDecode : Obligations.SampleWordsDecode := by
  unfold Obligations.SampleWordsDecode
  decide
end

section
/-! What one pixel of the encoder writes, as a list of ops (rules R70, R126 to R134). -/

namespace Sys2Proof.Machine

/-- Between two states the bytes of these ops are written at the output cursor, and no other byte; every op is well
formed. -/
structure Writes (ops : List Instr) (s t : State) : Prop where
  wf : ∀ i ∈ ops, i.wf = true
  emitted : Emitted s t (ops.flatMap encode)

variable {s t u : State} {ops ops' : List Instr} {px : Pixel}

theorem writes_nil (hwr : t.wr = s.wr) (hout : t.out = s.out) : Writes [] s t := ⟨nofun, emitted_nil hwr hout⟩

theorem Writes.trans (h1 : Writes ops s t) (h2 : Writes ops' t u) : Writes (ops ++ ops') s u where
  wf i hi := (List.mem_append.1 hi).elim (h1.wf i) (h2.wf i)
  emitted := by rw [List.flatMap_append]; exact h1.emitted.trans h2.emitted

/-- Only the cursor and the output matter. -/
theorem Writes.congr (h : Writes ops s t) (hwr : u.wr = t.wr) (hout : u.out = t.out) : Writes ops s u :=
  ⟨h.wf, h.emitted.congr hwr hout⟩

theorem writes_emitOp {i : Instr} (hout : s.out.wf = true) (hi : i.wf = true) : Writes [i] s (s.emitOp i) where
  wf j hj := List.mem_singleton.1 hj ▸ hi
  emitted := by rw [List.flatMap_singleton]; exact emitted_emit _ hout

/-- A run of 1 to 62 pixels is flushed as one well-formed RUN op (rules R78, R127, R128). -/
theorem writes_flushRun (hout : s.out.wf = true) (h1 : 1 ≤ s.run.toNat) (h62 : s.run.toNat ≤ 62) :
    Writes [.run s.run.toNat] s (flushRun s) :=
  (writes_emitOp hout (by simp [Instr.wf, h1, h62])).congr rfl rfl

theorem exists_writes_flushPending (hout : s.out.wf = true) (hrun : s.run.toNat ≤ 61) :
    ∃ ops, Writes ops s (flushPending s) := by
  unfold flushPending
  split_ifs with h0
  · exact ⟨[], writes_nil rfl rfl⟩
  · exact ⟨_, writes_flushRun hout (by bv_omega) (by omega)⟩

/-- The chosen literal encoding has its operands in range: DIFF and LUMA are chosen only when they are (rules R131 to
R134). -/
theorem wf_chooseOp (px prev : Pixel) : (chooseOp px prev).wf = true := by
  unfold chooseOp
  split_ifs
  · rcases chooseByDeltas_cases (s8diff px.r prev.r) (s8diff px.g prev.g) (s8diff px.b prev.b) px with
      ⟨h, hwf⟩ | ⟨h, hwf⟩ | h <;> rw [h]
    · exact hwf
    · exact hwf
    · rfl
  · rfl

/-! ### A pixel equal to `prev` -/

/-- The run one longer, which 6 bits hold (rule R26). -/
theorem run_succ_toNat (hrun : s.run.toNat ≤ 61) : (s.run + 1).toNat = s.run.toNat + 1 := by bv_omega

/-- At 62 pixels, or at the last pixel, the run is written as one RUN op and cleared (rules R126, R127). -/
theorem encodeOne_flushes (hpx : px = s.prev) (hout : s.out.wf = true) (hrun : s.run.toNat ≤ 61)
    (hfull : s.run.toNat + 1 = maxRun ∨ s.pos + 1 = s.desc.pixels) :
    Writes [.run (s.run.toNat + 1)] s (encodeOne px s) ∧ (encodeOne px s).run = 0 := by
  have hinc := run_succ_toNat hrun
  have he : encodeOne px s = (flushRun (s.setRun (s.run + 1))).setPrev px := by
    rw [encodeOne, if_pos hpx, extendRun, if_pos (by rwa [State.setRun_run, hinc])]
  have hw := writes_flushRun (s := s.setRun (s.run + 1)) hout (by rw [State.setRun_run]; omega)
    (by rw [State.setRun_run]; omega)
  rw [State.setRun_run, hinc] at hw
  rw [he]
  have hgrown : Writes [] s (s.setRun (s.run + 1)) := writes_nil rfl rfl
  exact ⟨(hgrown.trans hw).congr rfl rfl, rfl⟩

/-- Elsewhere the run grows and nothing is written (rule R126). -/
theorem encodeOne_grows (hpx : px = s.prev) (hrun : s.run.toNat ≤ 61) (hshort : s.run.toNat + 1 ≠ maxRun)
    (hmore : s.pos + 1 ≠ s.desc.pixels) :
    Writes [] s (encodeOne px s) ∧ (encodeOne px s).run.toNat = s.run.toNat + 1 := by
  have hinc := run_succ_toNat hrun
  have he : encodeOne px s = (s.setRun (s.run + 1)).setPrev px := by
    rw [encodeOne, if_pos hpx, extendRun, if_neg (by rw [State.setRun_run, hinc]; exact not_or.2 ⟨hshort, hmore⟩)]
  rw [he]
  exact ⟨writes_nil rfl rfl, hinc⟩

/-! ### Any pixel -/

/-- One pixel writes well-formed ops, and the last one at least one: its run is flushed, or it has an op of its own. -/
theorem exists_writes_encodeOne (px : Pixel) (hout : s.out.wf = true) (hrun : s.run.toNat ≤ 61) :
    ∃ ops, Writes ops s (encodeOne px s) ∧ (s.pos + 1 = s.desc.pixels → ops ≠ []) := by
  obtain ⟨pending, hp⟩ := exists_writes_flushPending hout hrun
  have hout' := wf_flushPending hout
  rcases encodeOne_cases px s with ⟨hpx, -⟩ | ⟨-, -, he⟩ | ⟨-, -, he⟩
  · by_cases hfull : s.run.toNat + 1 = maxRun ∨ s.pos + 1 = s.desc.pixels
    · exact ⟨_, (encodeOne_flushes hpx hout hrun hfull).1, by simp⟩
    · obtain ⟨hshort, hmore⟩ := not_or.1 hfull
      exact ⟨[], (encodeOne_grows hpx hrun hshort hmore).1, fun hlast => absurd hlast hmore⟩
  · rw [he]
    have hop := writes_emitOp (i := .index (hash px)) hout' rfl
    exact ⟨_, (hp.trans hop).congr rfl rfl, by simp⟩
  · rw [he]
    have hop := writes_emitOp (s := (flushPending s).storeEnc px) hout' (wf_chooseOp px (flushPending s).prev)
    have hstored : Writes pending s ((flushPending s).storeEnc px) := hp.congr rfl rfl
    exact ⟨_, (hstored.trans hop).congr rfl rfl, by simp⟩

end Sys2Proof.Machine
end

section
/-! A whole ENCODE, from any state of the rest of the block: what it writes, put together pixel by pixel (rules R70,
R123, R124, R136, R137). The statement O54. -/

namespace Sys2Proof.Machine

/-- An ENCODE between its pixel steps. Unlike `Inv` this asks nothing of the elements the command does not use. -/
structure MidEncode (s : State) : Prop where
  phase : s.phase = .encoding
  enc : EncInv s
  out : s.out.wf = true

/-- The command has ended well: since `s` it has written these ops and the end marker, and its output is within the
bound (rules R136, R137). -/
structure Encoded (ops : List Instr) (s t : State) : Prop where
  phase : t.phase = .idle
  result : t.result = some { status := .ok, outLen := t.wr, desc := none }
  wf : ∀ i ∈ ops, i.wf = true
  emitted : Emitted s t (ops.flatMap encode ++ endMarker)
  bound : t.wr ≤ encodeBound s.desc

/-- In `n` steps the running ENCODE writes these ops and ends well. -/
def EncodesTo (n : Nat) (s : State) (ops : List Instr) : Prop := ∃ t, runFor n s = .next t ∧ Encoded ops s t

variable {s t : State} {ops ops' : List Instr} {px : Pixel} {n : Nat}

theorem MidEncode.step_eq (h : MidEncode s) (hread : readPixel s = some px) :
    step s = .next (encodeAdvance (encodeOne px s)) := by
  rw [step_encoding h.phase, encodePixel, hread]

/-- A pixel that is not the last leaves the command between its pixel steps. -/
theorem MidEncode.advancePos (h : MidEncode s) (hread : readPixel s = some px) (hmore : s.pos + 1 < s.desc.pixels) :
    MidEncode (encodeOne px s).advancePos := by
  have hpx := readPixel_alpha hread
  have hf := encodeOne_frame px s
  obtain ⟨hcov, hrun⟩ := h.enc.encodeOne hpx
  obtain ⟨hprev, hpos, hphase⟩ := encodeOne_prev_pos_phase px s
  rw [← hpos] at hcov
  refine ⟨hphase.trans h.phase, ?_, wf_encodeOne px h.out⟩
  exact
    { desc := show validDesc (encodeOne px s).desc = true from hf.desc ▸ h.enc.desc
      len := by simp only [State.advancePos_inp, State.advancePos_desc, hf.inp, hf.desc]; exact h.enc.len
      pos := by simp only [State.advancePos_pos, State.advancePos_desc, hpos, hf.desc]; exact hmore
      alpha := by simp only [State.advancePos_prev, State.advancePos_desc, hprev, hf.desc]; exact hpx
      room := by simp only [State.advancePos_outCap, State.advancePos_desc, hf.outCap, hf.desc]; exact h.enc.room
      run := hrun, pending := hcov.pending, header := hcov.header, bound := hcov.bound, out := hcov.out }

/-- A pixel that is not the last writes its ops, and the rest of the command the rest. -/
theorem MidEncode.encodesTo_succ (h : MidEncode s) (hread : readPixel s = some px) (hmore : s.pos + 1 < s.desc.pixels)
    (hw : Writes ops s (encodeOne px s)) (hrest : EncodesTo n (encodeOne px s).advancePos ops') :
    EncodesTo (n + 1) s (ops ++ ops') := by
  obtain ⟨t, hrun, ht⟩ := hrest
  have hf := encodeOne_frame px s
  have hstep : step s = .next (encodeOne px s).advancePos := by
    rw [h.step_eq hread, encodeAdvance, (encodeOne_prev_pos_phase px s).2.1, hf.desc, if_pos hmore]
  refine ⟨t, (runFor_succ hstep).trans hrun, ht.phase, ht.result, ?_, ?_, ?_⟩
  · exact fun i hi => (List.mem_append.1 hi).elim (hw.wf i) (ht.wf i)
  · rw [List.flatMap_append, List.append_assoc]
    exact hw.emitted.trans ht.emitted
  · exact hf.desc ▸ ht.bound

/-- The last pixel writes its ops, and the end marker follows (rule R136). -/
theorem MidEncode.encodesTo_last (h : MidEncode s) (hread : readPixel s = some px) (hlast : s.pos + 1 = s.desc.pixels)
    (hw : Writes ops s (encodeOne px s)) : EncodesTo 1 s ops := by
  have hf := encodeOne_frame px s
  have hpos := (encodeOne_prev_pos_phase px s).2.1
  have hcov := (h.enc.encodeOne (readPixel_alpha hread)).1
  rcases encodeAdvance_cases (encodeOne px s) with ⟨hmore, -⟩ | ⟨-, ha⟩
  · rw [hpos, hf.desc] at hmore
    omega
  · refine ⟨_, runFor_succ ((h.step_eq hread).trans (congrArg _ ha)), rfl, rfl, hw.wf, ?_, ?_⟩
    · exact hw.emitted.trans ((emitted_emit endMarker (wf_encodeOne px h.out)).congr rfl rfl)
    · exact hf.desc ▸ hcov.wr_le_encodeBound (by rw [hf.desc, hlast])

/-- An ENCODE with `n + 1` pixels left writes well-formed ops, at least one (rule R70). -/
theorem MidEncode.exists_encodesTo (h : MidEncode s) (hleft : s.pos + (n + 1) = s.desc.pixels) :
    ∃ ops, ops ≠ [] ∧ EncodesTo (n + 1) s ops := by
  induction n generalizing s with
  | zero =>
    obtain ⟨px, hread⟩ := h.enc.exists_readPixel_eq_some
    obtain ⟨ops, hw, hne⟩ := exists_writes_encodeOne px h.out h.enc.run
    exact ⟨ops, hne hleft, h.encodesTo_last hread hleft hw⟩
  | succ n ih =>
    obtain ⟨px, hread⟩ := h.enc.exists_readPixel_eq_some
    obtain ⟨ops, hw, -⟩ := exists_writes_encodeOne px h.out h.enc.run
    have hmore : s.pos + 1 < s.desc.pixels := by omega
    obtain ⟨ops', hne, hrest⟩ := ih (h.advancePos hread hmore) (by
      rw [State.advancePos_pos, State.advancePos_desc, (encodeOne_prev_pos_phase px s).2.1, (encodeOne_frame px s).desc]
      omega)
    exact ⟨ops ++ ops', by simp [hne], h.encodesTo_succ hread hmore hw hrest⟩

/-! ### From the start of the command -/

variable {d : Desc} {r : Request}

/-- A command that has passed validation is before its first pixel step (rule R123). -/
theorem midEncode_beginEncode (hdesc : validDesc d = true) (hlen : r.inp.len = d.pixels * d.stride)
    (hroom : encodeBound d ≤ r.outCap) : MidEncode (beginEncode d r s) where
  phase := rfl
  out := Memory.wf_writeBytes rfl _ _
  enc :=
    { desc := hdesc, len := hlen, room := hroom, pos := pixels_pos_of_validDesc hdesc
      run := Nat.zero_le _, pending := Nat.zero_le _, alpha := fun _ => rfl
      header := Nat.le_refl 14
      bound := Nat.le_add_right 14 _
      out := emit_below _ nofun }

/-- Everything in OUT since the start: the header and what was written after it (rule R123). -/
theorem written_since_beginEncode {bs : List Byte} (h : Emitted (beginEncode d r s) t bs) :
    t.wr = (serialize d ++ bs).length ∧ t.out.readBytes 0 (serialize d ++ bs).length = serialize d ++ bs := by
  obtain ⟨hwr, hbytes, -⟩ := Emitted.trans (s := { s with out := [], wr := 0 }) (t := beginEncode d r s)
    ((emitted_emit (serialize d) rfl).congr rfl rfl) h
  exact ⟨hwr.trans (Nat.zero_add _), hbytes⟩

/-- The one command of an idle block begins when it passes its checks (rules R120 to R123). -/
theorem step_of_asked_encode (hasked : Asked s r) (hcmd : r.cmd = .encode d) (hdesc : validDesc d = true)
    (hlen : r.inp.len = d.pixels * d.stride) (hroom : encodeBound d ≤ r.outCap) :
    step s = .next (beginEncode d r { s with requests := [] }) := by
  obtain ⟨hidle, hreq⟩ := hasked
  simp [step_idle hidle, startNext, hreq, hcmd, startEncode, hdesc, hlen, Nat.not_lt.2 hroom]

/-- What a whole ENCODE leaves for the host, given what its pixel steps write (rules R70, R136, R137). -/
theorem encode_of_encodesTo (hasked : Asked s r) (hcmd : r.cmd = .encode d) (hdesc : validDesc d = true)
    (hlen : r.inp.len = d.pixels * d.stride) (hroom : encodeBound d ≤ r.outCap)
    (h : EncodesTo n (beginEncode d r { s with requests := [] }) ops) :
    ∃ t, runFor (n + 1) s = .next t ∧ t.phase = .idle ∧ (∀ i ∈ ops, i.wf = true) ∧
      t.result = some { status := .ok, outLen := (stream d ops).length, desc := none } ∧
      t.out.readBytes 0 (stream d ops).length = stream d ops ∧ (stream d ops).length ≤ encodeBound d := by
  obtain ⟨t, hrun, ht⟩ := h
  have hstep := step_of_asked_encode hasked hcmd hdesc hlen hroom
  obtain ⟨hwr, hbytes⟩ := written_since_beginEncode ht.emitted
  rw [← List.append_assoc] at hwr hbytes
  exact ⟨t, (runFor_succ hstep).trans hrun, ht.phase, ht.wf, hwr ▸ ht.result, hbytes, hwr ▸ ht.bound⟩

end Sys2Proof.Machine

open Sys2Proof Sys2Proof.Machine

/-- Settles O54: each pixel step writes well-formed ops within the bound of rule R137, the last one at least one; the
induction over the pixels puts them together behind the header. -/
theorem encodeWritesAWellFormedStream : Obligations.EncodeWritesAWellFormedStream := by
  intro s d inp cap hasked hdesc hlen hroom
  obtain ⟨n, hn⟩ : ∃ n, d.pixels = n + 1 := Nat.exists_eq_add_of_le' (pixels_pos_of_validDesc hdesc)
  have hmid := midEncode_beginEncode (s := { s with requests := [] })
    (r := { cmd := .encode d, inp := inp, outCap := cap }) hdesc hlen hroom
  obtain ⟨ops, hne, hops⟩ := hmid.exists_encodesTo (n := n) ((Nat.zero_add _).trans hn.symm)
  obtain ⟨t, hrun, hidle, hwf, hres, hbytes, hbound⟩ := encode_of_encodesTo hasked rfl hdesc hlen hroom hops
  rw [encodeBound] at hbound
  exact ⟨t, ops, hn ▸ hrun, hidle, hne, hwf, hres, hbytes, by omega⟩

end

section
/-! An image of one pixel repeated: the statement O57. The encoder reads that pixel at every position, so it writes runs
only (rules R87, R125 to R127). -/

namespace Sys2Proof.Machine

variable {s : State} {p : Pixel} {n : Nat}

/-! ### Reading the image -/

/-- The encoder's pixel is the one whose bytes stand at its address (rules R52, R125). -/
theorem readPixel_of_pixelBytes (hd : validDesc s.desc = true)
    (hbytes : s.inp.memRead (s.pos * s.desc.stride) s.desc.stride = some (pixelBytes s.desc p))
    (halpha : s.desc.channels = 3 → p.a = 255) : readPixel s = some p := by
  rcases stride_of_validDesc hd with ⟨hch, hs⟩ | ⟨hch, hs⟩ <;> rw [hs] at hbytes
  · have hcolors : s.inp.memRead (s.pos * 3) 3 = some [p.r, p.g, p.b] := by simpa [pixelBytes, hch] using hbytes
    simp [readPixel, hs, hcolors, hch, ← halpha hch]
  · obtain ⟨hlen, hread⟩ := Space.memRead_eq_some.1 hbytes
    have hcolors := Space.memRead_of_le (sp := s.inp) (a := s.pos * 4) (n := 3) (by omega)
    have hfourth := Space.memRead_of_le (sp := s.inp) (a := s.pos * 4 + 3) (n := 1) (by omega)
    simp only [pixelBytes, hch, if_true, Memory.readBytes_succ, Memory.readBytes_zero, List.cons.injEq] at hread
    obtain ⟨hr, hg, hb, ha, -⟩ := hread
    simp [readPixel, hs, hcolors, hfourth, hch, Memory.readBytes_succ, hr, hg, hb, ha]

/-- An input space of `n` copies of the same bytes (rule R52). -/
def uniformSpace (n : Nat) (bs : List Byte) : Space := Space.ofBytes (List.replicate n bs).flatten

theorem uniformSpace_len (n : Nat) (bs : List Byte) : (uniformSpace n bs).len = n * bs.length := by
  simp [uniformSpace, Space.ofBytes]

/-- Each copy reads back. -/
theorem memRead_uniformSpace {k : Nat} {bs : List Byte} (hk : k < n) :
    (uniformSpace n bs).memRead (k * bs.length) bs.length = some bs := by
  have hend : k * bs.length + bs.length ≤ n * bs.length := by
    rw [← Nat.succ_mul]
    exact Nat.mul_le_mul_right _ hk
  refine Space.memRead_eq_some.2 ⟨(uniformSpace_len n bs).symm ▸ hend, ?_⟩
  obtain ⟨m, rfl⟩ : ∃ m, n = k + (m + 1) := ⟨n - k - 1, by omega⟩
  rw [uniformSpace, Space.readBytes_ofBytes (by simpa using hend), List.replicate_add, List.flatten_append,
    List.drop_left' (by simp), List.replicate_succ, List.flatten_cons, List.take_left]

/-! ### A run of any length as RUN ops (rule R87) -/

theorem runOps_of_le (h1 : 1 ≤ n) (h62 : n ≤ maxRun) : runOps n = [.run n] := by
  rcases Nat.lt_or_eq_of_le h62 with hlt | rfl
  · rw [runOps, Nat.div_eq_of_lt hlt, Nat.mod_eq_of_lt hlt, if_neg (by omega)]
    rfl
  · rfl

theorem runOps_maxRun_add (n : Nat) : runOps (maxRun + n) = .run maxRun :: runOps n := by
  rw [runOps, runOps, Nat.add_div_left n (by decide), Nat.add_mod_left, List.replicate_succ, List.cons_append]

/-! ### The encoder on it -/

/-- On an image of `prev` only, the next pixel is `prev`. -/
theorem EncInv.readPixel_of_uniform (h : EncInv s)
    (hinp : s.inp = uniformSpace s.desc.pixels (pixelBytes s.desc s.prev)) : readPixel s = some s.prev := by
  refine readPixel_of_pixelBytes h.desc ?_ h.alpha
  rw [hinp, ← pixelBytes_length s.prev (validDesc_iff.1 h.desc).2.2.1]
  exact memRead_uniformSpace h.pos

/-- While every pixel equals `prev`, the pending run and the pixels left are written as RUN 62 as often as it fits and
one RUN for the rest: 62 pixels at a time, and what is pending after the last one (rules R87, R126, R127). -/
theorem MidEncode.encodesTo_runOps (h : MidEncode s)
    (hinp : s.inp = uniformSpace s.desc.pixels (pixelBytes s.desc s.prev))
    (hleft : s.pos + (n + 1) = s.desc.pixels) : EncodesTo (n + 1) s (runOps (s.run.toNat + (n + 1))) := by
  induction n generalizing s with
  | zero =>
    have hrun := h.enc.run
    rw [runOps_of_le (by omega) (by simp only [maxRun]; omega)]
    exact h.encodesTo_last (h.enc.readPixel_of_uniform hinp) hleft (encodeOne_flushes rfl h.out hrun (.inr hleft)).1
  | succ n ih =>
    have hrun := h.enc.run
    have hread := h.enc.readPixel_of_uniform hinp
    have hmore : s.pos + 1 < s.desc.pixels := by omega
    have hf := encodeOne_frame s.prev s
    obtain ⟨hprev, hpos, -⟩ := encodeOne_prev_pos_phase s.prev s
    have hrest := ih (h.advancePos hread hmore)
      (by simp only [State.advancePos_inp, State.advancePos_desc, State.advancePos_prev, hf.inp, hf.desc, hprev, hinp])
      (by simp only [State.advancePos_pos, State.advancePos_desc, hpos, hf.desc]; omega)
    rw [State.advancePos_run] at hrest
    by_cases h62 : s.run.toNat + 1 = maxRun
    · obtain ⟨hw, hcleared⟩ := encodeOne_flushes rfl h.out hrun (.inl h62)
      rw [hcleared, show (0 : BitVec 6).toNat + (n + 1) = n + 1 from Nat.zero_add _] at hrest
      rw [h62] at hw
      rw [show s.run.toNat + (n + 1 + 1) = maxRun + (n + 1) by omega, runOps_maxRun_add]
      exact h.encodesTo_succ hread hmore hw hrest
    · obtain ⟨hw, hgrown⟩ := encodeOne_grows rfl hrun h62 hmore.ne
      rw [hgrown, Nat.add_assoc, Nat.add_comm 1] at hrest
      have hall := h.encodesTo_succ hread hmore hw hrest
      rwa [List.nil_append] at hall

end Sys2Proof.Machine

open Sys2Proof Sys2Proof.Machine

/-- Settles O57: `prev` starts as the image's one pixel, so every pixel joins a run; the induction over the pixels takes
the runs 62 at a time. -/
theorem uniformStartImageEncodesAsRuns : Obligations.UniformStartImageEncodesAsRuns := by
  intro s d cap hasked hdesc hroom
  obtain ⟨n, hn⟩ : ∃ n, d.pixels = n + 1 := Nat.exists_eq_add_of_le' (pixels_pos_of_validDesc hdesc)
  have hlen : (uniformSpace d.pixels (pixelBytes d Pixel.start)).len = d.pixels * d.stride := by
    rw [uniformSpace_len, pixelBytes_length _ (validDesc_iff.1 hdesc).2.2.1]
  have hmid := midEncode_beginEncode (s := { s with requests := [] })
    (r := { cmd := .encode d, inp := uniformSpace d.pixels (pixelBytes d Pixel.start), outCap := cap }) hdesc hlen hroom
  have hops := hmid.encodesTo_runOps (n := n) rfl ((Nat.zero_add _).trans hn.symm)
  obtain ⟨t, hrun, hidle, -, hres, hbytes, -⟩ := encode_of_encodesTo hasked rfl hdesc hlen hroom hops
  have htotal : 0 + (n + 1) = d.pixels := by omega
  exact ⟨t, hn ▸ hrun, hidle, htotal ▸ hres, htotal ▸ hbytes⟩

end

section
/-! The header codec (rules R100 to R109): `parse` accepts exactly the byte lists that begin with the header bytes of a
legal description. The statements O23 and O24 are this fact read through the 14 bytes; O25 is the bound of R106. -/

namespace Sys2Proof.Machine

/-- The checks of rule R107 let a legal description through. -/
theorem checkDesc_of_validDesc {d : Desc} (h : validDesc d = true) : checkDesc d = .ok d := by
  simp only [validDesc, Bool.and_eq_true, decide_eq_true_eq] at h
  obtain ⟨⟨⟨⟨hw, hh⟩, hch⟩, hcs⟩, hceil⟩ := h
  rw [checkDesc, if_neg (not_or.2 ⟨hw, hh⟩)]
  simp [hch, hcs, hceil]

/-- The four bytes of a word are given by its value (rule R13). -/
theorem be32bytes_eq_iff {v : Word32} {a b c d : Byte} : be32bytes v = [a, b, c, d] ↔
    v.toNat = a.toNat * 2 ^ 24 + b.toNat * 2 ^ 16 + c.toNat * 2 ^ 8 + d.toNat := by
  rw [← be32_toNat, ← BitVec.toNat_eq]
  constructor
  · intro h
    obtain ⟨_, _, _, _, hbytes, rfl⟩ := be32bytes_eq v
    cases hbytes.symm.trans h
    rfl
  · rintro rfl
    exact be32bytes_be32 a b c d

/-- `parse` accepts a byte list exactly when it begins with the header of a legal description, and answers that
description (rules R100 to R108). -/
theorem parse_eq_ok_iff {bs : List Byte} {d : Desc} :
    parse bs = .ok d ↔ serialize d <+: bs ∧ validDesc d = true := by
  constructor
  · intro h
    unfold parse at h
    split at h
    case h_1 rest =>
      split_ifs at h with hmagic
      obtain ⟨rfl, hvalid⟩ := checkDesc_eq_ok h
      refine ⟨⟨rest, ?_⟩, hvalid⟩
      rw [serialize, be32bytes_be32, be32bytes_be32, ← not_not.1 hmagic]
      rfl
    case h_2 => cases h
  · rintro ⟨⟨rest, rfl⟩, hvalid⟩
    obtain ⟨w0, w1, w2, w3, hw, hwidth⟩ := be32bytes_eq d.width
    obtain ⟨h0, h1, h2, h3, hh, hheight⟩ := be32bytes_eq d.height
    rw [serialize, hw, hh]
    simp only [magic, List.cons_append, List.nil_append, parse, ne_eq, not_true_eq_false, if_false, hwidth, hheight]
    exact checkDesc_of_validDesc hvalid

/-- The first bytes of a list that is long enough, by their positions. -/
theorem take_eq_map_getD {bs : List Byte} {n : Nat} (h : n ≤ bs.length) :
    bs.take n = (List.range n).map (bs.getD · 0) := by
  apply List.ext_getElem
  · simpa using h
  · intro i hi _
    have hlt : i < bs.length := hi.trans_le (List.length_take_le' n bs)
    simp [hlt]

/-- The layout of the header (rule R100): which bytes a list has at the 14 positions when it begins with one. -/
theorem serialize_prefix_iff {bs : List Byte} {d : Desc} : serialize d <+: bs ↔
    14 ≤ bs.length ∧ bs.take 4 = magic ∧ be32bytes d.width = [bs.getD 4 0, bs.getD 5 0, bs.getD 6 0, bs.getD 7 0] ∧
      be32bytes d.height = [bs.getD 8 0, bs.getD 9 0, bs.getD 10 0, bs.getD 11 0] ∧
      d.channels = bs.getD 12 0 ∧ d.colorspace = bs.getD 13 0 := by
  by_cases hlen : 14 ≤ bs.length
  · rw [List.prefix_iff_eq_take, serialize_length, take_eq_map_getD hlen, take_eq_map_getD (by omega : 4 ≤ bs.length),
      eq_comm (b := magic)]
    simp [List.range_succ, serialize, magic, be32bytes, hlen, and_assoc]
  · exact iff_of_false (fun h => hlen h.length_le) (fun h => hlen h.1)

/-- A legal description is at most half the ceiling wide: its height is at least 1 and below the quotient (rule R106). -/
theorem width_le_of_validDesc {d : Desc} (h : validDesc d = true) : d.width.toNat ≤ 200000000 := by
  obtain ⟨hw, hh, -, -, hceil⟩ := validDesc_iff.1 h
  have hw0 : 0 < d.width.toNat := by bv_omega
  have hquot : 2 ≤ 400000000 / d.width.toNat := by bv_omega
  have := (Nat.le_div_iff_mul_le hw0).1 hquot
  omega

end Sys2Proof.Machine

open Sys2Proof Sys2Proof.Machine

/-- Settles O23: what `parse` accepts begins with the header of a legal description, and that header is read off the 14
positions. -/
theorem parseAcceptsExactlyValidHeaders : Obligations.ParseAcceptsExactlyValidHeaders := by
  intro bs d
  rw [parse_eq_ok_iff, serialize_prefix_iff, be32bytes_eq_iff, be32bytes_eq_iff, validDesc_iff]
  simp only [and_assoc, magic]

/-- Settles O24: `serialize d` begins itself, and it is 14 bytes long, so a list that begins with it has it as its first 14
bytes. -/
theorem headerCodecRoundTrip : Obligations.HeaderCodecRoundTrip :=
  ⟨fun _ hvalid => parse_eq_ok_iff.2 ⟨List.prefix_rfl, hvalid⟩,
    fun _ _ hparse => List.prefix_iff_eq_take.1 (parse_eq_ok_iff.1 hparse).1⟩

/-- Settles O25: the ceiling of rule R106 bounds the pixels and, as no dimension is 0, the width; the largest stream is
the room an ENCODE asks for. -/
theorem validDescriptionsAreBounded : Obligations.ValidDescriptionsAreBounded :=
  fun _ h => ⟨pixels_lt_of_validDesc h, pixels_pos_of_validDesc h, width_le_of_validDesc h,
    encodeBound_lt_of_validDesc h⟩

end

section
/-! The start of an ENCODE as rules R121 to R123 and R222 list it: the statements O26 and O27. -/

namespace Sys2Proof.Machine

variable {s : State} {r : Request} {rest : List Request} {d : Desc} {len : Nat}

/-- The cases in which an ENCODE of a buffer of `len` bytes is rejected (rule R222). -/
def RejectedEncode (d : Desc) (len : Nat) : Prop :=
  d.width = 0 ∨ d.height = 0 ∨ ¬(d.channels = 3 ∨ d.channels = 4) ∨ ¬(d.colorspace = 0 ∨ d.colorspace = 1) ∨
    400000000 / d.width.toNat ≤ d.height.toNat ∨ len ≠ d.width.toNat * d.height.toNat * d.channels.toNat

/-- Outside the listed cases the description is a legal one and the buffer has its length (rules R107, R122). -/
theorem not_rejectedEncode_iff : ¬RejectedEncode d len ↔ validDesc d = true ∧ len = d.pixels * d.stride := by
  simp only [RejectedEncode, validDesc_iff, Desc.pixels, Desc.stride, not_or, not_and_or, not_not, not_le,
    ne_eq, and_assoc]

theorem startEncode_of_rejected (h : RejectedEncode d r.inp.len) :
    startEncode d r s = .next (s.raise .invalidDescription) := by
  have hfails : ¬(validDesc d = true ∧ r.inp.len = d.pixels * d.stride) := fun hok => not_rejectedEncode_iff.2 hok h
  unfold startEncode
  split_ifs with hvalid hlen
  · rfl
  · rfl
  all_goals exact absurd ⟨by simpa using hvalid, not_not.1 hlen⟩ hfails

theorem startEncode_of_valid (hdesc : validDesc d = true) (hlen : r.inp.len = d.pixels * d.stride)
    (hroom : encodeBound d ≤ r.outCap) : startEncode d r s = .next (beginEncode d r s) := by
  simp [startEncode, hdesc, hlen, Nat.not_lt.2 hroom]

/-- An idle block whose oldest command is an ENCODE takes it and starts it (rules R226, R235). -/
theorem step_eq_startEncode (hidle : s.phase = .idle) (hreq : s.requests = r :: rest) (hcmd : r.cmd = .encode d) :
    step s = startEncode d r { s with requests := rest } := by
  simp only [step_idle hidle, startNext, hreq, hcmd]

end Sys2Proof.Machine

open Sys2Proof Sys2Proof.Machine

/-- Settles O26: the checks of the start fail in exactly the listed cases, and each failure is the same raise, before
anything is written. -/
theorem encodeRejectsExactlyTheListedCases : Obligations.EncodeRejectsExactlyTheListedCases := by
  intro s r rest d hidle hreq hcmd
  have hstep := step_eq_startEncode hidle hreq hcmd
  refine ⟨fun hlisted => ?_, fun hlisted hroom => ?_⟩
  · exact ⟨_, hstep.trans (startEncode_of_rejected hlisted), ⟨rfl, rfl⟩, rfl, rfl, rfl⟩
  · obtain ⟨hdesc, hlen⟩ := not_rejectedEncode_iff.1 hlisted
    exact ⟨_, hstep.trans (startEncode_of_valid hdesc hlen hroom), rfl, rfl⟩

/-- Settles O27: an ENCODE that begins sets its own registers and writes the header into an empty OUT. -/
theorem encodeStartsFresh : Obligations.EncodeStartsFresh := by
  intro s r rest d hidle hreq hcmd hdesc hlen hroom
  have hheader := Memory.readBytes_writeBytes (m := []) rfl 0 (serialize d)
  exact ⟨_, (step_eq_startEncode hidle hreq hcmd).trans (startEncode_of_valid hdesc hlen hroom), rfl, rfl, rfl,
    cacheGet_start, rfl, rfl, rfl, rfl, hheader, rfl, rfl, rfl, rfl, rfl, rfl⟩

end

section
/-! The encoder's pixel read (rules R52, R125): the statement O29. -/

open Sys2Proof Sys2Proof.Machine

/-- Settles O29: the pixel's bytes lie inside IN, so both reads answer; the fourth byte is read with four channels
only. -/
theorem encoderReadsThePixel : Obligations.EncoderReadsThePixel := by
  intro s hch hend
  rcases hch with hch | hch <;> simp only [Desc.stride, hch] at hend
  · have hcolors := Space.memRead_of_le (sp := s.inp) (a := s.pos * 3) (n := 3) hend
    simp [readPixel, Desc.stride, hch, hcolors, Memory.readBytes_succ]
  · replace hend : s.pos * 4 + 4 ≤ s.inp.len := hend
    have hcolors := Space.memRead_of_le (sp := s.inp) (a := s.pos * 4) (n := 3) (by omega)
    have halpha := Space.memRead_of_le (sp := s.inp) (a := s.pos * 4 + 3) (n := 1) (by omega)
    simp [readPixel, Desc.stride, hch, hcolors, halpha, Memory.readBytes_succ]

end

section
/-! One pixel step of the encoder, case by case (rules R124 to R136): the statements O30, O31, O32, O33 and O38. -/

namespace Sys2Proof.Machine

variable {s t u : State} {px : Pixel} {tail bs : List Byte}

/-! ### The effect of one pixel -/

@[simp] theorem flushPending_encCache (s : State) : (flushPending s).encCache = s.encCache := by
  obtain ⟨o, w, h⟩ := flushPending_eq s
  rw [h]

/-- A pixel that differs from `prev` and hits its slot (rule R128). -/
theorem encodeOne_of_hit (hne : px ≠ s.prev) (hhit : cacheGet s.encCache (hash px) = px) :
    encodeOne px s = ((flushPending s).emitOp (.index (hash px))).setPrev px := by
  rw [encodeOne, if_neg hne, encodeNew, flushPending_encCache, if_pos hhit]

/-- A pixel that differs from `prev` and misses its slot (rules R129 to R134). -/
theorem encodeOne_of_miss (hne : px ≠ s.prev) (hmiss : cacheGet s.encCache (hash px) ≠ px) :
    encodeOne px s = (((flushPending s).storeEnc px).emitOp (chooseOp px s.prev)).setPrev px := by
  rw [encodeOne, if_neg hne, encodeNew, flushPending_encCache, if_neg hmiss, flushPending_prev]

/-- A pixel that differs from `prev` leaves no run pending (rule R128). -/
theorem encodeOne_run_of_ne (hne : px ≠ s.prev) : (encodeOne px s).run = 0 := by
  by_cases hhit : cacheGet s.encCache (hash px) = px
  · rw [encodeOne_of_hit hne hhit]
    exact flushPending_run s
  · rw [encodeOne_of_miss hne hhit]
    exact flushPending_run s

/-- A pixel that equals `prev`, or hits its slot, leaves the encoder's cache alone (rules R126, R128). -/
theorem encodeOne_encCache (h : px = s.prev ∨ cacheGet s.encCache (hash px) = px) :
    (encodeOne px s).encCache = s.encCache := by
  by_cases heq : px = s.prev
  · rw [encodeOne, if_pos heq]
    rcases extendRun_cases s with hx | ⟨-, hx⟩ <;> rw [hx] <;> rfl
  · rw [encodeOne_of_hit heq (h.resolve_left heq)]
    exact flushPending_encCache s

/-- A pixel that differs from `prev` and misses is stored in its own slot and in no other (rule R129). -/
theorem encodeOne_stores (hne : px ≠ s.prev) (hmiss : cacheGet s.encCache (hash px) ≠ px) :
    cacheGet (encodeOne px s).encCache (hash px) = px ∧
      ∀ i, i ≠ hash px → cacheGet (encodeOne px s).encCache i = cacheGet s.encCache i := by
  have hcache : (encodeOne px s).encCache = cacheSet s.encCache (hash px) px := by
    rw [encodeOne_of_miss hne hmiss]
    simp [State.emitOp]
  rw [hcache]
  exact ⟨cacheGet_cacheSet_self _ _ _, fun i hi => by rw [cacheGet_cacheSet, if_neg hi]⟩

/-- The pending run and the op after it are written at the cursor, and nothing else (rules R128 to R134). -/
theorem emitted_flushPending_emitOp (i : Instr) (hout : s.out.wf = true) :
    Emitted s ((flushPending s).emitOp i) (pendingRun s ++ encode i) :=
  (emitted_flushPending hout).trans (emitted_emit _ (wf_flushPending hout))

/-! ### The end of the step -/

/-- The next position, or the end of the command, is all that is left after the pixel: the end marker is the only thing
written (rules R124, R136). -/
theorem exists_encodeEnds_encodeAdvance (hpos : u.pos = s.pos) (hdesc : u.desc = s.desc) (hphase : u.phase = .encoding)
    (hresult : u.result = s.result) (hout : u.out.wf = true) :
    ∃ tail, EncodeEnds s (encodeAdvance u) tail ∧ Emitted u (encodeAdvance u) tail := by
  rcases encodeAdvance_cases u with ⟨hmore, ha⟩ | ⟨hlast, ha⟩ <;> rw [ha]
  · rw [hpos, hdesc] at hmore
    refine ⟨[], ?_, emitted_nil rfl rfl⟩
    rw [EncodeEnds, if_pos hmore]
    exact ⟨rfl, hphase, congrArg (· + 1) hpos, hresult⟩
  · rw [hpos, hdesc] at hlast
    refine ⟨endMarker, ?_, (emitted_emit endMarker hout).congr rfl rfl⟩
    rw [EncodeEnds, if_neg (not_lt.2 hlast)]
    exact ⟨rfl, rfl, hpos, rfl⟩

/-- The end of a pixel step keeps `prev`, the run and the encoder's cache. -/
theorem encodeAdvance_prev_run_encCache (s : State) :
    (encodeAdvance s).prev = s.prev ∧ (encodeAdvance s).run = s.run ∧ (encodeAdvance s).encCache = s.encCache := by
  rcases encodeAdvance_cases s with ⟨-, ha⟩ | ⟨-, ha⟩ <;> rw [ha] <;> exact ⟨rfl, rfl, rfl⟩

theorem encodeOne_result (px : Pixel) (s : State) : (encodeOne px s).result = s.result := by
  obtain ⟨o, w, n, c, h⟩ := encodeOne_eq px s
  rw [h]

/-! ### The whole step -/

theorem step_of_readPixel (hphase : s.phase = .encoding) (hread : readPixel s = some px) :
    step s = .next (encodeAdvance (encodeOne px s)) := by
  rw [step_encoding hphase, encodePixel, hread]

/-- What a step of the encoder on a pixel leaves behind, in terms of the effect of that pixel, and how it ends. -/
structure EncodesPixel (px : Pixel) (s t : State) (tail : List Byte) : Prop where
  frame : EncodeFrame s t
  ends : EncodeEnds s t tail
  prev : t.prev = px
  run : t.run = (encodeOne px s).run
  encCache : t.encCache = (encodeOne px s).encCache
  emitted : Emitted (encodeOne px s) t tail

theorem EncodesPixel.emitted_append (h : EncodesPixel px s t tail) (hone : Emitted s (encodeOne px s) bs) :
    Emitted s t (bs ++ tail) := hone.trans h.emitted

/-- A step of the encoder that reads a pixel is the effect of that pixel and the end of the step (rule R124). -/
theorem exists_encodesPixel (hphase : s.phase = .encoding) (hread : readPixel s = some px) (hout : s.out.wf = true) :
    ∃ t tail, step s = .next t ∧ EncodesPixel px s t tail := by
  have hf := encodeOne_frame px s
  obtain ⟨hprev, hpos, hphase'⟩ := encodeOne_prev_pos_phase px s
  obtain ⟨tail, hends, hemit⟩ := exists_encodeEnds_encodeAdvance hpos hf.desc (hphase'.trans hphase)
    (encodeOne_result px s) (wf_encodeOne px hout)
  obtain ⟨hprev', hrun, hcache⟩ := encodeAdvance_prev_run_encCache (encodeOne px s)
  exact ⟨_, tail, step_of_readPixel hphase hread, hf.trans (encodeAdvance_frame _), hends, hprev'.trans hprev, hrun,
    hcache, hemit⟩

end Sys2Proof.Machine

open Sys2Proof Sys2Proof.Machine

/-- Settles O30: at 62 or at the last pixel the grown run is flushed as one RUN byte, elsewhere nothing is written. -/
theorem equalPixelExtendsTheRun : Obligations.EqualPixelExtendsTheRun := by
  intro s px hphase hread hpx hrun hout
  obtain ⟨t, tail, hstep, h⟩ := exists_encodesPixel hphase hread hout
  refine ⟨t, tail, hstep, h.encCache.trans (encodeOne_encCache (.inl hpx)), h.prev, h.frame, h.ends,
    fun hfull => ?_, fun hshort => ?_⟩
  · obtain ⟨hw, hcleared⟩ := encodeOne_flushes hpx hout hrun hfull
    have hbyte := hw.emitted
    rw [List.flatMap_singleton, encode_run (by omega) (by omega), Nat.add_sub_cancel] at hbyte
    exact ⟨h.run.trans hcleared, h.emitted_append hbyte⟩
  · obtain ⟨h62, hmore⟩ := not_or.1 hshort
    obtain ⟨hw, hgrown⟩ := encodeOne_grows hpx hrun h62 hmore
    exact ⟨h.run ▸ hgrown, h.emitted_append hw.emitted⟩

/-- Settles O31: the pending run is flushed and the INDEX byte of the pixel's own hash follows. -/
theorem cacheHitEmitsIndex : Obligations.CacheHitEmitsIndex := by
  intro s px hphase hread hne hhit hout
  obtain ⟨t, tail, hstep, h⟩ := exists_encodesPixel hphase hread hout
  have hone : Emitted s (encodeOne px s) (pendingRun s ++ [BitVec.ofNat 8 (hash px).val]) := by
    rw [encodeOne_of_hit hne hhit, ← encode_index]
    exact (emitted_flushPending_emitOp _ hout).congr rfl rfl
  exact ⟨t, tail, hstep, h.encCache.trans (encodeOne_encCache (.inr hhit)), h.prev,
    h.run.trans (encodeOne_run_of_ne hne), h.frame, h.ends, h.emitted_append hone⟩

/-- Settles O32: the pending run is flushed, the pixel is stored, and the bytes of the chosen op follow. -/
theorem cacheMissStoresAndEmits : Obligations.CacheMissStoresAndEmits := by
  intro s px hphase hread hne hmiss hout
  obtain ⟨t, tail, hstep, h⟩ := exists_encodesPixel hphase hread hout
  have hone : Emitted s (encodeOne px s) (pendingRun s ++ encode (chooseOp px s.prev)) := by
    rw [encodeOne_of_miss hne hmiss]
    exact (emitted_flushPending_emitOp _ hout).congr rfl rfl
  obtain ⟨hslot, hothers⟩ := encodeOne_stores hne hmiss
  rw [← h.encCache] at hslot hothers
  exact ⟨t, tail, hstep, hslot, hothers, h.prev, h.run.trans (encodeOne_run_of_ne hne), h.frame, h.ends,
    h.emitted_append hone⟩

/-- Settles O33: the end of the step keeps `prev` and the cache, so both are as the pixel's own effect left them. -/
theorem encoderWritesItsCacheOnlyOnAMiss : Obligations.EncoderWritesItsCacheOnlyOnAMiss := by
  intro s t px hphase hread hstep
  cases hstep.symm.trans (step_of_readPixel hphase hread)
  obtain ⟨hprev, -, hcache⟩ := encodeAdvance_prev_run_encCache (encodeOne px s)
  rw [hprev, hcache]
  exact ⟨(encodeOne_prev_pos_phase px s).1, encodeOne_stores, encodeOne_encCache⟩

/-- Settles O38: the first step leaves the cache as it was and its pixel in `prev`; a hit on the same slot would be that
pixel again. -/
theorem indexIsNeverRepeated : Obligations.IndexIsNeverRepeated := by
  intro s t px qx hphase hread _ hhit hstep _ _ hne hhit' hslot
  obtain ⟨hprev, -, hcache⟩ := encoderWritesItsCacheOnlyOnAMiss s t px hphase hread hstep
  have hsame : qx = px := by rw [← hhit', hcache (.inr hhit), hslot, hhit]
  exact hne (hsame.trans hprev.symm)

end

section
/-! The choice of the literal op, and that the decoder undoes it (rules R130 to R134, R137, R167 to R171): the statements
O34, O35, O36 and O37. -/

namespace Sys2Proof.Machine

variable {s : State} {px prev : Pixel}

/-! ### The choice by the deltas -/

theorem inRange_iff {lo hi v : Int} : inRange lo hi v = true ↔ lo ≤ v ∧ v ≤ hi := by simp [inRange]

/-- DIFF holds three deltas in [−2, 1] (rule R76). -/
theorem wf_diff_iff {dr dg db : Int} :
    (Instr.diff dr dg db).wf = true ↔ (-2 ≤ dr ∧ dr ≤ 1) ∧ (-2 ≤ dg ∧ dg ≤ 1) ∧ (-2 ≤ db ∧ db ≤ 1) := by
  simp only [Instr.wf, Bool.and_eq_true, inRange_iff, and_assoc]

/-- LUMA holds a green delta in [−32, 31] and two cross-deltas in [−8, 7] (rule R77). -/
theorem wf_luma_iff {dg drg dbg : Int} :
    (Instr.luma dg drg dbg).wf = true ↔ (-32 ≤ dg ∧ dg ≤ 31) ∧ (-8 ≤ drg ∧ drg ≤ 7) ∧ (-8 ≤ dbg ∧ dbg ≤ 7) := by
  simp only [Instr.wf, Bool.and_eq_true, inRange_iff, and_assoc]

/-- The signed wraparound difference is the only value in [−128, 127] that moves the one byte to the other (rule R130). -/
theorem s8diff_eq_of_movedBy {old new : Byte} {d : Int} (hlow : -128 ≤ d) (hhigh : d ≤ 127)
    (hmoved : MovedBy old new d) : s8diff new old = d := by
  obtain ⟨h1, h2, h3⟩ := s8diff_spec new old
  unfold MovedBy at hmoved
  omega

/-! ### The decoder's effect of the chosen op -/

theorem truncated_of_fits {n : Nat} (h : Fits s n) : truncated s n = false := by
  rw [Bool.eq_false_iff, Ne, truncated_eq_true]
  rintro ⟨hfail, hover⟩
  rcases h with href | hfits
  · rw [hfail] at href
    cases href
  · omega

theorem storedPx_storePx {u : State} (hcache : u.decCache = s.decCache) : StoredPx s u.storePx :=
  ⟨cacheGet_cacheSet_self _ _ _, fun i hi => by
    rw [State.storePx_decCache, hcache, cacheGet_cacheSet]
    exact if_neg hi⟩

/-- The three signed differences move a pixel to another of the same alpha (rules R130, R170). -/
theorem addDeltas_s8diff (halpha : px.a = prev.a) :
    prev.addDeltas (s8diff px.r prev.r) (s8diff px.g prev.g) (s8diff px.b prev.b) = px := by
  simp only [Pixel.addDeltas, addWrap_s8diff, ← halpha]

/-- The op chosen for a pixel against `px`, where it fits, makes that pixel `px`, moves `rd` past the op and writes the
cache (rules R130 to R134, R167, R168, R170, R171). -/
theorem exec_chooseOp (hfits : Fits s (chooseOp px s.px).length) :
    exec (chooseOp px s.px) s = .next ((s.setPx px).advanceRd (chooseOp px s.px).length).storePx := by
  have ht := truncated_of_fits hfits
  by_cases halpha : px.a = s.px.a
  · have hsum := addDeltas_s8diff halpha
    rw [chooseOp, if_pos halpha] at ht ⊢
    rcases chooseByDeltas_cases (s8diff px.r s.px.r) (s8diff px.g s.px.g) (s8diff px.b s.px.b) px with
      ⟨hop, -⟩ | ⟨hop, -⟩ | hop <;> rw [hop] at ht ⊢
    · show Host.Outcome.next ((s.setPx (s.px.addDeltas _ _ _)).advanceRd 1).storePx = _
      rw [hsum]
      rfl
    · show operandOp 2 (s.px.addDeltas (_ + (_ - _)) _ (_ + (_ - _))) s = _
      rw [add_sub_cancel, add_sub_cancel, hsum]
      exact operandOp_of_fits ht
    · show operandOp 4 { r := px.r, g := px.g, b := px.b, a := s.px.a } s = _
      rw [← halpha]
      exact operandOp_of_fits ht
  · rw [chooseOp, if_neg halpha] at ht ⊢
    exact operandOp_of_fits ht

end Sys2Proof.Machine

open Sys2Proof Sys2Proof.Machine

/-- Settles O34: the deltas of the statement are the encoder's signed differences, and the ranges are those DIFF and LUMA
hold. -/
theorem literalChoiceFollowsTheDeltas : Obligations.LiteralChoiceFollowsTheDeltas := by
  intro px prev
  refine ⟨fun halpha => if_neg halpha, ?_⟩
  rintro halpha dr dg db ⟨hr, hr'⟩ ⟨hg, hg'⟩ ⟨hb, hb'⟩ hmr hmg hmb
  have hchoice : chooseOp px prev = chooseByDeltas dr dg db px := by
    rw [chooseOp, if_pos halpha, s8diff_eq_of_movedBy hr hr' hmr, s8diff_eq_of_movedBy hg hg' hmg,
      s8diff_eq_of_movedBy hb hb' hmb]
  simp only [hchoice, chooseByDeltas, wf_diff_iff, wf_luma_iff]
  exact ⟨fun hsmall => if_pos hsmall, fun hsmall hluma => (if_neg hsmall).trans (if_pos hluma),
    fun hsmall hluma => (if_neg hsmall).trans (if_neg hluma)⟩

/-- Settles O35: the exact cross-delta lies in [−159, 160], and wrapping moves what is outside [−128, 127] by 256, which
does not bring it into [−8, 7]. -/
theorem crossDeltaWrappingDoesNotMatter : Obligations.CrossDeltaWrappingDoesNotMatter := by
  intro a b c d hlow hhigh
  obtain ⟨hx, hx', -⟩ := s8diff_spec a b
  obtain ⟨hw, hw', hmod⟩ := sext8_spec (wrap8 (s8diff a b - s8diff c d))
  rw [wrap8_toNat] at hmod
  omega

/-- Settles O36: DIFF and LUMA are chosen only in range, every op is written in its own length, and RGBA is chosen only
when alpha changes. -/
theorem chosenOpIsWellFormedAndShort : Obligations.ChosenOpIsWellFormedAndShort := fun px prev =>
  ⟨wf_chooseOp px prev, encode_length _, chooseOp_length_le px prev⟩

/-- Settles O37: the chosen op's effect on the decoder, read field by field. -/
theorem chosenOpReproducesThePixel : Obligations.ChosenOpReproducesThePixel := fun _ _ hfits =>
  ⟨_, exec_chooseOp hfits, rfl, rfl, storedPx_storePx rfl⟩

end

section
/-! The cache property over every step, in any state (rules R129, R169, R173): the statement O49. A step only ever
empties a cache or stores a pixel in its own slot. -/

namespace Sys2Proof.Machine

/-- Both caches hold in each slot the start value or a pixel that hashes to it. -/
def CachesWf (s : State) : Prop := CacheWf s.encCache ∧ CacheWf s.decCache

variable {s t : State}

/-- The start of a command empties one cache, or neither (rules R123, R163). -/
theorem CachesWf.startNext (h : CachesWf s) (hstart : startNext s = .next t) : CachesWf t := by
  rcases startNext_cases hstart with ⟨-, rfl⟩ | ⟨r, rest, -, ⟨d, -, hs⟩ | ⟨-, hs⟩⟩
  · exact h
  · rcases startEncode_cases hs with ⟨-, rfl⟩ | ⟨-, -, -, rfl⟩
    · exact h
    · exact ⟨cacheWf_start, h.2⟩
  · obtain ⟨-, ⟨-, rfl⟩ | ⟨-, bs, -, ⟨e, -, rfl⟩ | ⟨d, -, -, rfl⟩⟩⟩ := startDecode_cases hs
    · exact h
    · exact h
    · exact ⟨h.1, cacheWf_start⟩

/-- The encoder stores a pixel only in its own slot (rule R129). -/
theorem cacheWf_encodeOne (px : Pixel) (h : CacheWf s.encCache) : CacheWf (encodeOne px s).encCache := by
  by_cases hkeep : px = s.prev ∨ cacheGet s.encCache (hash px) = px
  · rwa [encodeOne_encCache hkeep]
  · obtain ⟨hne, hmiss⟩ := not_or.1 hkeep
    rw [encodeOne_of_miss hne hmiss]
    show CacheWf (cacheSet (flushPending s).encCache (hash px) px)
    rw [flushPending_encCache]
    exact cacheWf_set h px

theorem CachesWf.encodePixel (h : CachesWf s) (hstep : encodePixel s = .next t) : CachesWf t := by
  have hframe := encodePixel_frame hstep
  obtain ⟨px, -, rfl⟩ := encodePixel_eq_next hstep
  rw [CachesWf, hframe.decCache, (encodeAdvance_prev_run_encCache _).2.2]
  exact ⟨cacheWf_encodeOne px h.1, h.2⟩

/-- An op stores the current pixel in its own slot, or writes no cache (rule R173). -/
theorem cacheWf_exec {i : Instr} (h : CacheWf s.decCache) (hexec : exec i s = .next t) : CacheWf t.decCache := by
  rcases exec_cases i s with ⟨-, -, he⟩ | ⟨slot, -, he⟩ | ⟨p, n, -, -, he⟩ <;> rw [he] at hexec <;> cases hexec
  · exact h
  · exact h
  · exact cacheWf_set h p

/-- The end of a decoder step writes no cache (rules R175 to R177). -/
@[simp] theorem completePixel_decCache (s : State) : (completePixel s).decCache = s.decCache := by
  obtain ⟨ph, po, res, h⟩ := completePixel_eq s
  rw [h]

@[simp] theorem completeUnlessRaised_decCache (s : State) : (completeUnlessRaised s).decCache = s.decCache := by
  unfold completeUnlessRaised
  split_ifs
  · exact completePixel_decCache s
  · rfl

@[simp] theorem exhausted_decCache (s : State) : (exhausted s).decCache = s.decCache := by
  unfold exhausted
  split_ifs <;> rfl

theorem CachesWf.decodePixel (h : CachesWf s) (hstep : decodePixel s = .next t) : CachesWf t := by
  refine ⟨(decodePixel_frame hstep).encCache ▸ h.1, ?_⟩
  rcases decodePixel_cases hstep with ⟨-, rfl⟩ | ⟨i, u, -, hexec, rfl⟩ | ⟨-, rfl⟩ | ⟨-, rfl⟩
  · rw [completeUnlessRaised_decCache]
    exact h.2
  · rw [completeUnlessRaised_decCache]
    exact cacheWf_exec h.2 hexec
  · exact h.2
  · rw [completeUnlessRaised_decCache, exhausted_decCache]
    exact h.2

end Sys2Proof.Machine

open Sys2Proof Sys2Proof.Machine

/-- Settles O49: by the phase, a command that begins empties a cache, and a pixel step stores a pixel in its own slot or
writes no cache. -/
theorem stepKeepsCacheSlotsHashed : Obligations.StepKeepsCacheSlotsHashed := by
  intro s t henc hdec hstep
  have h : CachesWf s := ⟨henc, hdec⟩
  cases hphase : s.phase with
  | idle => exact h.startNext (step_idle hphase ▸ hstep)
  | encoding => exact h.encodePixel (step_encoding hphase ▸ hstep)
  | decoding => exact h.decodePixel (step_decoding hphase ▸ hstep)

end

section
/-! The ops one by one (rules R166 to R173): what the bytes of each decode to, what it leaves alone, and how it fails
when it does not fit. The statements O6 to O12. -/

namespace Sys2Proof

/-! ### The fields of each format (rules R75 to R78, R81) -/

theorem decode_indexField : ∀ field : BitVec 6,
    decode [0b00#2 ++ field] = .ok (.index ⟨field.toNat, field.isLt⟩, []) := by decide

theorem decode_diffFields : ∀ r g b : BitVec 2,
    decode [0b01#2 ++ r ++ g ++ b] =
      .ok (.diff ((r.toNat : Int) - 2) ((g.toNat : Int) - 2) ((b.toNat : Int) - 2), []) := by decide

theorem decode_runField : ∀ field : BitVec 6, field.toNat ≤ 61 →
    decode [0b11#2 ++ field] = .ok (.run (field.toNat + 1), []) := by decide

theorem bits_lumaTag : ∀ g : BitVec 6,
    (0b10#2 ++ g : Byte) ≠ 0xFE ∧ (0b10#2 ++ g : Byte) ≠ 0xFF ∧ bits (0b10#2 ++ g) 7 6 = 2 ∧
      bits (0b10#2 ++ g) 5 0 = g.toNat := by decide

theorem bits_lumaCross : ∀ x y : BitVec 4, bits (x ++ y) 7 4 = x.toNat ∧ bits (x ++ y) 3 0 = y.toNat := by decide

theorem decode_lumaFields (g : BitVec 6) (x y : BitVec 4) :
    decode [0b10#2 ++ g, x ++ y] =
      .ok (.luma ((g.toNat : Int) - 32) ((x.toNat : Int) - 8) ((y.toNat : Int) - 8), []) := by
  obtain ⟨hFE, hFF, htag, hg⟩ := bits_lumaTag g
  obtain ⟨hx, hy⟩ := bits_lumaCross x y
  simp only [decode, if_neg hFE, if_neg hFF, htag, hg, hx, hy]
  rfl

end Sys2Proof

namespace Sys2Proof.Machine

variable {s t : State} {n : Nat} {p : Pixel}

/-! ### What an op leaves alone, and its failure -/

/-- Only `px`, `run`, `rd` and the decoder's cache differ (rules R167 to R173). -/
theorem opFrame_update (s : State) (p : Pixel) (m : BitVec 6) (k : Nat) (c : Cache) :
    OpFrame s { s with px := p, run := m, rd := k, decCache := c } := by
  constructor <;> intros <;> rfl

/-- An op does not fit exactly when rule R166 has it truncated. -/
theorem truncated_iff_not_fits : truncated s n = true ↔ ¬Fits s n := by
  refine ⟨fun ht hfits => by simp [truncated_of_fits hfits] at ht, fun h => ?_⟩
  obtain ⟨href, hlong⟩ := not_or.1 h
  refine truncated_eq_true.2 ⟨?_, not_le.1 hlong⟩
  cases hpol : s.cfg.truncation with
  | fail => rfl
  | reference => exact absurd hpol href

/-- An op of several bytes that does not fit ends the command with MalformedStream (rule R166). -/
theorem operandOp_failed (h : ¬Fits s n) : ∃ t, operandOp n p s = .next t ∧ Failed t .malformedStream :=
  ⟨_, operandOp_of_truncated (truncated_iff_not_fits.2 h), rfl, rfl⟩

/-- An op of several bytes that fits sets `px`, moves `rd` past its bytes and writes the cache (rules R167, R168, R171,
R173). -/
theorem operandOp_done (h : Fits s n) :
    ∃ t, operandOp n p s = .next t ∧ t.px = p ∧ t.rd = s.rd + n ∧ t.run = s.run ∧ StoredPx s t ∧ OpFrame s t :=
  ⟨_, operandOp_of_fits (truncated_of_fits h), rfl, rfl, rfl, storedPx_storePx rfl, opFrame_update ..⟩

/-- An op of several bytes that is truncated raises, whichever it is (rule R166). -/
theorem exec_of_truncated {i : Instr} (hlen : 1 < i.length) (ht : truncated s i.length = true) :
    exec i s = .next (s.raise .malformedStream) := by
  rcases exec_cases i s with ⟨-, -, he⟩ | ⟨slot, rfl, -⟩ | ⟨p, m, -, hfits, -⟩
  · exact he
  · simp [Instr.length] at hlen
  · rcases hfits with hone | hfits
    · omega
    · simp [ht] at hfits

/-- A channel plus a delta moves by the delta modulo 256 (rules R170, R171). -/
theorem movedBy_addWrap {c : Byte} {d e : Int} (h : d = e) : MovedBy c (addWrap c d) e := h ▸ addWrap_toNat c d

end Sys2Proof.Machine

open Sys2Proof Sys2Proof.Machine

/-- Settles O6: INDEX sets `px` and moves `rd`. -/
theorem indexLoadsTheSlot : Obligations.IndexLoadsTheSlot := by
  intro field slot s hslot
  have hfield : slot = ⟨field.toNat, field.isLt⟩ := Fin.ext hslot
  exact ⟨hfield ▸ decode_indexField field, _, rfl, rfl, rfl, rfl, rfl, opFrame_update ..⟩

/-- Settles O7: DIFF adds each field less its bias to its channel and stores the sum. -/
theorem diffAddsItsDeltas : Obligations.DiffAddsItsDeltas := fun r g b _ =>
  ⟨decode_diffFields r g b, _, rfl, movedBy_addWrap rfl, movedBy_addWrap rfl, movedBy_addWrap rfl, rfl, rfl, rfl,
    storedPx_storePx rfl, opFrame_update ..⟩

/-- Settles O8: the red and blue deltas are the green one plus a nibble less 8; the op fails exactly where it does not
fit. -/
theorem lumaAddsItsDeltas : Obligations.LumaAddsItsDeltas := by
  intro g x y s
  refine ⟨decode_lumaFields g x y, fun hfits => ?_, operandOp_failed⟩
  obtain ⟨t, hexec, hpx, hrd, hrun, hstored, hframe⟩ := operandOp_done hfits
  refine ⟨t, hexec, ?_, ?_, ?_, ?_, hrd, hrun, hstored, hframe⟩ <;> rw [hpx]
  · exact movedBy_addWrap (by omega)
  · exact movedBy_addWrap rfl
  · exact movedBy_addWrap (by omega)
  · rfl

/-- Settles O9: the run becomes the length less 1, which is the field. -/
theorem runStartsARun : Obligations.RunStartsARun := fun field _ hfield =>
  ⟨decode_runField field hfield, _, rfl, by simp, rfl, rfl, storedPx_storePx rfl,
    opFrame_update ..⟩

/-- Settles O10: three channels are replaced; the op fails exactly where it does not fit. -/
theorem rgbReplacesTheColors : Obligations.RgbReplacesTheColors := by
  intro r g b s
  refine ⟨rfl, fun hfits => ?_, operandOp_failed⟩
  obtain ⟨t, hexec, hpx, hrest⟩ := operandOp_done hfits
  refine ⟨t, hexec, ?_, ?_, ?_, ?_, hrest⟩ <;> rw [hpx]

/-- Settles O11: four channels are replaced; the op fails exactly where it does not fit. -/
theorem rgbaReplacesThePixel : Obligations.RgbaReplacesThePixel := by
  intro r g b a s
  refine ⟨rfl, fun hfits => ?_, operandOp_failed⟩
  obtain ⟨t, hexec, hpx, hrest⟩ := operandOp_done hfits
  refine ⟨t, hexec, ?_, ?_, ?_, ?_, hrest⟩ <;> rw [hpx]

/-- Settles O12: the state of the failure is the raise itself, which sets the phase and the result only. -/
theorem truncatedOpFailsBeforeItExecutes : Obligations.TruncatedOpFailsBeforeItExecutes := fun _ _ hlen hfail hlong =>
  ⟨_, exec_of_truncated hlen (truncated_eq_true.2 ⟨hfail, hlong⟩), ⟨rfl, rfl⟩, rfl, rfl, rfl, rfl, rfl, rfl, rfl, rfl,
    rfl, rfl, rfl, rfl, rfl, fun _ => rfl⟩

end

section
/-! The fetch and the step it leads to (rules R164 to R166): which op is fetched, what the step does with it, and every
way a decoder step can go, said once. The statements O13, O14 and O15. -/

namespace Sys2Proof.Machine

variable {s t u w : State} {i : Instr} {bs tail : List Byte}

/-! ### The op that is fetched -/

/-- The bytes from `rd` on, with the tag in front. -/
theorem readBytes_from_rd (hrd : s.rd < streamEnd s) : ∃ n, s.inp.len - s.rd = n + 1 ∧ 8 ≤ n ∧
    s.inp.cells.readBytes s.rd (s.inp.len - s.rd) = s.inp.cells.read s.rd :: s.inp.cells.readBytes (s.rd + 1) n := by
  unfold streamEnd at hrd
  obtain ⟨n, hn⟩ : ∃ n, s.inp.len - s.rd = n + 1 := ⟨s.inp.len - s.rd - 1, by omega⟩
  exact ⟨n, hn, by omega, by rw [hn, Memory.readBytes_succ]⟩

/-- Where no run is pending and op bytes are left, an op is fetched: no byte value is rejected (rules R83, R166). -/
theorem exists_fetches (hphase : s.phase = .decoding) (hrun : s.run = 0) (hrd : s.rd < streamEnd s) :
    ∃ i, Fetches s i := by
  obtain ⟨n, -, hn, hbytes⟩ := readBytes_from_rd hrd
  have hlen := (opLen_bounds (s.inp.cells.read s.rd)).2
  obtain ⟨i, rest, hdec⟩ := exists_decode_eq_ok (b1 := s.inp.cells.read s.rd)
    (rest := s.inp.cells.readBytes (s.rd + 1) n) (by rw [Memory.readBytes_length]; omega)
  exact ⟨i, hphase, hrun, hrd, rest, hbytes ▸ hdec⟩

/-- The fetched op is as long as the tag at `rd` says (rule R74). -/
theorem Fetches.length_eq (h : Fetches s i) : i.length = opLen (s.inp.cells.read s.rd) := by
  obtain ⟨-, -, hrd, rest, hdec⟩ := h
  obtain ⟨n, -, -, hbytes⟩ := readBytes_from_rd hrd
  exact (length_and_tail_of_decode (hbytes ▸ hdec)).1

/-- The op's own bytes decode to it: the bytes after an op change nothing (rule R166). -/
theorem Fetches.decodeOp_eq (h : Fetches s i) :
    decodeOp (s.inp.cells.readBytes s.rd (opLen (s.inp.cells.read s.rd))) = .next (.op i) := by
  obtain ⟨-, -, hrd, rest, hdec⟩ := h
  obtain ⟨n, hn, h8, -⟩ := readBytes_from_rd hrd
  obtain ⟨k, hk⟩ := Nat.exists_eq_add_of_le (show opLen (s.inp.cells.read s.rd) ≤ s.inp.len - s.rd by
    have := (opLen_bounds (s.inp.cells.read s.rd)).2
    omega)
  obtain ⟨j, hj⟩ := exists_decodeOp_eq_next s.inp.cells s.rd
  rw [hj]
  unfold decodeOp at hj
  split at hj <;> cases hj
  rename_i hown
  rw [hk, Memory.readBytes_append, decode_append _ hown] at hdec
  cases hdec
  rfl

/-- The source of the pixel where an op is fetched: the truncation test decides whether it executes (rule R166). -/
theorem Fetches.pixelSource_eq (h : Fetches s i) :
    pixelSource s = if truncated s i.length then .next .truncated else .next (.op i) := by
  have hlen := h.length_eq
  have hop := h.decodeOp_eq
  obtain ⟨-, hrun, hrd, -⟩ := h
  rw [pixelSource, if_neg (not_not.2 hrun), if_pos hrd, fetchOp_eq_ite hrd, hop, hlen]

/-- An op of one byte is never truncated where one is fetched (rule R169). -/
theorem Fetches.one_lt_length_of_truncated (h : Fetches s i) (ht : truncated s i.length = true) : 1 < i.length := by
  have hpos := (opLen_bounds (s.inp.cells.read s.rd)).1
  rw [← h.length_eq] at hpos
  obtain ⟨-, -, hrd, -⟩ := h
  have := (truncated_eq_true.1 ht).2
  omega

/-! ### The step, by the source of its pixel -/

theorem Fetches.step_eq (h : Fetches s i) (hexec : exec i s = .next t) : step s = .next (completeUnlessRaised t) := by
  rw [step_decoding h.1, decodePixel, h.pixelSource_eq]
  cases ht : truncated s i.length with
  | false => simp [hexec, afterOp]
  | true =>
    cases hexec.symm.trans (exec_of_truncated (h.one_lt_length_of_truncated ht) ht)
    simp

theorem step_of_run (hphase : s.phase = .decoding) (hrun : s.run ≠ 0) :
    step s = .next (completePixel (continueRun s)) := by
  rw [step_decoding hphase, decodePixel, pixelSource, if_pos hrun]
  exact congrArg _ (completeUnlessRaised_of_decoding (s := continueRun s) hphase)

theorem step_of_exhausted (hphase : s.phase = .decoding) (hrun : s.run = 0) (hrd : streamEnd s ≤ s.rd) :
    step s = .next (completeUnlessRaised (exhausted s)) := by
  rw [step_decoding hphase, decodePixel, pixelSource, if_neg (not_not.2 hrun), if_neg (not_lt.2 hrd)]

/-- Exhausted input under FAIL (rule R174). -/
theorem step_of_exhausted_fail (hphase : s.phase = .decoding) (hrun : s.run = 0) (hrd : streamEnd s ≤ s.rd)
    (hfail : s.cfg.truncation = .fail) : step s = .next (s.raise .malformedStream) := by
  rw [step_of_exhausted hphase hrun hrd, exhausted, if_pos hfail, completeUnlessRaised_raise]

/-- Exhausted input under REFERENCE (rule R174). -/
theorem step_of_exhausted_reference (hphase : s.phase = .decoding) (hrun : s.run = 0) (hrd : streamEnd s ≤ s.rd)
    (href : s.cfg.truncation = .reference) : step s = .next (completePixel s) := by
  rw [step_of_exhausted hphase hrun hrd, exhausted, if_neg (by simp [href]), completeUnlessRaised_of_decoding hphase]

/-! ### Every way a decoder step can go -/

/-- The state in the middle of a decoder step that has not failed: the pixel is in `px`, and only the decoder's own
registers differ from those at the start of the step. -/
structure Sourced (s w : State) : Prop where
  frame : OpFrame s w
  out : w.out = s.out

/-- An op that fits leaves the step to be completed, `rd` past the op. -/
theorem exists_exec_of_fits (h : Fits s i.length) :
    ∃ w, exec i s = .next w ∧ Sourced s w ∧ w.rd = s.rd + i.length := by
  rcases exec_cases i s with ⟨-, ht, -⟩ | ⟨slot, rfl, he⟩ | ⟨p, n, -, -, he⟩
  · exact absurd h (truncated_iff_not_fits.1 ht)
  · exact ⟨_, he, ⟨opFrame_update .., rfl⟩, rfl⟩
  · exact ⟨_, he, ⟨opFrame_update .., rfl⟩, rfl⟩

/-- Where an op is fetched, the step reads on exactly when the op fits (rule R166). -/
theorem Fetches.readsOn_iff (h : Fetches s i) : ReadsOn s ↔ Fits s i.length := by
  have hlen := h.length_eq
  obtain ⟨-, hrun, -⟩ := h
  simp [ReadsOn, Fits, hrun, hlen]

/-- A decoder step raises MalformedStream exactly where it does not read on; else it completes the pixel of a run, of an
op, or of exhausted input (rules R164 to R166, R174). -/
theorem step_decoding_cases (hphase : s.phase = .decoding) :
    (¬ReadsOn s ∧ step s = .next (s.raise .malformedStream)) ∨
      (ReadsOn s ∧ ∃ w, Sourced s w ∧ step s = .next (completePixel w)) := by
  by_cases hrun : s.run = 0
  · by_cases hrd : s.rd < streamEnd s
    · obtain ⟨i, hi⟩ := exists_fetches hphase hrun hrd
      by_cases hfits : Fits s i.length
      · obtain ⟨w, hexec, hw, -⟩ := exists_exec_of_fits hfits
        refine .inr ⟨hi.readsOn_iff.2 hfits, w, hw, ?_⟩
        rw [hi.step_eq hexec, completeUnlessRaised_of_decoding (hw.frame.phase.trans hphase)]
      · have ht := truncated_iff_not_fits.2 hfits
        refine .inl ⟨mt hi.readsOn_iff.1 hfits, ?_⟩
        rw [hi.step_eq (exec_of_truncated (hi.one_lt_length_of_truncated ht) ht), completeUnlessRaised_raise]
    · have hend := not_lt.1 hrd
      cases hpol : s.cfg.truncation with
      | fail =>
        refine .inl ⟨?_, step_of_exhausted_fail hphase hrun hend hpol⟩
        have := (opLen_bounds (s.inp.cells.read s.rd)).1
        simp only [ReadsOn, hrun, hpol, ne_eq, not_true, reduceCtorEq, false_or]
        omega
      | reference =>
        exact .inr ⟨.inr (.inl hpol), s, ⟨opFrame_update s s.px s.run s.rd s.decCache, rfl⟩,
          step_of_exhausted_reference hphase hrun hend hpol⟩
  · exact .inr ⟨.inl hrun, continueRun s, ⟨opFrame_update s s.px (s.run - 1) s.rd s.decCache, rfl⟩,
      step_of_run hphase hrun⟩

/-! ### A placed table word -/

/-- The first op of a loaded stream is the one its bytes decode to (log 17). -/
theorem fetches_loadOp (s : State) (h : decode bs = .ok (i, tail)) : Fetches (loadOp s bs) i := by
  have hpos : bs.length ≠ 0 := fun hnil => by
    rw [List.eq_nil_of_length_eq_zero hnil] at h
    cases h
  refine ⟨rfl, rfl, ?_, tail ++ endMarker, ?_⟩
  · have hlen : (loadOp s bs).inp.len = 14 + bs.length + 8 := by
      simp [loadOp, Space.ofBytes, endMarker, Nat.add_assoc]
    show 14 < (loadOp s bs).inp.len - 8
    omega
  · have hbytes : (loadOp s bs).inp.cells.readBytes 14 ((loadOp s bs).inp.len - 14) = bs ++ endMarker := by
      simp only [loadOp]
      rw [Space.readBytes_ofBytes (by simp [Space.ofBytes]), List.append_assoc, List.drop_left' (by simp)]
      exact List.take_of_length_le (by simp [Space.ofBytes])
    exact (congrArg decode hbytes).trans (decode_append endMarker h)

end Sys2Proof.Machine

open Sys2Proof Sys2Proof.Machine

/-- Settles O13: the fetch finds the op; where it finds it truncated, the op's own test finds that too. -/
theorem stepRunsTheFetchedOp : Obligations.StepRunsTheFetchedOp := fun _ _ hfetch _ hexec => hfetch.step_eq hexec

/-- Settles O14: the word's bytes stand at `rd` behind the header, and the marker after them changes nothing. -/
theorem placedWordIsFetchedNext : Obligations.PlacedWordIsFetchedNext := by
  intro s nbits w i h
  unfold decodeTableWord at h
  split at h <;> cases h
  rename_i hdec
  exact fetches_loadOp s hdec

/-- Settles O15: the source of the pixel answers in any state, and so does every op. -/
theorem decoderStepAlwaysAnswers : Obligations.DecoderStepAlwaysAnswers := by
  intro s hphase
  obtain ⟨t, ht⟩ := exists_decodePixel_eq_next s
  exact ⟨t, (step_decoding hphase).trans ht⟩

end

section
/-! The end of a decoder step (rules R165, R173 to R177): the pixel that is written, the cache, the end check. The
statements O16 to O20. -/

namespace Sys2Proof.Machine

variable {s t w : State} {i : Instr}

/-! ### The end of a pixel step, field by field (rule R175) -/

@[simp] theorem completePixel_px (s : State) : (completePixel s).px = s.px := by
  obtain ⟨ph, po, res, h⟩ := completePixel_eq s
  rw [h]

@[simp] theorem completePixel_run (s : State) : (completePixel s).run = s.run := by
  obtain ⟨ph, po, res, h⟩ := completePixel_eq s
  rw [h]

@[simp] theorem completePixel_rd (s : State) : (completePixel s).rd = s.rd := by
  obtain ⟨ph, po, res, h⟩ := completePixel_eq s
  rw [h]

@[simp] theorem completePixel_out (s : State) :
    (completePixel s).out = s.out.writeBytes (s.pos * s.desc.stride) (pixelBytes s.desc s.px) := by
  obtain ⟨ph, po, res, h⟩ := completePixel_eq s
  rw [h]

theorem completePixel_frame (s : State) : DecodeFrame s (completePixel s) := by
  obtain ⟨ph, po, res, h⟩ := completePixel_eq s
  rw [h]
  constructor <;> rfl

theorem completePixel_of_more (h : s.pos + 1 < s.desc.pixels) : completePixel s = (writePixel s).advancePos := if_pos h

theorem completePixel_of_last (h : s.pos + 1 = s.desc.pixels) : completePixel s = finishDecode (writePixel s) :=
  if_neg h.not_lt

/-- The pixel's channels stand at `pos × channels`, alpha only with four of them, and no other byte changes (rule
R175). -/
theorem completePixel_writes (hout : s.out.wf = true) (hch : s.desc.channels = 3 ∨ s.desc.channels = 4) :
    (completePixel s).out.read (s.pos * s.desc.stride) = s.px.r ∧
    (completePixel s).out.read (s.pos * s.desc.stride + 1) = s.px.g ∧
    (completePixel s).out.read (s.pos * s.desc.stride + 2) = s.px.b ∧
    (s.desc.channels = 4 → (completePixel s).out.read (s.pos * s.desc.stride + 3) = s.px.a) ∧
    (∀ a, a < s.pos * s.desc.stride ∨ s.pos * s.desc.stride + s.desc.stride ≤ a →
      (completePixel s).out.read a = s.out.read a) := by
  simp only [completePixel_out, Memory.read_writeBytes hout, pixelBytes_length s.px hch]
  refine ⟨?_, ?_, ?_, ?_, fun a ha => if_neg (by omega)⟩ <;> rcases hch with hch | hch <;>
    simp [pixelBytes, Desc.stride, hch]

/-! ### What a step shows whatever IN holds -/

/-- Two states that a step has left with the same pixel, run, cursors, cache and output. -/
def SameEffect (t u : State) : Prop :=
  u.px = t.px ∧ u.run = t.run ∧ u.rd = t.rd ∧ u.decCache = t.decCache ∧ u.out = t.out ∧ u.pos = t.pos

/-- The end of a pixel step reads IN only in the end check, which decides the result alone (rules R175, R176). -/
theorem sameEffect_completePixel (s : State) (other : Space) :
    SameEffect (completePixel s) (completePixel { s with inp := other }) := by
  show SameEffect (ite (s.pos + 1 < s.desc.pixels) _ _)
    (ite (s.pos + 1 < s.desc.pixels) _ (finishDecode (writePixel { s with inp := other })))
  split_ifs
  · exact ⟨rfl, rfl, rfl, rfl, rfl, rfl⟩
  · obtain ⟨r, hr⟩ := exists_finishDecode_eq_finish (writePixel s)
    obtain ⟨r', hr'⟩ := exists_finishDecode_eq_finish (writePixel { s with inp := other })
    rw [hr, hr']
    exact ⟨rfl, rfl, rfl, rfl, rfl, rfl⟩

/-! ### The cache (rule R173) -/

/-- The end of a pixel step keeps what an op has stored. -/
theorem StoredPx.completeUnlessRaised (h : StoredPx s w) : StoredPx s (completeUnlessRaised w) := by
  have hpx : (Machine.completeUnlessRaised w).px = w.px := by
    unfold Machine.completeUnlessRaised
    split_ifs
    · exact completePixel_px w
    · rfl
  rw [StoredPx, completeUnlessRaised_decCache, hpx]
  exact h

/-- Every op but INDEX that fits stores its pixel. -/
theorem storedPx_exec (hop : ∀ slot, i ≠ .index slot) (hfits : Fits s i.length) (hexec : exec i s = .next w) :
    StoredPx s w := by
  rcases exec_cases i s with ⟨-, ht, -⟩ | ⟨slot, hi, -⟩ | ⟨p, n, -, -, he⟩
  · exact absurd hfits (truncated_iff_not_fits.1 ht)
  · exact absurd hi (hop slot)
  · cases hexec.symm.trans he
    exact storedPx_storePx rfl

/-! ### The end check (rules R176, R177) -/

/-- The three conditions of the end check, its read inside IN. -/
theorem endsCleanly_iff (hlen : 8 ≤ s.inp.len) : endsCleanly s = true ↔
    s.rd = s.inp.len - 8 ∧ s.run = 0 ∧ s.inp.cells.readBytes (s.inp.len - 8) 8 = [0, 0, 0, 0, 0, 0, 0, 1] := by
  have hmarker : s.inp.memRead (s.inp.len - 8) 8 = some (s.inp.cells.readBytes (s.inp.len - 8) 8) :=
    Space.memRead_of_le (by omega)
  simp only [endsCleanly, Bool.and_eq_true, decide_eq_true_eq, and_assoc]
  rw [streamEnd, hmarker, Option.some_inj, endMarker]

theorem finishDecode_of_dirty (hstrict : s.cfg.strictEnd = true) (hdirty : endsCleanly s ≠ true) :
    finishDecode s = s.raise .malformedStream := by
  simp [finishDecode, hstrict, hdirty]

theorem finishDecode_of_clean (h : s.cfg.strictEnd = false ∨ endsCleanly s = true) : finishDecode s =
    s.finish { status := .ok, outLen := s.desc.pixels * s.desc.stride, desc := some s.desc } := by
  rcases h with h | h <;> simp [finishDecode, h]

/-! ### What the host reads of a success (rules R33, R60) -/

theorem hostReadDesc_of_desc {r : Result} {d : Desc} (h : hostReadResult s = .next r) (hd : r.desc = some d) :
    hostReadDesc s = .next d := by
  simp [hostReadDesc, h, hd]

theorem hostReadOut_of_ok {r : Result} {a : Nat} (h : hostReadResult s = .next r) (hok : r.status = .ok)
    (ha : a < r.outLen) : hostReadOut s a = .next (s.out.read a) := by
  simp [hostReadOut, h, hok, ha]

end Sys2Proof.Machine

open Sys2Proof Sys2Proof.Machine

/-- Settles O16: the step is the end of the pixel step after `run` has lost one; only the end check reads IN. -/
theorem runContinuationConsumesNothing : Obligations.RunContinuationConsumesNothing := by
  intro s hphase hrun
  have hframe := (continueRun_frame s).trans (completePixel_frame (continueRun s))
  refine ⟨_, step_of_run hphase hrun, ?_, completePixel_px _, completePixel_rd _, completePixel_decCache _, hframe,
    fun other => ?_⟩
  · have hsub : (s.run - 1).toNat + 1 = s.run.toNat := by bv_omega
    rw [completePixel_run]
    exact hsub
  · exact ⟨_, step_of_run (s := { s with inp := other }) hphase hrun, sameEffect_completePixel (continueRun s) other⟩

/-- Settles O17: under FAIL the step is a raise, under REFERENCE the end of the pixel step with the registers as they
are. -/
theorem exhaustedInputFollowsThePolicy : Obligations.ExhaustedInputFollowsThePolicy := by
  intro s hphase hrun hrd
  cases hpol : s.cfg.truncation with
  | fail =>
    refine ⟨_, step_of_exhausted_fail hphase hrun hrd hpol, rfl, rfl, rfl, raise_decodeFrame s _, fun _ => ⟨rfl, rfl⟩,
      nofun, fun other => ?_⟩
    exact ⟨_, step_of_exhausted_fail (s := s.withCells other) hphase hrun hrd hpol, rfl, rfl, rfl, rfl, rfl, rfl⟩
  | reference =>
    refine ⟨_, step_of_exhausted_reference hphase hrun hrd hpol, completePixel_px s, completePixel_rd s,
      completePixel_decCache s, completePixel_frame s, nofun, fun _ hout hch => ?_, fun other => ?_⟩
    · obtain ⟨hr, hg, hb, ha, -⟩ := completePixel_writes hout hch
      refine ⟨fun hmore => ?_, ?_, ha⟩
      · rw [completePixel_of_more hmore]
        exact ⟨hphase, rfl⟩
      · simp only [Memory.readBytes_succ, Memory.readBytes_zero, hr, hg, hb]
    · exact ⟨_, step_of_exhausted_reference (s := s.withCells other) hphase hrun hrd hpol, sameEffect_completePixel s _⟩

/-- Settles O18: the end of the step keeps the cache, so it is as the source of the pixel has left it. -/
theorem cacheIsWrittenAfterEveryOpButIndex : Obligations.CacheIsWrittenAfterEveryOpButIndex := by
  intro s t hphase hstep
  refine ⟨fun hrun => ?_, fun hrun hrd => ?_, fun i hfetch => ⟨?_, fun hop hfits => ?_⟩⟩
  · cases hstep.symm.trans (step_of_run hphase hrun)
    exact completePixel_decCache _
  · cases hstep.symm.trans (step_of_exhausted hphase hrun hrd)
    rw [completeUnlessRaised_decCache, exhausted_decCache]
  · rintro ⟨slot, rfl⟩
    cases hstep.symm.trans (hfetch.step_eq rfl)
    exact completeUnlessRaised_decCache _
  · obtain ⟨w, hexec, -⟩ := exists_exec_of_fits hfits
    cases hstep.symm.trans (hfetch.step_eq hexec)
    exact (storedPx_exec hop hfits hexec).completeUnlessRaised

/-- Settles O19: a step that has not failed completes its pixel at the position it began with, over the same OUT. -/
theorem decoderWritesThePixel : Obligations.DecoderWritesThePixel := by
  intro s t hphase hout hch hstep hok
  rcases step_decoding_cases hphase with ⟨-, hraise⟩ | ⟨-, w, hw, hdone⟩
  · cases hstep.symm.trans hraise
    rcases hok with hbusy | ⟨r, hr, hstatus⟩
    · cases hbusy
    · cases hr
      cases hstatus
  · cases hstep.symm.trans hdone
    have hwrites := completePixel_writes (s := w) (hw.out ▸ hout) (hw.frame.desc ▸ hch)
    rwa [hw.frame.desc, hw.frame.pos, hw.out, ← completePixel_px w] at hwrites

/-- Settles O20: the step completes its pixel at the last position, so it ends with the end check, made on the registers
the step has left. -/
theorem endCheckDecidesTheResult : Obligations.EndCheckDecidesTheResult := by
  intro s t hphase hlen hlast hreads hstep
  obtain ⟨w, hw, hdone⟩ : ∃ w, Sourced s w ∧ step s = .next (completePixel w) :=
    (step_decoding_cases hphase).elim (fun h => absurd hreads h.1) (·.2)
  cases hstep.symm.trans hdone
  have hend : completePixel w = finishDecode (writePixel w) :=
    completePixel_of_last (by rw [hw.frame.pos, hw.frame.desc, hlast])
  have hclean := endsCleanly_iff (s := writePixel w) (show 8 ≤ w.inp.len by rw [hw.frame.inp]; omega)
  change _ ↔ w.rd = w.inp.len - 8 ∧ w.run = 0 ∧ w.inp.cells.readBytes (w.inp.len - 8) 8 = _ at hclean
  rw [hw.frame.inp] at hclean
  rw [completePixel_rd, completePixel_run, ← hclean, hend, ← hw.frame.cfg, ← hw.frame.desc]
  obtain ⟨r, hr⟩ := exists_finishDecode_eq_finish (writePixel w)
  refine ⟨hr ▸ rfl, fun hstrict hdirty => ?_, fun hok => ?_⟩
  · rw [finishDecode_of_dirty (s := writePixel w) hstrict hdirty]
    exact ⟨rfl, rfl⟩
  · rw [finishDecode_of_clean (s := writePixel w) hok]
    have hread := hostReadResult_of_result (State.finish_phase _ _) (State.finish_result (writePixel w)
      { status := .ok, outLen := w.desc.pixels * w.desc.stride, desc := some w.desc })
    exact ⟨rfl, hostReadDesc_of_desc hread rfl, fun a ha => hostReadOut_of_ok hread rfl ha⟩

end

section
/-! The start of a DECODE as rules R160 to R163 list it: the statements O21 and O22. -/

namespace Sys2Proof.Machine

variable {s : State} {r : Request} {rest : List Request} {d : Desc}

/-- An idle block whose oldest command is a DECODE takes it and starts it (rules R226, R235). -/
theorem step_eq_startDecode (hidle : s.phase = .idle) (hreq : s.requests = r :: rest) (hcmd : r.cmd = .decode) :
    step s = startDecode r { s with requests := rest } := by
  simp only [step_idle hidle, startNext, hreq, hcmd]

/-- The header lies inside an IN of the minimum length (rules R51, R161). -/
theorem memRead_header (hmin : minStreamBytes ≤ r.inp.len) :
    r.inp.memRead 0 headerBytes = some (r.inp.cells.readBytes 0 14) :=
  Space.memRead_of_le (Nat.le_trans (by decide) hmin)

theorem startDecode_of_long (hlong : 2 ^ s.cfg.cursorBits - 1 < r.inp.len) :
    startDecode r s = .refused .inputTooLong := if_pos hlong

/-- Too short an input, or a header that does not parse, raises (rules R161, R162). -/
theorem startDecode_of_bad (hmax : r.inp.len ≤ 2 ^ s.cfg.cursorBits - 1)
    (hbad : r.inp.len < minStreamBytes ∨ ∃ e, parse (r.inp.cells.readBytes 0 14) = .error e) :
    startDecode r s = .next (s.raise .malformedStream) := by
  rw [startDecode, if_neg (not_lt.2 hmax)]
  by_cases hshort : r.inp.len < minStreamBytes
  · rw [if_pos hshort]
  · obtain ⟨e, he⟩ := hbad.resolve_left hshort
    rw [if_neg hshort, memRead_header (not_lt.1 hshort)]
    simp only [he]

/-- A header that parses, with room for the output, begins the command (rules R162, R163, R253). -/
theorem startDecode_of_good (hmax : r.inp.len ≤ 2 ^ s.cfg.cursorBits - 1) (hmin : minStreamBytes ≤ r.inp.len)
    (hparse : parse (r.inp.cells.readBytes 0 14) = .ok d) (hroom : d.pixels * d.stride ≤ r.outCap) :
    startDecode r s = .next (beginDecode d r s) := by
  rw [startDecode, if_neg (not_lt.2 hmax), if_neg (not_lt.2 hmin), memRead_header hmin]
  simp only [hparse, if_neg (not_lt.2 hroom)]

end Sys2Proof.Machine

open Sys2Proof Sys2Proof.Machine

/-- Settles O21: the length checks come first, and each other failure is the same raise. -/
theorem decodeRejectsBadInput : Obligations.DecodeRejectsBadInput := by
  intro s r rest hidle hreq hcmd
  have hstep := step_eq_startDecode hidle hreq hcmd
  exact ⟨fun hlong => hstep.trans (startDecode_of_long hlong), fun hmax hbad =>
    ⟨_, hstep.trans (startDecode_of_bad hmax hbad), ⟨rfl, rfl⟩, rfl⟩⟩

/-- Settles O22: a DECODE that begins sets the decoder's registers and the shared cursors, and nothing of the
encoder's. -/
theorem decodeStartsFresh : Obligations.DecodeStartsFresh := by
  intro s r rest d hidle hreq hcmd hmin hmax hparse hroom
  exact ⟨_, (step_eq_startDecode hidle hreq hcmd).trans (startDecode_of_good hmax hmin hparse hroom), rfl, rfl, rfl,
    rfl, rfl, cacheGet_start, rfl, rfl, rfl, rfl, rfl, rfl, rfl, rfl, rfl⟩

end

section
/-! Running the decoder over several steps, and the two caches side by side: what the round trip of rule R179 is put
together from. -/

namespace Sys2Proof.Machine

variable {s u w x y : State} {m n : Nat} {bs cs : List Byte} {d : Desc} {p : Pixel}

/-! ### Several steps and what they write -/

/-- Running on from where a run has come to. -/
theorem runFor_add (h : runFor m u = .next x) : runFor (m + n) u = runFor n x := by
  induction m generalizing u with
  | zero =>
    cases h
    rw [Nat.zero_add]
  | succ m ih =>
    cases hstep : step u with
    | next v =>
      rw [runFor_succ hstep] at h
      rw [Nat.succ_add, runFor_succ hstep, ih h]
    | fault f =>
      have hcore : Sys2Proof.core.step u = .fault f := hstep
      simp [runFor, Host.Core.run, hcore] at h
    | refused e =>
      have hcore : Sys2Proof.core.step u = .refused e := hstep
      simp [runFor, Host.Core.run, hcore] at h

/-- In `m` steps these bytes are written at the output cursor, and no other byte. -/
structure Outputs (m : Nat) (bs : List Byte) (u x : State) : Prop where
  run : runFor m u = .next x
  emitted : Emitted u x bs

theorem Outputs.refl (u : State) : Outputs 0 [] u u := ⟨rfl, emitted_nil rfl rfl⟩

theorem Outputs.trans (h1 : Outputs m bs u x) (h2 : Outputs n cs x y) : Outputs (m + n) (bs ++ cs) u y :=
  ⟨(runFor_add h1.run).trans h2.run, h1.emitted.trans h2.emitted⟩

/-- The bytes of a pixel, `n` times over (rules R52, R87). -/
def pixelRun (d : Desc) (p : Pixel) (n : Nat) : List Byte := (List.replicate n (pixelBytes d p)).flatten

@[simp] theorem pixelRun_zero (d : Desc) (p : Pixel) : pixelRun d p 0 = [] := rfl

theorem pixelRun_one (d : Desc) (p : Pixel) : pixelRun d p 1 = pixelBytes d p := List.append_nil _

theorem pixelRun_add (d : Desc) (p : Pixel) (m n : Nat) : pixelRun d p (m + n) = pixelRun d p m ++ pixelRun d p n := by
  rw [pixelRun, List.replicate_add, List.flatten_append]
  rfl

/-! ### The two caches (rules R128, R129, R138, R173) -/

/-- What the decoder's cache must have for the encoder's hits to decode. The caches need not be equal, since only the
decoder stores on a run; but every pixel the encoder would hit is in the decoder's slot too, and no pixel but `prev` is
hit in the slot of `prev`, which the decoder may overwrite with it. -/
structure CachesAgree (prev : Pixel) (enc dec : Cache) : Prop where
  hit : ∀ p, cacheGet enc (hash p) = p → cacheGet dec (hash p) = p
  own : ∀ p, hash p = hash prev → cacheGet enc (hash p) = p → p = prev

variable {prev : Pixel} {enc dec : Cache}

/-- At the start the slot of `prev` holds (0,0,0,0), which hashes to another one (rules R24, R28). -/
theorem cachesAgree_start : CachesAgree Pixel.start Cache.start Cache.start where
  hit _ h := h
  own p hslot hhit := by
    rw [cacheGet_start] at hhit
    rw [← hhit] at hslot
    exact absurd hslot (by decide)

/-- After a literal both caches hold the pixel in its slot (rules R129, R173). -/
theorem CachesAgree.store (h : CachesAgree prev enc dec) (p : Pixel) :
    CachesAgree p (cacheSet enc (hash p) p) (cacheSet dec (hash p) p) where
  hit q hq := by
    rw [cacheGet_cacheSet] at hq ⊢
    split_ifs at hq ⊢
    · exact hq
    · exact h.hit q hq
  own q hslot hq := by
    rw [cacheGet_cacheSet, if_pos hslot] at hq
    exact hq.symm

/-- After an INDEX neither cache has changed (rules R128, R173). -/
theorem CachesAgree.of_hit (h : CachesAgree prev enc dec) (hhit : cacheGet enc (hash p) = p) :
    CachesAgree p enc dec where
  hit := h.hit
  own q hslot hq := by rw [← hq, hslot, hhit]

/-- After a RUN the decoder alone has stored `prev` (rules R138, R172, R173). -/
theorem CachesAgree.storePrev (h : CachesAgree prev enc dec) :
    CachesAgree prev enc (cacheSet dec (hash prev) prev) where
  hit q hq := by
    rw [cacheGet_cacheSet]
    split_ifs with hslot
    · exact (h.own q hslot hq).symm
    · exact h.hit q hq
  own := h.own

end Sys2Proof.Machine
end

section
/-! The decoder on the stream of a running encoder, op by op (rules R164 to R177). -/

namespace Sys2Proof.Machine

variable {s s' u w x : State} {k r : Nat} {i : Instr} {ops : List Instr}

/-- A decoder with `k` pixels of the image done and `r` of a run to come follows the encoder state `s`: its pixel is the
encoder's `prev`, its cache has what the encoder would hit, and the bytes it has not read are these ops and the end
marker. -/
structure Tracks (k r : Nat) (ops : List Instr) (s u : State) : Prop where
  phase : u.phase = .decoding
  legal : validDesc u.desc = true
  desc : u.desc = s.desc
  px : u.px = s.prev
  caches : CachesAgree s.prev s.encCache u.decCache
  out : u.out.wf = true
  pos : u.pos = k
  wr : u.wr = u.pos * u.desc.stride
  run : u.run.toNat = r
  wf : ∀ i ∈ ops, i.wf = true
  bytes : u.inp.cells.readBytes u.rd (u.inp.len - u.rd) = ops.flatMap encode ++ endMarker

/-- The DECODE has ended with success and this description (rule R177). -/
def DecodedOk (d : Desc) (v : State) : Prop :=
  v.phase = .idle ∧ v.result = some { status := .ok, outLen := d.pixels * d.stride, desc := some d }

/-- The decoder has done `k` pixels and no run is pending: it goes on, or the image is complete and it has ended
well. -/
def CaughtUp (k : Nat) (ops : List Instr) (s x : State) : Prop :=
  (k < s.desc.pixels ∧ Tracks k 0 ops s x) ∨ (k = s.desc.pixels ∧ DecodedOk s.desc x)

/-- Only the encoder's description, `prev` and cache matter. -/
theorem Tracks.congr (h : Tracks k r ops s u) (hdesc : s'.desc = s.desc) (hprev : s'.prev = s.prev)
    (hcache : s'.encCache = s.encCache) : Tracks k r ops s' u :=
  { h with
    desc := h.desc.trans hdesc.symm
    px := h.px.trans hprev.symm
    caches := by rw [hprev, hcache]; exact h.caches }

/-! ### The bytes that are left -/

theorem Tracks.inp_len (h : Tracks k r ops s u) : u.inp.len = u.rd + (ops.flatMap encode).length + 8 := by
  have hlen := congrArg List.length h.bytes
  rw [Memory.readBytes_length, List.length_append, show endMarker.length = 8 from rfl] at hlen
  omega

theorem Tracks.streamEnd_eq (h : Tracks k r ops s u) : streamEnd u = u.rd + (ops.flatMap encode).length := by
  have := h.inp_len
  simp only [streamEnd]
  omega

/-- The first op left ends before the marker region, so it fits under either policy. -/
theorem Tracks.op_end_le (h : Tracks k r (i :: ops) s u) : u.rd + i.length ≤ streamEnd u := by
  rw [h.streamEnd_eq, List.flatMap_cons, List.length_append, encode_length]
  omega

/-- Every op has a byte (rule R74). -/
theorem opLength_pos (i : Instr) : 0 < i.length := by cases i <;> simp [Instr.length]

/-- The next step fetches the first op left. -/
theorem Tracks.fetches (h : Tracks k 0 (i :: ops) s u) : Fetches u i := by
  have hend := h.op_end_le
  have hpos := opLength_pos i
  refine ⟨h.phase, BitVec.eq_of_toNat_eq h.run, by omega, ops.flatMap encode ++ endMarker, ?_⟩
  rw [h.bytes, List.flatMap_cons, List.append_assoc]
  exact decodeOfEncodeIsIdentity i _ (h.wf i (by simp))

/-- Past the first op the others are left. -/
theorem Tracks.bytes_after (h : Tracks k r (i :: ops) s u) :
    u.inp.cells.readBytes (u.rd + i.length) (u.inp.len - (u.rd + i.length)) = ops.flatMap encode ++ endMarker := by
  have hend := h.op_end_le
  have hsplit : u.inp.len - u.rd = i.length + (u.inp.len - (u.rd + i.length)) := by
    simp only [streamEnd] at hend
    have := h.inp_len
    omega
  have hbytes := h.bytes
  rw [hsplit, Memory.readBytes_append, List.flatMap_cons, List.append_assoc] at hbytes
  exact (List.append_inj hbytes (by rw [Memory.readBytes_length, encode_length])).2

/-! ### The end of a pixel step -/

@[simp] theorem completePixel_wr (s : State) : (completePixel s).wr = s.pos * s.desc.stride + s.desc.stride := by
  obtain ⟨ph, po, res, h⟩ := completePixel_eq s
  rw [h]

/-- The end of a pixel step writes the pixel at the output cursor (rule R175). -/
theorem Tracks.emitted_completePixel (h : Tracks k r ops s w) :
    Emitted w (completePixel w) (pixelBytes s.desc s.prev) := by
  rw [← h.desc, ← h.px]
  refine (emitted_emit _ h.out).congr ?_ ?_
  · rw [completePixel_wr, State.emit_wr, h.wr, pixelBytes_length _ (validDesc_iff.1 h.legal).2.2.1]
  · rw [completePixel_out, State.emit_out, h.wr]

/-- Before the last pixel the decoder goes on to the next position. -/
theorem Tracks.completePixel (h : Tracks k r ops s w) (hmore : k + 1 < s.desc.pixels) :
    Tracks (k + 1) r ops s (completePixel w) := by
  rw [completePixel_of_more (by rwa [h.pos, h.desc])]
  exact
    { h with
      out := Memory.wf_writeBytes h.out _ _
      pos := congrArg (· + 1) h.pos
      wr := (Nat.succ_mul _ _).symm }

/-- After the last pixel, with no op left, the end check passes under every setting (rules R176, R177). -/
theorem Tracks.decodedOk (h : Tracks k 0 [] s w) (hlast : k + 1 = s.desc.pixels) :
    DecodedOk s.desc (Machine.completePixel w) := by
  have hlen : w.inp.len = w.rd + 8 := h.inp_len
  have hmarker := h.bytes
  rw [hlen, Nat.add_sub_cancel_left] at hmarker
  have hclean : endsCleanly (writePixel w) = true := by
    refine (endsCleanly_iff (s := writePixel w) (show 8 ≤ w.inp.len by omega)).2 ?_
    show w.rd = w.inp.len - 8 ∧ w.run = 0 ∧ w.inp.cells.readBytes (w.inp.len - 8) 8 = _
    rw [hlen, Nat.add_sub_cancel]
    exact ⟨rfl, BitVec.eq_of_toNat_eq h.run, hmarker⟩
  rw [completePixel_of_last (by rwa [h.pos, h.desc]), finishDecode_of_clean (.inr hclean), ← h.desc]
  exact ⟨rfl, rfl⟩

/-! ### A run, and an op -/

theorem Tracks.continueRun (h : Tracks k (r + 1) ops s u) : Tracks k r ops s (continueRun u) :=
  { h with
    run := by
      have := h.run
      show (u.run - 1).toNat = r
      bv_omega }

/-- From the end of a pixel step the rest of its run is written out, one pixel a step (rules R165, R175). -/
theorem Tracks.finishRun (h : Tracks k r ops s w) (hroom : k + r + 1 ≤ s.desc.pixels)
    (hops : k + r + 1 = s.desc.pixels → ops = []) :
    ∃ x, runFor r (Machine.completePixel w) = .next x ∧ Emitted w x (pixelRun s.desc s.prev (r + 1)) ∧
      CaughtUp (k + r + 1) ops s x := by
  induction r generalizing k w with
  | zero =>
    refine ⟨_, rfl, pixelRun_one s.desc s.prev ▸ h.emitted_completePixel, ?_⟩
    rcases Nat.lt_or_eq_of_le hroom with hmore | hlast
    · exact .inl ⟨hmore, h.completePixel hmore⟩
    · obtain rfl := hops hlast
      exact .inr ⟨hlast, h.decodedOk hlast⟩
  | succ r ih =>
    have hnext := h.completePixel (by omega)
    have htotal : k + 1 + r + 1 = k + (r + 1) + 1 := by omega
    obtain ⟨x, hrun, hemit, hcaught⟩ := ih hnext.continueRun (by omega) (by rwa [htotal])
    have hpending : (Machine.completePixel w).run ≠ 0 := fun hzero => by
      have := hnext.run
      rw [hzero] at this
      cases this
    refine ⟨x, (runFor_succ (step_of_run hnext.phase hpending)).trans hrun, ?_, htotal ▸ hcaught⟩
    rw [Nat.add_comm (r + 1), pixelRun_add, pixelRun_one]
    exact h.emitted_completePixel.trans hemit

/-- An op that leaves the encoder's next pixel in `px`, and its cache in agreement, is followed to the end of its
run. -/
theorem Tracks.op (h : Tracks k 0 (i :: ops) s u) (hexec : exec i u = .next w) (hdesc : s'.desc = s.desc)
    (hpx : w.px = s'.prev) (hcaches : CachesAgree s'.prev s'.encCache w.decCache) (hrun : w.run.toNat = r)
    (hroom : k + r + 1 ≤ s.desc.pixels) (hops : k + r + 1 = s.desc.pixels → ops = []) :
    ∃ x, Outputs (r + 1) (pixelRun s.desc s'.prev (r + 1)) u x ∧ CaughtUp (k + r + 1) ops s' x := by
  obtain ⟨w', hexec', ⟨hframe, hout⟩, hrd⟩ := exists_exec_of_fits (.inr h.op_end_le)
  cases hexec.symm.trans hexec'
  have hw : Tracks k r ops s' w :=
    { phase := hframe.phase.trans h.phase
      legal := hframe.desc ▸ h.legal
      desc := hframe.desc.trans (h.desc.trans hdesc.symm)
      px := hpx
      caches := hcaches
      out := hout ▸ h.out
      pos := hframe.pos.trans h.pos
      wr := by rw [hframe.wr, hframe.pos, hframe.desc, h.wr]
      run := hrun
      wf := fun j hj => h.wf j (List.mem_cons_of_mem i hj)
      bytes := by rw [hframe.inp, hrd]; exact h.bytes_after }
  have hstep : step u = .next (Machine.completePixel w) := by
    rw [h.fetches.step_eq hexec, completeUnlessRaised_of_decoding hw.phase]
  rw [← hdesc] at hroom hops ⊢
  obtain ⟨x, hrest, hemit, hcaught⟩ := hw.finishRun hroom hops
  have hsame : Emitted u w [] := emitted_nil hframe.wr hout
  exact ⟨x, ⟨(runFor_succ hstep).trans hrest, hsame.trans hemit⟩, hcaught⟩

/-- RUN n is followed by n pixels equal to `prev` (rules R165, R172). -/
theorem Tracks.runOp {n : Nat} (h : Tracks k 0 (.run (n + 1) :: ops) s u) (hroom : k + n + 1 ≤ s.desc.pixels)
    (hops : k + n + 1 = s.desc.pixels → ops = []) :
    ∃ x, Outputs (n + 1) (pixelRun s.desc s.prev (n + 1)) u x ∧ CaughtUp (k + n + 1) ops s x := by
  have hwf := h.wf (.run (n + 1)) (by simp)
  simp only [Instr.wf, maxRun, Bool.and_eq_true, decide_eq_true_eq] at hwf
  refine h.op rfl rfl h.px ?_ ?_ hroom hops
  · show CachesAgree s.prev s.encCache (cacheSet u.decCache (hash u.px) u.px)
    rw [h.px]
    exact h.caches.storePrev
  · show (BitVec.ofNat 6 n).toNat = n
    rw [BitVec.toNat_ofNat]
    omega

end Sys2Proof.Machine
end

section
/-! The round trip (rule R179): the decoder follows the encoder pixel by pixel. The statement O55. -/

namespace Sys2Proof.Machine

variable {s u x : State} {k n : Nat} {i : Instr} {ops rest : List Instr} {px : Pixel}

/-! ### What one pixel of the encoder writes, and the decoder on it -/

/-- The RUN op of the pending run, if there is one (rule R128). -/
def pendingOps (s : State) : List Instr := if s.run = 0 then [] else [.run s.run.toNat]

theorem writes_pendingOps (hout : s.out.wf = true) (hrun : s.run.toNat ≤ 61) :
    Writes (pendingOps s) s (flushPending s) := by
  unfold pendingOps flushPending
  split_ifs with h0
  · exact writes_nil rfl rfl
  · exact writes_flushRun hout (by bv_omega) (by omega)

/-- A flushed run brings the decoder to the encoder's position (rules R128, R165, R172). -/
theorem Tracks.pendingOps (h : Tracks k 0 (pendingOps s ++ ops) s u) (hk : k + s.run.toNat = s.pos)
    (hpos : s.pos < s.desc.pixels) :
    ∃ x, Outputs s.run.toNat (pixelRun s.desc s.prev s.run.toNat) u x ∧ Tracks s.pos 0 ops s x := by
  by_cases h0 : s.run = 0
  · rw [Machine.pendingOps, if_pos h0] at h
    have hnone : s.run.toNat = 0 := by simp [h0]
    rw [hnone] at hk ⊢
    exact ⟨u, .refl u, hk ▸ h⟩
  · obtain ⟨r, hr⟩ : ∃ r, s.run.toNat = r + 1 := Nat.exists_eq_add_one_of_ne_zero (by bv_omega)
    rw [Machine.pendingOps, if_neg h0, hr] at h
    rw [hr, ← Nat.add_assoc] at hk
    obtain ⟨x, hx, hcaught⟩ := h.runOp (by omega) (by omega)
    rw [hk] at hcaught
    rw [hr]
    exact ⟨x, hx, (hcaught.resolve_right fun hdone => hpos.ne hdone.1).2⟩

/-- The decoder on the ops of one pixel of the encoder: it writes the pixels of the run that was pending, and this one,
except for those that are pending now. -/
def Replays (ops : List Instr) (px : Pixel) (s : State) : Prop :=
  ∀ (k : Nat) (rest : List Instr) (u : State), k + s.run.toNat = s.pos → (s.pos + 1 = s.desc.pixels → rest = []) →
    Tracks k 0 (ops ++ rest) s u →
    ∃ m bs x, Outputs m bs u x ∧ m + (encodeOne px s).run.toNat = s.run.toNat + 1 ∧
      bs ++ pixelRun s.desc px (encodeOne px s).run.toNat = pixelRun s.desc s.prev s.run.toNat ++ pixelBytes s.desc px ∧
      CaughtUp (k + m) rest (encodeOne px s) x

/-- A run that is flushed with this pixel. -/
theorem replays_flushed (hpx : px = s.prev) (hcleared : (encodeOne px s).run = 0) (hpos : s.pos < s.desc.pixels) :
    Replays [.run (s.run.toNat + 1)] px s := by
  intro k rest u hk hrest h
  have hzero : (encodeOne px s).run.toNat = 0 := by simp [hcleared]
  have htracks := h.congr (s' := encodeOne px s) (encodeOne_frame px s).desc
    ((encodeOne_prev_pos_phase px s).1.trans hpx) (encodeOne_encCache (.inl hpx))
  obtain ⟨x, hx, hcaught⟩ := htracks.runOp (by rw [(encodeOne_frame px s).desc]; omega)
    (by rw [(encodeOne_frame px s).desc]; exact fun hlast => hrest (by omega))
  rw [(encodeOne_frame px s).desc, (encodeOne_prev_pos_phase px s).1, pixelRun_add, pixelRun_one] at hx
  refine ⟨_, _, x, hx, by rw [hzero, Nat.add_zero], ?_, hcaught⟩
  rw [hzero, pixelRun_zero, List.append_nil, hpx]

/-- A pixel that joins the pending run: the decoder has nothing to do yet. -/
theorem replays_grown (hpx : px = s.prev) (hgrown : (encodeOne px s).run.toNat = s.run.toNat + 1)
    (hpos : s.pos < s.desc.pixels) : Replays [] px s := by
  intro k rest u hk _ h
  refine ⟨0, [], u, .refl u, by rw [hgrown, Nat.zero_add], ?_, .inl ⟨?_, ?_⟩⟩
  · rw [hgrown, pixelRun_add, pixelRun_one, List.nil_append, hpx]
  · rw [(encodeOne_frame px s).desc]
    omega
  · exact h.congr (encodeOne_frame px s).desc ((encodeOne_prev_pos_phase px s).1.trans hpx)
      (encodeOne_encCache (.inl hpx))

/-- A pixel that differs from `prev`, written as one op after the pending run: given that the op leaves it in `px` and
the caches in agreement. -/
theorem replays_op (hne : px ≠ s.prev) (hpos : s.pos < s.desc.pixels)
    (hop : ∀ x, x.px = s.prev → CachesAgree s.prev s.encCache x.decCache → Fits x i.length → ∃ w, exec i x = .next w ∧
      w.px = px ∧ w.run = x.run ∧ CachesAgree px (encodeOne px s).encCache w.decCache) :
    Replays (pendingOps s ++ [i]) px s := by
  intro k rest u hk hrest h
  have hzero : (encodeOne px s).run.toNat = 0 := by simp [encodeOne_run_of_ne hne]
  have hprev := (encodeOne_prev_pos_phase px s).1
  rw [List.append_assoc, List.singleton_append] at h
  obtain ⟨x, hx, htracks⟩ := h.pendingOps hk hpos
  obtain ⟨w, hexec, hpx, hrun, hcaches⟩ := hop x htracks.px htracks.caches (.inr htracks.op_end_le)
  obtain ⟨y, hy, hcaught⟩ := htracks.op (r := 0) (s' := encodeOne px s) hexec (encodeOne_frame px s).desc
    (hpx.trans hprev.symm) (hprev.symm ▸ hcaches) (hrun ▸ htracks.run) hpos hrest
  rw [hprev, pixelRun_one] at hy
  refine ⟨_, _, y, hx.trans hy, by rw [hzero], ?_, ?_⟩
  · rw [hzero, pixelRun_zero, List.append_nil]
  · rwa [← Nat.add_assoc, hk]

/-- INDEX of a pixel that the encoder hits finds it in the decoder's slot too (rules R128, R169). -/
theorem replays_hit (hne : px ≠ s.prev) (hhit : cacheGet s.encCache (hash px) = px) (hpos : s.pos < s.desc.pixels) :
    Replays (pendingOps s ++ [.index (hash px)]) px s := by
  refine replays_op hne hpos fun x _ hcaches _ => ⟨_, rfl, hcaches.hit px hhit, rfl, ?_⟩
  rw [encodeOne_encCache (.inr hhit)]
  exact hcaches.of_hit hhit

/-- The literal op of a pixel that misses gives it back, and both units store it (rules R129 to R134, R173). -/
theorem replays_miss (hne : px ≠ s.prev) (hmiss : cacheGet s.encCache (hash px) ≠ px) (hpos : s.pos < s.desc.pixels) :
    Replays (pendingOps s ++ [chooseOp px s.prev]) px s := by
  refine replays_op hne hpos fun x hpx hcaches hfits => ?_
  rw [← hpx] at hfits ⊢
  refine ⟨_, exec_chooseOp hfits, rfl, rfl, ?_⟩
  rw [encodeOne_of_miss hne hmiss]
  show CachesAgree px (cacheSet (flushPending s).encCache (hash px) px) (cacheSet x.decCache (hash px) px)
  rw [flushPending_encCache]
  exact hcaches.store px

/-- One pixel of the encoder writes ops that the decoder replays; after the last one no run is pending. -/
theorem MidEncode.exists_replays (h : MidEncode s) (px : Pixel) : ∃ ops, Writes ops s (encodeOne px s) ∧
    Replays ops px s ∧ (s.pos + 1 = s.desc.pixels → (encodeOne px s).run = 0) := by
  have hrun := h.enc.run
  have hpos := h.enc.pos
  have hp := writes_pendingOps h.out hrun
  have hout := wf_flushPending h.out
  by_cases hpx : px = s.prev
  · by_cases hfull : s.run.toNat + 1 = maxRun ∨ s.pos + 1 = s.desc.pixels
    · obtain ⟨hw, hcleared⟩ := encodeOne_flushes hpx h.out hrun hfull
      exact ⟨_, hw, replays_flushed hpx hcleared hpos, fun _ => hcleared⟩
    · obtain ⟨hshort, hmore⟩ := not_or.1 hfull
      obtain ⟨hw, hgrown⟩ := encodeOne_grows hpx hrun hshort hmore
      exact ⟨_, hw, replays_grown hpx hgrown hpos, fun hlast => absurd hlast hmore⟩
  · by_cases hhit : cacheGet s.encCache (hash px) = px
    · refine ⟨_, ?_, replays_hit hpx hhit hpos, fun _ => encodeOne_run_of_ne hpx⟩
      rw [encodeOne_of_hit hpx hhit]
      exact (hp.trans (writes_emitOp hout rfl)).congr rfl rfl
    · refine ⟨_, ?_, replays_miss hpx hhit hpos, fun _ => encodeOne_run_of_ne hpx⟩
      rw [encodeOne_of_miss hpx hhit]
      have hstored : Writes (Machine.pendingOps s) s ((flushPending s).storeEnc px) := hp.congr rfl rfl
      exact (hstored.trans (writes_emitOp hout (wf_chooseOp px s.prev))).congr rfl rfl

/-! ### The whole image -/

/-- The pixel the encoder has read has the bytes that stand at its address (rules R52, R125). -/
theorem EncInv.pixelBytes_eq (h : EncInv s) (hread : readPixel s = some px) :
    pixelBytes s.desc px = s.inp.cells.readBytes (s.pos * s.desc.stride) s.desc.stride := by
  have hch := (validDesc_iff.1 h.desc).2.2.1
  cases hread.symm.trans (encoderReadsThePixel s hch h.pixel_end_le)
  rcases hch with hch | hch <;> simp [pixelBytes, Desc.stride, hch, Memory.readBytes_succ]

/-- The ops are replayed to the end: the pending run and the bytes of IN from the position on, then success. -/
def ReplaysToEnd (n : Nat) (ops : List Instr) (s : State) : Prop :=
  ∀ (k : Nat) (u : State), k + s.run.toNat = s.pos → Tracks k 0 ops s u →
    ∃ v, DecodedOk s.desc v ∧ Outputs (s.run.toNat + n) (pixelRun s.desc s.prev s.run.toNat ++
      s.inp.cells.readBytes (s.pos * s.desc.stride) (n * s.desc.stride)) u v

/-- The ops of the last pixel end the DECODE. -/
theorem MidEncode.replaysToEnd_last (h : MidEncode s) (hread : readPixel s = some px)
    (hlast : s.pos + 1 = s.desc.pixels) (hops : Replays ops px s) (hcleared : (encodeOne px s).run = 0) :
    ReplaysToEnd 1 ops s := by
  intro k u hk htracks
  obtain ⟨m, bs, x, hx, hsteps, hbytes, hcaught⟩ :=
    hops k [] u hk (fun _ => rfl) (by rwa [List.append_nil])
  have hdesc := (encodeOne_frame px s).desc
  have hzero : (encodeOne px s).run.toNat = 0 := by simp [hcleared]
  rw [hzero] at hsteps hbytes
  rw [pixelRun_zero, List.append_nil, h.enc.pixelBytes_eq hread] at hbytes
  rw [Nat.one_mul, ← hbytes, ← hsteps, Nat.add_zero, ← hdesc]
  exact ⟨x, (hcaught.resolve_left fun hmore => by rw [hdesc] at hmore; omega).2, hx⟩

/-- The ops of a pixel that is not the last are followed by the rest. -/
theorem MidEncode.replaysToEnd_succ (h : MidEncode s) (hread : readPixel s = some px)
    (hmore : s.pos + 1 < s.desc.pixels) (hops : Replays ops px s)
    (hrest : ReplaysToEnd n rest (encodeOne px s).advancePos) : ReplaysToEnd (n + 1) (ops ++ rest) s := by
  intro k u hk htracks
  obtain ⟨m, bs, x, hx, hsteps, hbytes, hcaught⟩ := hops k rest u hk (fun hlast => absurd hlast hmore.ne) htracks
  have hf := encodeOne_frame px s
  obtain ⟨hprev, hpos, -⟩ := encodeOne_prev_pos_phase px s
  have hnext : Tracks (k + m) 0 rest (encodeOne px s) x :=
    (hcaught.resolve_right fun hdone => by rw [hf.desc] at hdone; omega).2
  obtain ⟨v, hok, hv⟩ := hrest (k + m) x (by simp only [State.advancePos_run, State.advancePos_pos, hpos]; omega)
    (hnext.congr rfl rfl rfl)
  simp only [State.advancePos_run, State.advancePos_pos, State.advancePos_desc, State.advancePos_prev,
    State.advancePos_inp, hprev, hpos, hf.desc, hf.inp] at hok hv
  refine ⟨v, hok, ?_⟩
  have hall := hx.trans hv
  rw [← List.append_assoc, hbytes, h.enc.pixelBytes_eq hread, ← Nat.add_assoc, hsteps, List.append_assoc,
    Nat.succ_mul, ← Memory.readBytes_append, Nat.add_comm s.desc.stride, ← Nat.succ_mul, Nat.add_assoc,
    Nat.add_comm 1] at hall
  exact hall

/-- An ENCODE with `n + 1` pixels left writes ops that a decoder behind it turns back into those pixels (rule R179). -/
theorem MidEncode.exists_replaysToEnd (h : MidEncode s) (hleft : s.pos + (n + 1) = s.desc.pixels) :
    ∃ ops, EncodesTo (n + 1) s ops ∧ ReplaysToEnd (n + 1) ops s := by
  induction n generalizing s with
  | zero =>
    obtain ⟨px, hread⟩ := h.enc.exists_readPixel_eq_some
    obtain ⟨ops, hw, hops, hcleared⟩ := h.exists_replays px
    exact ⟨ops, h.encodesTo_last hread hleft hw, h.replaysToEnd_last hread hleft hops (hcleared hleft)⟩
  | succ n ih =>
    obtain ⟨px, hread⟩ := h.enc.exists_readPixel_eq_some
    obtain ⟨ops, hw, hops, -⟩ := h.exists_replays px
    have hmore : s.pos + 1 < s.desc.pixels := by omega
    obtain ⟨rest, henc, hdec⟩ := ih (h.advancePos hread hmore) (by
      rw [State.advancePos_pos, State.advancePos_desc, (encodeOne_prev_pos_phase px s).2.1, (encodeOne_frame px s).desc]
      omega)
    exact ⟨ops ++ rest, h.encodesTo_succ hread hmore hw henc, h.replaysToEnd_succ hread hmore hops hdec⟩

/-! ### From the start of the commands -/

variable {d : Desc} {r : Request} {cap : Nat}

theorem stream_length (d : Desc) (ops : List Instr) : (stream d ops).length = 14 + (ops.flatMap encode).length + 8 := by
  rw [stream, List.length_append, List.length_append]
  rfl

theorem stream_eq (d : Desc) (ops : List Instr) : stream d ops = serialize d ++ (ops.flatMap encode ++ endMarker) :=
  List.append_assoc ..

/-- The one command of an idle block, a DECODE of a stream of a legal description with room for the image, begins when
the stream has an admitted length (rules R160 to R163). -/
theorem step_of_asked_decode (hasked : Asked u { cmd := .decode, inp := Space.ofBytes (stream d ops), outCap := cap })
    (hdesc : validDesc d = true) (hmax : (stream d ops).length ≤ 2 ^ u.cfg.cursorBits - 1)
    (hroom : d.pixels * d.stride ≤ cap) :
    step u = .next (beginDecode d { cmd := .decode, inp := Space.ofBytes (stream d ops), outCap := cap }
      { u with requests := [] }) := by
  have hlen := stream_length d ops
  have hheader : (Space.ofBytes (stream d ops)).cells.readBytes 0 14 = serialize d := by
    rw [Space.readBytes_ofBytes (by omega), stream_eq, List.drop_zero, List.take_left' (serialize_length d)]
  rw [step_eq_startDecode hasked.1 hasked.2 rfl]
  refine startDecode_of_good hmax (show 22 ≤ (stream d ops).length by omega) ?_ hroom
  exact (congrArg parse hheader).trans (headerCodecRoundTrip.1 d hdesc)

/-- The two commands begin together: nothing is decoded, `px` and `prev` and the caches have their start values, and the
stream behind the header is left (rules R123, R163). -/
theorem tracks_begin (hdesc : validDesc d = true) (hwf : ∀ i ∈ ops, i.wf = true) :
    Tracks 0 0 ops (beginEncode d r s)
      (beginDecode d { cmd := .decode, inp := Space.ofBytes (stream d ops), outCap := cap } u) :=
  { phase := rfl, legal := hdesc, desc := rfl, px := rfl, caches := cachesAgree_start, out := rfl, pos := rfl
    wr := (Nat.zero_mul _).symm, run := rfl, wf := hwf
    bytes := by
      have hlen := stream_length d ops
      show (Space.ofBytes (stream d ops)).cells.readBytes 14 ((stream d ops).length - 14) = _
      rw [Space.readBytes_ofBytes (by omega), stream_eq, List.drop_left' (serialize_length d)]
      exact List.take_of_length_le (by simp) }

/-- A whole DECODE of the stream, given that its ops are replayed: it ends well, with the encoder's IN in OUT (rules
R177, R179). -/
theorem decode_of_replaysToEnd (hasked : Asked u { cmd := .decode, inp := Space.ofBytes (stream d ops), outCap := cap })
    (hdesc : validDesc d = true) (hmax : (stream d ops).length ≤ 2 ^ u.cfg.cursorBits - 1)
    (hroom : d.pixels * d.stride ≤ cap) (hwf : ∀ i ∈ ops, i.wf = true)
    (h : ReplaysToEnd n ops (beginEncode d r s)) : ∃ v, runFor (n + 1) u = .next v ∧ DecodedOk d v ∧
      v.out.readBytes 0 (n * d.stride) = r.inp.cells.readBytes 0 (n * d.stride) := by
  obtain ⟨v, hok, hall⟩ := h 0 _ rfl (tracks_begin (cap := cap) (u := { u with requests := [] }) hdesc hwf)
  change Outputs (0 + n) ([] ++ r.inp.cells.readBytes (0 * d.stride) (n * d.stride)) _ v at hall
  rw [Nat.zero_add, List.nil_append, Nat.zero_mul] at hall
  obtain ⟨hrun, -, hbytes, -⟩ := hall
  rw [Memory.readBytes_length] at hbytes
  exact ⟨v, (runFor_succ (step_of_asked_decode hasked hdesc hmax hroom)).trans hrun, hok, hbytes⟩

/-- A stream within the room an ENCODE asks for has a length that every setting admits (rules R9, R137, R160). -/
theorem stream_length_le_cursor {c : Config} (hc : c.wf = true) (hdesc : validDesc d = true)
    (hbound : (stream d ops).length ≤ encodeBound d) : (stream d ops).length ≤ 2 ^ c.cursorBits - 1 :=
  Nat.le_sub_one_of_lt (lt_two_pow_cursorBits hc (hbound.trans_lt (encodeBound_lt_of_validDesc hdesc)))

end Sys2Proof.Machine

open Sys2Proof Sys2Proof.Machine

/-- Settles O55: the decoder follows the encoder pixel by pixel, a pending run behind, with a cache in which every hit
of the encoder is found; at the end it has read up to the marker, so the end check passes. -/
theorem decodeOfEncodeIsLossless : Obligations.DecodeOfEncodeIsLossless := by
  intro s d buf cap hasked hdesc hlen hroom
  obtain ⟨n, hn⟩ : ∃ n, d.pixels = n + 1 := Nat.exists_eq_add_of_le' (pixels_pos_of_validDesc hdesc)
  have hmid := midEncode_beginEncode (s := { s with requests := [] })
    (r := { cmd := .encode d, inp := Space.ofBytes buf, outCap := cap }) hdesc hlen hroom
  obtain ⟨ops, henc, hdec⟩ := hmid.exists_replaysToEnd (n := n) ((Nat.zero_add _).trans hn.symm)
  obtain ⟨t, hrun, hidle, hwf, hres, hbytes, hbound⟩ := encode_of_encodesTo hasked rfl hdesc hlen hroom henc
  refine ⟨t, stream d ops, hn ▸ hrun, hidle, hres, hbytes, fun u cap2 hcfg hask hcap => ?_⟩
  obtain ⟨v, hrun', ⟨hidle', hres'⟩, hout⟩ := decode_of_replaysToEnd hask hdesc
    (stream_length_le_cursor hcfg hdesc hbound) hcap hwf hdec
  rw [← hn, ← hlen] at hout
  exact ⟨v, hn ▸ hrun', hidle', hlen ▸ hres', hout.trans (Space.toBytes_ofBytes buf)⟩

end

section
/-! The slot of a pixel (rules R200, R201): the statement O39. -/

namespace Sys2Proof.Machine

variable (p : Pixel)

/-- The exact sum fits 13 bits (rule R201). -/
theorem hashSum_lt_two_pow : hashSum p < 2 ^ 13 := (hashSum_le p).trans_lt (by decide)

/-- Modulo 64 each channel can be cut to its low six bits first: what is cut off weighs a multiple of 64. -/
theorem hash_val_eq_of_lowBits : (hash p).val =
    (3 * (p.r.toNat % 64) + 5 * (p.g.toNat % 64) + 7 * (p.b.toNat % 64) + 11 * (p.a.toNat % 64)) % 64 := by
  rw [hash_val, hashSum]
  omega

end Sys2Proof.Machine

open Sys2Proof Sys2Proof.Machine

/-- Settles O39: the slot is the exact sum modulo 64, and both consequences follow from that sum. -/
theorem hashIsTheWeightedSumModulo64 : Obligations.HashIsTheWeightedSumModulo64 :=
  fun p => ⟨hash_val p, hashSum_lt_two_pow p, hash_val_eq_of_lowBits p⟩

end

section
/-! A command reads none of the registers its start leaves alone (rules R36, R236): the statement O56. Two blocks given
the same command go through states that differ in those registers only, and end with the same result. -/

namespace Sys2Proof.Machine

variable {s s' t u : State} {d : Desc} {r : Request} {k : Nat}

/-- The state with the registers an ENCODE does not read taken from another: the decoder's own, and RESULT. -/
def State.withDecoderOf (s x : State) : State :=
  { s with px := x.px, rd := x.rd, decCache := x.decCache, result := x.result }

/-- The state with the registers a DECODE does not read taken from another: the encoder's own, and RESULT. -/
def State.withEncoderOf (s x : State) : State :=
  { s with prev := x.prev, encCache := x.encCache, result := x.result }

/-- Two blocks at the same point of the same command: while it runs they differ at most in the registers it does not
read, and once it has ended the host reads the same from both. -/
inductive SameCommand (s : State) : State → Prop
  | encoding (x : State) (hphase : s.phase = .encoding) : SameCommand s (s.withDecoderOf x)
  | decoding (x : State) (hphase : s.phase = .decoding) : SameCommand s (s.withEncoderOf x)
  | ended {s' : State} (hphase : s.phase = .idle) (hphase' : s'.phase = .idle) (hreq : s'.requests = s.requests)
      (hresult : s'.result = s.result) (hout : ∀ a, hostReadOut s' a = hostReadOut s a) : SameCommand s s'

theorem SameCommand.phase_eq (h : SameCommand s s') : s'.phase = s.phase := by
  cases h with
  | encoding => rfl
  | decoding => rfl
  | ended hphase hphase' => exact hphase'.trans hphase.symm

theorem SameCommand.reads_eq (h : SameCommand s s') (hidle : s.phase = .idle) :
    s'.result = s.result ∧ ∀ a, hostReadOut s' a = hostReadOut s a := by
  cases h with
  | encoding _ hphase => simp [hphase] at hidle
  | decoding _ hphase => simp [hphase] at hidle
  | ended _ _ _ hresult hout => exact ⟨hresult, hout⟩

/-- The same result over the same OUT ends both commands alike; a failure does so over any OUT (rule R224). -/
theorem sameCommand_finish {r : Result} (hreq : s'.requests = s.requests) (hout : r.status = .ok → s'.out = s.out) :
    SameCommand (s.finish r) (s'.finish r) := by
  refine .ended rfl rfl hreq rfl fun a => ?_
  have hread := hostReadResult_of_result (s.finish_phase r) (s.finish_result r)
  have hread' := hostReadResult_of_result (s'.finish_phase r) (s'.finish_result r)
  by_cases hok : r.status = .ok
  · simp [hostReadOut, hread, hread', hout hok]
  · rw [hostReadOut_of_failed hread hok, hostReadOut_of_failed hread' hok]

theorem sameCommand_raise {st : Status} (hreq : s'.requests = s.requests) (hst : st ≠ .ok) :
    SameCommand (s.raise st) (s'.raise st) :=
  sameCommand_finish hreq fun hok => absurd hok hst

/-! ### The start of a command -/

theorem startEncode_sameCommand (hcfg : s'.cfg = s.cfg) (hreq : s'.requests = s.requests)
    (h : startEncode d r s = .next t) : ∃ t', startEncode d r s' = .next t' ∧ SameCommand t t' := by
  rcases startEncode_cases h with ⟨hbad, rfl⟩ | ⟨hdesc, hlen, hroom, rfl⟩
  · refine ⟨_, startEncode_of_rejected (not_not.1 (mt not_rejectedEncode_iff.1 ?_)), sameCommand_raise hreq nofun⟩
    rintro ⟨hdesc, hlen⟩
    simp [hdesc, hlen] at hbad
  · have hbegin : beginEncode d r s' = (beginEncode d r s).withDecoderOf s' := by
      simp [beginEncode, State.withDecoderOf, State.emit, hcfg, hreq]
    exact ⟨_, startEncode_of_valid hdesc hlen hroom, hbegin ▸ .encoding s' rfl⟩

theorem startDecode_sameCommand (hcfg : s'.cfg = s.cfg) (hreq : s'.requests = s.requests)
    (h : startDecode r s = .next t) : ∃ t', startDecode r s' = .next t' ∧ SameCommand t t' := by
  obtain ⟨hmax, hrest⟩ := startDecode_cases h
  rw [← hcfg] at hmax
  rcases hrest with ⟨hshort, rfl⟩ | ⟨hmin, bs, hread, hparse⟩
  · exact ⟨_, startDecode_of_bad hmax (.inl hshort), sameCommand_raise hreq nofun⟩
  obtain rfl : r.inp.cells.readBytes 0 14 = bs := Option.some.inj ((memRead_header hmin).symm.trans hread)
  rcases hparse with ⟨e, he, rfl⟩ | ⟨d, hd, hroom, rfl⟩
  · exact ⟨_, startDecode_of_bad hmax (.inr ⟨e, he⟩), sameCommand_raise hreq nofun⟩
  · have hbegin : beginDecode d r s' = (beginDecode d r s).withEncoderOf s' := by
      simp [beginDecode, State.withEncoderOf, hcfg, hreq]
    exact ⟨_, startDecode_of_good hmax hmin hd hroom, hbegin ▸ .decoding s' rfl⟩

/-- The first step of a command is the same in every idle block with the same parameters. -/
theorem Asked.step_sameCommand (hasked : Asked s r) (hasked' : Asked s' r) (hcfg : s'.cfg = s.cfg)
    (h : step s = .next t) : ∃ t', step s' = .next t' ∧ SameCommand t t' := by
  obtain ⟨hidle, hreq⟩ := hasked
  obtain ⟨hidle', hreq'⟩ := hasked'
  cases hcmd : r.cmd with
  | encode d =>
    rw [step_eq_startEncode hidle hreq hcmd] at h
    rw [step_eq_startEncode hidle' hreq' hcmd]
    exact startEncode_sameCommand (s := { s with requests := [] }) (s' := { s' with requests := [] }) hcfg rfl h
  | decode =>
    rw [step_eq_startDecode hidle hreq hcmd] at h
    rw [step_eq_startDecode hidle' hreq' hcmd]
    exact startDecode_sameCommand (s := { s with requests := [] }) (s' := { s' with requests := [] }) hcfg rfl h

/-! ### A pixel step of the encoder -/

theorem flushPending_withDecoderOf (s x : State) :
    flushPending (s.withDecoderOf x) = (flushPending s).withDecoderOf x :=
  (apply_ite (State.withDecoderOf · x) (s.run = 0) s (flushRun s)).symm

theorem extendRun_withDecoderOf (s x : State) : extendRun (s.withDecoderOf x) = (extendRun s).withDecoderOf x :=
  (apply_ite (State.withDecoderOf · x) _ (flushRun (s.setRun (s.run + 1))) (s.setRun (s.run + 1))).symm

theorem encodeNew_withDecoderOf (px : Pixel) (s x : State) :
    encodeNew px (s.withDecoderOf x) = (encodeNew px s).withDecoderOf x := by
  unfold encodeNew
  rw [flushPending_withDecoderOf]
  exact (apply_ite (State.withDecoderOf · x) (cacheGet (flushPending s).encCache (hash px) = px)
    ((flushPending s).emitOp (.index (hash px)))
    (((flushPending s).storeEnc px).emitOp (chooseOp px (flushPending s).prev))).symm

theorem encodeOne_withDecoderOf (px : Pixel) (s x : State) :
    encodeOne px (s.withDecoderOf x) = (encodeOne px s).withDecoderOf x := by
  unfold encodeOne
  rw [extendRun_withDecoderOf, encodeNew_withDecoderOf]
  exact congrArg (State.setPrev · px) (apply_ite (State.withDecoderOf · x) (px = s.prev) _ _).symm

theorem encodeAdvance_sameCommand (hphase : s.phase = .encoding) (x : State) :
    SameCommand (encodeAdvance s) (encodeAdvance (s.withDecoderOf x)) := by
  show SameCommand (ite (s.pos + 1 < s.desc.pixels) _ _) (ite (s.pos + 1 < s.desc.pixels) _ _)
  split_ifs
  · exact .encoding x hphase
  · exact sameCommand_finish rfl fun _ => rfl

theorem encodePixel_sameCommand (hphase : s.phase = .encoding) (x : State) (h : encodePixel s = .next t) :
    ∃ t', encodePixel (s.withDecoderOf x) = .next t' ∧ SameCommand t t' := by
  obtain ⟨px, hread, rfl⟩ := encodePixel_eq_next h
  have hread' : readPixel (s.withDecoderOf x) = some px := hread
  refine ⟨_, by rw [encodePixel, hread'], ?_⟩
  rw [encodeOne_withDecoderOf]
  exact encodeAdvance_sameCommand ((encodeOne_prev_pos_phase px s).2.2.trans hphase) x

/-! ### A pixel step of the decoder -/

theorem finishDecode_sameCommand (s x : State) : SameCommand (finishDecode s) (finishDecode (s.withEncoderOf x)) := by
  show SameCommand (ite ((s.cfg.strictEnd && !endsCleanly s) = true) _ _)
    (ite ((s.cfg.strictEnd && !endsCleanly s) = true) _ _)
  split_ifs
  · exact sameCommand_raise rfl nofun
  · exact sameCommand_finish rfl fun _ => rfl

theorem completePixel_sameCommand (hphase : s.phase = .decoding) (x : State) :
    SameCommand (completePixel s) (completePixel (s.withEncoderOf x)) := by
  show SameCommand (ite (s.pos + 1 < s.desc.pixels) _ _) (ite (s.pos + 1 < s.desc.pixels) _ _)
  split_ifs
  · exact .decoding x hphase
  · exact finishDecode_sameCommand (writePixel s) x

/-- Completing the step keeps two blocks together, whether both go on or both have raised. -/
theorem SameCommand.completeUnlessRaised (h : SameCommand s s') :
    SameCommand (completeUnlessRaised s) (completeUnlessRaised s') := by
  have hphases := h.phase_eq
  unfold Machine.completeUnlessRaised
  rw [hphases]
  split_ifs with hdec
  · cases h with
    | encoding _ hphase => simp [hphase] at hdec
    | decoding x hphase => exact completePixel_sameCommand hphase x
    | ended hphase => simp [hphase] at hdec
  · exact h

theorem exhausted_sameCommand (hphase : s.phase = .decoding) (x : State) :
    SameCommand (exhausted s) (exhausted (s.withEncoderOf x)) := by
  show SameCommand (ite (s.cfg.truncation = .fail) _ _) (ite (s.cfg.truncation = .fail) _ _)
  split_ifs
  · exact sameCommand_raise rfl nofun
  · exact .decoding x hphase

theorem operandOp_sameCommand {n : Nat} {p : Pixel} (hphase : s.phase = .decoding) (x : State)
    (h : operandOp n p s = .next u) :
    ∃ u', operandOp n p (s.withEncoderOf x) = .next u' ∧ SameCommand u u' := by
  rcases operandOp_cases h with ⟨ht, hu⟩ | ⟨ht, hu⟩ <;> cases hu
  · exact ⟨_, operandOp_of_truncated ht, sameCommand_raise rfl nofun⟩
  · exact ⟨_, operandOp_of_fits ht, .decoding x hphase⟩

theorem exec_sameCommand {i : Instr} (hphase : s.phase = .decoding) (x : State) (h : exec i s = .next u) :
    ∃ u', exec i (s.withEncoderOf x) = .next u' ∧ SameCommand u u' := by
  cases i with
  | index slot => cases h; exact ⟨_, rfl, .decoding x hphase⟩
  | diff dr dg db => cases h; exact ⟨_, rfl, .decoding x hphase⟩
  | run n => cases h; exact ⟨_, rfl, .decoding x hphase⟩
  | luma dg drg dbg => exact operandOp_sameCommand hphase x h
  | rgb r g b => exact operandOp_sameCommand hphase x h
  | rgba r g b a => exact operandOp_sameCommand hphase x h

theorem decodePixel_sameCommand (hphase : s.phase = .decoding) (x : State) (h : decodePixel s = .next t) :
    ∃ t', decodePixel (s.withEncoderOf x) = .next t' ∧ SameCommand t t' := by
  have hsrc' : pixelSource (s.withEncoderOf x) = pixelSource s := rfl
  unfold decodePixel
  rw [hsrc']
  rcases decodePixel_cases h with ⟨hsrc, rfl⟩ | ⟨i, u, hsrc, hexec, rfl⟩ | ⟨hsrc, rfl⟩ | ⟨hsrc, rfl⟩ <;> rw [hsrc]
  · have hruns : SameCommand (continueRun s) (continueRun (s.withEncoderOf x)) := .decoding x hphase
    exact ⟨_, rfl, hruns.completeUnlessRaised⟩
  · obtain ⟨u', hexec', hsame⟩ := exec_sameCommand hphase x hexec
    exact ⟨_, congrArg afterOp hexec', hsame.completeUnlessRaised⟩
  · exact ⟨_, rfl, sameCommand_raise rfl nofun⟩
  · exact ⟨_, rfl, (exhausted_sameCommand hphase x).completeUnlessRaised⟩

/-! ### Steps of the block -/

/-- With no other command issued, two blocks at the same point of a command stay together. -/
theorem SameCommand.step (h : SameCommand s s') (hnone : s.requests = []) (hstep : step s = .next t) :
    ∃ t', step s' = .next t' ∧ SameCommand t t' := by
  cases h with
  | encoding x hphase =>
    rw [step_encoding hphase] at hstep
    rw [step_encoding (s := s.withDecoderOf x) hphase]
    exact encodePixel_sameCommand hphase x hstep
  | decoding x hphase =>
    rw [step_decoding hphase] at hstep
    rw [step_decoding (s := s.withEncoderOf x) hphase]
    exact decodePixel_sameCommand hphase x hstep
  | ended hphase hphase' hreq hresult hout =>
    simp only [step_idle hphase, startNext, hnone] at hstep
    cases hstep
    exact ⟨s', by simp only [step_idle hphase', startNext, hreq, hnone], .ended hphase hphase' hreq hresult hout⟩

/-- No step issues a command (log 3). -/
theorem requests_eq_nil_of_step (hnone : s.requests = []) (hstep : Machine.step s = .next t) : t.requests = [] := by
  obtain ⟨-, hbusy, htake⟩ := stepLeavesParametersAndInputAlone s t hstep
  by_cases hphase : s.phase = .idle
  · rw [htake hphase, hnone, List.drop_nil]
  · obtain ⟨-, -, -, hreq⟩ := hbusy hphase
    rw [hreq, hnone]

/-- The first step of a run of steps that answers, and the rest of it. -/
theorem exists_step_of_runFor_succ (h : runFor (k + 1) s = .next t) :
    ∃ u, Machine.step s = .next u ∧ runFor k u = .next t := by
  cases hstep : Machine.step s with
  | next u => exact ⟨u, rfl, runFor_succ hstep ▸ h⟩
  | fault f =>
    have hcore : Sys2Proof.core.step s = .fault f := hstep
    simp [runFor, Host.Core.run, hcore] at h
  | refused e =>
    have hcore : Sys2Proof.core.step s = .refused e := hstep
    simp [runFor, Host.Core.run, hcore] at h

theorem SameCommand.runFor (h : SameCommand s s') (hnone : s.requests = []) (hrun : runFor k s = .next t) :
    ∃ t', Machine.runFor k s' = .next t' ∧ SameCommand t t' := by
  induction k generalizing s s' with
  | zero =>
    cases hrun
    exact ⟨s', rfl, h⟩
  | succ k ih =>
    obtain ⟨u, hstep, hrest⟩ := exists_step_of_runFor_succ hrun
    obtain ⟨u', hstep', hsame⟩ := h.step hnone hstep
    rw [runFor_succ hstep']
    exact ih hsame (requests_eq_nil_of_step hnone hstep) hrest

end Sys2Proof.Machine

open Sys2Proof Sys2Proof.Machine

/-- Settles O56: the first step gives both blocks the same command, and every later step keeps them together. -/
theorem resultDependsOnOperandsOnly : Obligations.ResultDependsOnOperandsOnly := by
  intro s s' r k t hasked hasked' hcfg hk hrun
  obtain ⟨n, rfl⟩ := Nat.exists_eq_add_of_le' hk
  obtain ⟨u, hstep, hrest⟩ := exists_step_of_runFor_succ hrun
  obtain ⟨u', hstep', hsame⟩ := hasked.step_sameCommand hasked' hcfg.symm hstep
  obtain ⟨hidle, hreq⟩ := hasked
  obtain ⟨-, -, htake⟩ := stepLeavesParametersAndInputAlone s u hstep
  have hnone : u.requests = [] := by rw [htake hidle, hreq, List.drop_one, List.tail_cons]
  obtain ⟨t', hrest', hend⟩ := hsame.runFor hnone hrest
  exact ⟨t', (runFor_succ hstep').trans hrest', hend.phase_eq, hend.reads_eq⟩

end

section
/-! What a step writes into RESULT (rules R136, R177, R220, R224), one lemma per phase: the statement O40. -/

namespace Sys2Proof.Machine

variable {s t : State} {r : Result} {st : Status}

/-- The result of a failed command is its failure alone (rule R224). -/
theorem Failed.result_eq (h : Failed t st) (hr : t.result = some r) : r = { status := st, outLen := 0, desc := none } :=
  Option.some.inj (hr.symm.trans h.2)

/-- A pixel step of ENCODE writes no result, or one that is OK and has no description (rules R33, R136). -/
theorem encodePixel_result (h : encodePixel s = .next t) :
    t.result = s.result ∨ ∃ n, t.result = some { status := .ok, outLen := n, desc := none } := by
  obtain ⟨px, -, rfl⟩ := encodePixel_eq_next h
  rcases encodeAdvance_cases (encodeOne px s) with ⟨-, ha⟩ | ⟨-, ha⟩ <;> rw [ha]
  · exact .inl (encodeOne_result px s)
  · exact .inr ⟨_, rfl⟩

/-- The end of a decoder step writes no result, or one that is OK, or raises MalformedStream (rules R176, R177). -/
theorem completePixel_result (s : State) :
    (completePixel s).result = s.result ∨ Failed (completePixel s) .malformedStream ∨
      ∃ n d, (completePixel s).result = some { status := .ok, outLen := n, desc := some d } := by
  unfold completePixel
  dsimp only
  split_ifs
  · exact .inl rfl
  · rcases finishDecode_cases (writePixel s) with h | h <;> rw [h]
    · exact .inr (.inl ⟨rfl, rfl⟩)
    · exact .inr (.inr ⟨_, _, rfl⟩)

/-- A pixel step of DECODE writes no result, or one that is OK, or raises MalformedStream (rules R166, R174 to R177). -/
theorem step_decoding_result (hphase : s.phase = .decoding) (h : step s = .next t) :
    t.result = s.result ∨ Failed t .malformedStream ∨
      ∃ n d, t.result = some { status := .ok, outLen := n, desc := some d } := by
  rcases step_decoding_cases hphase with ⟨-, hraise⟩ | ⟨-, w, hw, hcomplete⟩
  · cases hraise.symm.trans h
    exact .inr (.inl ⟨rfl, rfl⟩)
  · cases hcomplete.symm.trans h
    rw [← hw.frame.result]
    exact completePixel_result w

theorem startEncode_result {d : Desc} {q : Request} (h : startEncode d q s = .next t) :
    t.result = s.result ∨ Failed t .invalidDescription := by
  rcases startEncode_cases h with ⟨-, rfl⟩ | ⟨-, -, -, rfl⟩
  · exact .inr ⟨rfl, rfl⟩
  · exact .inl rfl

theorem startDecode_result {q : Request} (h : startDecode q s = .next t) :
    t.result = s.result ∨ Failed t .malformedStream := by
  rcases startDecode_cases h with ⟨-, ⟨-, rfl⟩ | ⟨-, _, -, ⟨_, -, rfl⟩ | ⟨_, -, -, rfl⟩⟩⟩
  · exact .inr ⟨rfl, rfl⟩
  · exact .inr ⟨rfl, rfl⟩
  · exact .inl rfl

/-- An idle step writes no result, or raises the failure of the command it takes (rule R220). -/
theorem startNext_result (h : startNext s = .next t) :
    t.result = s.result ∨ ∃ q rest, s.requests = q :: rest ∧
      (((∃ d, q.cmd = .encode d) ∧ Failed t .invalidDescription) ∨ (q.cmd = .decode ∧ Failed t .malformedStream)) := by
  rcases startNext_cases h with ⟨-, rfl⟩ | ⟨q, rest, hreq, ⟨d, hcmd, hstart⟩ | ⟨hcmd, hstart⟩⟩
  · exact .inl rfl
  · exact (startEncode_result hstart).imp_right fun hfail => ⟨q, rest, hreq, .inl ⟨⟨d, hcmd⟩, hfail⟩⟩
  · exact (startDecode_result hstart).imp_right fun hfail => ⟨q, rest, hreq, .inr ⟨hcmd, hfail⟩⟩

end Sys2Proof.Machine

open Sys2Proof Sys2Proof.Machine

/-- Settles O40: by the phase, a result that a step writes is a success of the running command or the failure of the
command at hand. -/
theorem eachCommandHasItsOwnFailure : Obligations.EachCommandHasItsOwnFailure := by
  intro s t r h hr hchanged
  cases hphase : s.phase with
  | encoding =>
    obtain ⟨n, hn⟩ := (encodePixel_result (step_encoding hphase ▸ h)).resolve_left hchanged
    cases hr.symm.trans hn
    exact ⟨fun _ => ⟨rfl, rfl⟩, nofun, nofun, fun hbad => absurd rfl hbad⟩
  | decoding =>
    rcases (step_decoding_result hphase h).resolve_left hchanged with hfail | ⟨n, d, hn⟩
    · cases hfail.result_eq hr
      exact ⟨nofun, fun _ => nofun, nofun, fun _ => hfail⟩
    · cases hr.symm.trans hn
      exact ⟨nofun, fun _ => nofun, nofun, fun hbad => absurd rfl hbad⟩
  | idle =>
    obtain ⟨q, rest, hreq, hfail⟩ := (startNext_result (step_idle hphase ▸ h)).resolve_left hchanged
    rcases hfail with ⟨⟨d, hcmd⟩, hfail⟩ | ⟨hcmd, hfail⟩ <;> cases hfail.result_eq hr
    · refine ⟨nofun, nofun, fun _ q' rest' hreq' => ?_, fun _ => hfail⟩
      cases hreq.symm.trans hreq'
      exact ⟨fun _ => rfl, fun hdec => (nomatch hcmd.symm.trans hdec)⟩
    · refine ⟨nofun, nofun, fun _ q' rest' hreq' => ?_, fun _ => hfail⟩
      cases hreq.symm.trans hreq'
      exact ⟨fun ⟨d, henc⟩ => (nomatch hcmd.symm.trans henc), fun _ => rfl⟩

end

section
/-! Every command terminates (rule R257): one pixel step of a running command moves to the next position or ends the
command, and the positions run out. The statement O53. -/

namespace Sys2Proof.Machine

variable {s t : State} {n : Nat}

/-- The block is idle with a result the host can read (rules R136, R177, R224). -/
def Ended (t : State) : Prop := t.phase = .idle ∧ t.result ≠ none

theorem ended_finish (s : State) (r : Result) : Ended (s.finish r) := ⟨rfl, nofun⟩

theorem ended_raise (s : State) (st : Status) : Ended (s.raise st) := ended_finish s _

/-- What one pixel step does to the progress of a running command: it moves to the next position, or ends the command,
and an ENCODE ends at the last position only (rules R124, R136, R164, R177). -/
def Progresses (s t : State) : Prop :=
  (s.pos + 1 < s.desc.pixels ∧ t.phase = s.phase ∧ t.pos = s.pos + 1) ∨
    (Ended t ∧ (s.phase = .encoding → s.pos + 1 = s.desc.pixels))

/-! ### One pixel step -/

/-- A running command stands at one of its pixels (rule R30). -/
theorem Inv.pos_lt (h : Inv s) (hbusy : s.phase ≠ .idle) : s.pos < s.desc.pixels := by
  cases hphase : s.phase with
  | idle => exact absurd hphase hbusy
  | encoding => exact (h.encoding hphase).pos
  | decoding => exact (h.decoding hphase).pos

/-- A pixel step of ENCODE never fails, so it ends the command at the last pixel only (rules R124, R136). -/
theorem progresses_encodePixel (hpos : s.pos < s.desc.pixels) (hstep : encodePixel s = .next t) :
    Progresses s t := by
  obtain ⟨px, -, rfl⟩ := encodePixel_eq_next hstep
  obtain ⟨-, hpos', hphase'⟩ := encodeOne_prev_pos_phase px s
  have hdesc := (encodeOne_frame px s).desc
  rcases encodeAdvance_cases (encodeOne px s) with ⟨hmore, ha⟩ | ⟨hlast, ha⟩ <;> rw [ha]
  · rw [hpos', hdesc] at hmore
    exact .inl ⟨hmore, hphase', congrArg (· + 1) hpos'⟩
  · rw [hpos', hdesc] at hlast
    exact .inr ⟨ended_finish _ _, fun _ => Nat.le_antisymm hpos hlast⟩

theorem ended_finishDecode (s : State) : Ended (finishDecode s) := by
  rcases finishDecode_cases s with h | h <;> rw [h]
  · exact ended_raise s _
  · exact ended_finish s _

/-- The end of a decoder step moves on, or ends the command after the last pixel (rules R175 to R177). -/
theorem progresses_completePixel (hphase : s.phase = .decoding) (hpos : s.pos < s.desc.pixels) :
    Progresses s (completePixel s) := by
  by_cases hmore : s.pos + 1 < s.desc.pixels
  · rw [completePixel_of_more hmore]
    exact .inl ⟨hmore, rfl, rfl⟩
  · rw [completePixel_of_last (Nat.le_antisymm hpos (not_lt.1 hmore))]
    exact .inr ⟨ended_finishDecode _, fun henc => nomatch hphase.symm.trans henc⟩

/-- A pixel step of DECODE raises, which ends the command, or completes a pixel (rules R164, R224). -/
theorem progresses_step_decoding (hphase : s.phase = .decoding) (hpos : s.pos < s.desc.pixels)
    (hstep : step s = .next t) : Progresses s t := by
  rcases step_decoding_cases hphase with ⟨-, hraise⟩ | ⟨-, w, hw, hcomplete⟩
  · cases hraise.symm.trans hstep
    exact .inr ⟨ended_raise s _, fun henc => nomatch hphase.symm.trans henc⟩
  · cases hcomplete.symm.trans hstep
    have hf := hw.frame
    have hprog := progresses_completePixel (hf.phase.trans hphase) (by rwa [hf.pos, hf.desc])
    rwa [Progresses, hf.pos, hf.desc, hf.phase] at hprog

/-- From the invariant a running command takes its next pixel step, and the step makes progress (rule R257). -/
theorem Inv.exists_progresses (h : Inv s) (hbusy : s.phase ≠ .idle) :
    ∃ t, Machine.step s = .next t ∧ Progresses s t := by
  cases hphase : s.phase with
  | idle => exact absurd hphase hbusy
  | encoding =>
    obtain ⟨t, ht⟩ := (h.encoding hphase).exists_encodePixel_eq_next
    exact ⟨t, (step_encoding hphase).trans ht, progresses_encodePixel (h.pos_lt hbusy) ht⟩
  | decoding =>
    obtain ⟨t, ht⟩ := decoderStepAlwaysAnswers s hphase
    exact ⟨t, ht, progresses_step_decoding hphase (h.pos_lt hbusy) ht⟩

/-! ### The whole command -/

/-- With `n + 1` pixels left a running command ends within `n + 1` steps, an ENCODE in exactly as many (rule R257). -/
theorem Inv.exists_runFor_ended (h : Inv s) (hbusy : s.phase ≠ .idle) (hleft : s.pos + (n + 1) = s.desc.pixels) :
    ∃ k t, 1 ≤ k ∧ k ≤ n + 1 ∧ (s.phase = .encoding → k = n + 1) ∧ runFor k s = .next t ∧ Ended t := by
  induction n generalizing s with
  | zero =>
    obtain ⟨t, hstep, hprog⟩ := h.exists_progresses hbusy
    obtain ⟨hend, -⟩ := hprog.resolve_left fun ⟨hmore, _⟩ => hleft.not_lt hmore
    exact ⟨1, t, Nat.le_refl 1, Nat.le_refl 1, fun _ => rfl, runFor_succ hstep, hend⟩
  | succ n ih =>
    obtain ⟨t, hstep, ⟨-, hphase, hpos⟩ | ⟨hend, hlast⟩⟩ := h.exists_progresses hbusy
    · obtain ⟨-, hdesc, -⟩ := (stepLeavesParametersAndInputAlone s t hstep).2.1 hbusy
      obtain ⟨k, u, -, hk, henc, hrun, hend⟩ :=
        ih (h.step hstep) (hphase ▸ hbusy) (by rw [hpos, hdesc]; omega)
      exact ⟨k + 1, u, Nat.le_add_left 1 k, Nat.succ_le_succ hk, fun he => congrArg (· + 1) (henc (hphase.trans he)),
        (runFor_succ hstep).trans hrun, hend⟩
    · refine ⟨1, t, Nat.le_refl 1, by omega, fun henc => ?_, runFor_succ hstep, hend⟩
      have := hlast henc
      omega

end Sys2Proof.Machine

open Sys2Proof Sys2Proof.Machine

/-- Settles O53: by induction over the pixels that remain; each step uses up one of them or ends the command. -/
theorem everyCommandTerminates : Obligations.EveryCommandTerminates := by
  intro s h hbusy
  have hpos := h.pos_lt hbusy
  obtain ⟨n, hn⟩ : ∃ n, s.desc.pixels - s.pos = n + 1 := Nat.exists_eq_add_of_le' (by omega)
  rw [hn]
  exact h.exists_runFor_ended hbusy (by omega)

end

section
/-! A launch whose OUT is smaller than rule R253 asks for: the statement O28. -/

namespace Sys2Proof.Machine

variable {s : State} {r : Request} {d : Desc}

theorem startEncode_of_no_room (hdesc : validDesc d = true) (hlen : r.inp.len = d.pixels * d.stride)
    (hsmall : r.outCap < encodeBound d) : startEncode d r s = .refused .outputTooSmall := by
  simp [startEncode, hdesc, hlen, hsmall]

theorem startDecode_of_no_room (hmax : r.inp.len ≤ 2 ^ s.cfg.cursorBits - 1) (hmin : minStreamBytes ≤ r.inp.len)
    (hparse : parse (r.inp.cells.readBytes 0 14) = .ok d) (hsmall : r.outCap < d.pixels * d.stride) :
    startDecode r s = .refused .outputTooSmall := by
  rw [startDecode, if_neg (not_lt.2 hmax), if_neg (not_lt.2 hmin), memRead_header hmin]
  simp only [hparse, if_pos hsmall]

end Sys2Proof.Machine

open Sys2Proof Sys2Proof.Machine

/-- Settles O28: the test of the room is the last one of each command's start, and the others pass. -/
theorem launchWithoutRoomIsRefused : Obligations.LaunchWithoutRoomIsRefused :=
  ⟨fun _ _ _ _ hidle hreq hcmd hdesc hlen hsmall =>
      (step_eq_startEncode hidle hreq hcmd).trans (startEncode_of_no_room hdesc hlen hsmall),
    fun _ _ _ _ hidle hreq hcmd hmin hmax hparse hsmall =>
      (step_eq_startDecode hidle hreq hcmd).trans (startDecode_of_no_room hmax hmin hparse hsmall)⟩

end

section
/-! The block after reset and after a hardware reset (rules R38, R250, R251): the statements O42, O43 and O45. -/

namespace Sys2Proof.Machine

variable {s : State}

@[simp] theorem hardwareReset_phase (s : State) : s.hardwareReset.phase = .idle := rfl
@[simp] theorem hardwareReset_result (s : State) : s.hardwareReset.result = none := rfl

/-- What a hardware reset keeps was legal, and every register it sets is at its start value (rules R250, R251). -/
theorem BaseInv.inv_hardwareReset (h : BaseInv s) : Inv s.hardwareReset where
  cfg := h.cfg
  inp := h.inp
  out := h.out
  requests := h.requests
  encCache := cacheWf_start
  decCache := cacheWf_start
  encoding := nofun
  decoding := nofun
  result := nofun
  output := nofun

theorem baseInv_reset : BaseInv State.reset where
  cfg := by decide
  inp := Memory.wf_reset.2
  out := Memory.wf_reset.1
  requests := nofun
  encCache := cacheWf_start
  decCache := cacheWf_start
  result := nofun

end Sys2Proof.Machine

open Sys2Proof Sys2Proof.Machine

/-- Settles O42: the registers by definition, and every slot of a start cache. -/
theorem resetLeavesTheStartValues : Obligations.ResetLeavesTheStartValues :=
  ⟨rfl, rfl, rfl, rfl, rfl, rfl, rfl, rfl, fun i => ⟨cacheGet_start i, cacheGet_start i⟩⟩

/-- Settles O43: the reset state has no result to read, and of the invariant only the clauses about what the reset keeps
say anything. -/
theorem hardwareResetAbandonsTheCommand : Obligations.HardwareResetAbandonsTheCommand := fun s h =>
  ⟨hardwareReset_phase s, hostReadResult_of_no_result (hardwareReset_phase s) (hardwareReset_result s),
    h.base.inv_hardwareReset⟩

/-- Settles O45: the block after reset is a block after a hardware reset. -/
theorem resetSatisfiesTheInvariant : Obligations.ResetSatisfiesTheInvariant := baseInv_reset.inv_hardwareReset

end
